-- ==== Sys2Proof/Word.lean ====
section
/-!
DEFINITION. The word types of the block: the widths that the spec's rules give to registers, format words, counts and
request records (R20, R38, R39, R92, R101).
-/

namespace Sys2Proof

/-- A register word, an operand of a request (R20, D2). -/
abbrev Word := BitVec 32

/-- A byte of the caller's buffer or of the receive FIFO (R35, R62). -/
abbrev Byte := BitVec 8

/-- A format word, as queued in the format FIFO (R92). -/
abbrev FmtWord := BitVec 13

/-- A timing count `TP[k]` (R38). -/
abbrev Count := BitVec 16

/-- The packed request record, without the buffer handle (R101). -/
abbrev ReqWord := BitVec 81

end Sys2Proof
end

