-- ==== Sys2Proof/Config.lean ====
section
/-!
DEFINITION. What an instance of the block fixes (R7, R44), and the free values (R9 `draw`) that stand behind the input
lists of State. The parameters are carried by State as one record that no step changes, so that a statement about every
state is a statement about every instance (log entry 1).
-/

namespace Sys2Proof

/-- The ten timing parameters, in the order of their index `k` (R38). -/
inductive TpName where
  | tHigh | tLow | tFall | tRise | thdSta | tsuSta | thdDat | tsuDat | tBuf | tsuSto
  deriving DecidableEq, Repr

/-- One nanosecond value per bus mode: Standard, Fast, Fast-Plus (R122, R123). -/
structure PerMode where
  m0 : Nat
  m1 : Nat
  m2 : Nat
  deriving DecidableEq, Repr

/-- `SPEC_NS`, the specification table of the eight table quantities (R7, D12). -/
structure SpecTable where
  tHigh : PerMode
  tLow : PerMode
  thdSta : PerMode
  tsuSta : PerMode
  thdDat : PerMode
  tsuDat : PerMode
  tBuf : PerMode
  tsuSto : PerMode
  deriving DecidableEq, Repr

/-- One entry of `PACK`: the parameter in bits 31:16 and the one in bits 15:0 (R7, R32). -/
structure PackPair where
  hi : TpName
  lo : TpName
  deriving DecidableEq, Repr

/-- `PACK[0..4]` (R7, D11). -/
structure Pack where
  p0 : PackPair
  p1 : PackPair
  p2 : PackPair
  p3 : PackPair
  p4 : PackPair
  deriving DecidableEq, Repr

/-- `FLAGS` and `INTR_BIT`: the positions of the eight flags that R21 names, and those of the further flags. -/
structure FlagMap where
  fmtThreshold : BitVec 5
  rxThreshold : BitVec 5
  rxOverflow : BitVec 5
  nak : BitVec 5
  sclInterference : BitVec 5
  sdaInterference : BitVec 5
  stretchTimeout : BitVec 5
  cmdComplete : BitVec 5
  others : List (BitVec 5)
  deriving DecidableEq, Repr

/-- The image of `INTR_BIT` (R21). -/
def FlagMap.positions (f : FlagMap) : List (BitVec 5) :=
  [f.fmtThreshold, f.rxThreshold, f.rxOverflow, f.nak, f.sclInterference, f.sdaInterference,
   f.stretchTimeout, f.cmdComplete] ++ f.others

/-- `STATUS_VISIBILITY` (R7, R74). -/
inductive Visibility where
  | exact
  | monotoneStale
  deriving DecidableEq, Repr

/-- The parameters of an instance (R7). -/
structure Params where
  clkHz : Nat
  specNs : SpecTable
  pack : Pack
  flags : FlagMap
  ctrlHostValue : Word
  fifoResetValue : Word
  fmtThreshShift : Nat
  rxThreshShift : Nat
  fmtDepth : Nat
  rxDepth : Nat
  base : Nat
  visibility : Visibility
  deriving DecidableEq, Repr

/-- The constraints that R7 (and R21, R61, R192) puts on the parameters. `PERIOD_NS >= 1` is not among them: where it
fails the block faults (R222). -/
def Params.wf (c : Params) : Bool :=
  decide (1 ≤ c.fmtDepth) && decide (1 ≤ c.rxDepth) && decide (c.base % 4 = 0) &&
  decide c.flags.positions.Nodup &&
  decide (c.fmtThreshShift ≤ 20) && decide (c.rxThreshShift ≤ 20) &&
  decide (c.fmtThreshShift + 12 ≤ c.rxThreshShift ∨ c.rxThreshShift + 12 ≤ c.fmtThreshShift)

/-- The default `SPEC_NS`, 93_implementation_defined.md G1 (PRESUMED, from general knowledge; log entry 2). -/
def SpecTable.g1 : SpecTable where
  tHigh := ⟨4000, 600, 260⟩
  tLow := ⟨4700, 1300, 500⟩
  thdSta := ⟨4000, 600, 260⟩
  tsuSta := ⟨4700, 600, 260⟩
  thdDat := ⟨0, 0, 0⟩
  tsuDat := ⟨250, 100, 50⟩
  tBuf := ⟨4700, 1300, 500⟩
  tsuSto := ⟨4000, 600, 260⟩

/-- The value of `PACK` that the spec takes (R32, D11). -/
def Pack.d11 : Pack where
  p0 := ⟨.tHigh, .tLow⟩
  p1 := ⟨.tFall, .tRise⟩
  p2 := ⟨.thdSta, .tsuSta⟩
  p3 := ⟨.thdDat, .tsuDat⟩
  p4 := ⟨.tBuf, .tsuSto⟩

/-- The default `INTR_BIT`, 93_implementation_defined.md G2 (PRESUMED, from general knowledge; log entry 2). -/
def FlagMap.g2 : FlagMap where
  fmtThreshold := 0
  rxThreshold := 1
  rxOverflow := 3
  nak := 4
  sclInterference := 5
  sdaInterference := 6
  stretchTimeout := 7
  cmdComplete := 9
  others := [2, 8, 10, 11, 12, 13, 14]

/-- The defaults of R7 and 92_eei_decisions.md; `CLK_HZ` is D8's test default and `BASE` has none, 0 here
(log entry 2). -/
def Params.default : Params where
  clkHz := 50000000
  specNs := .g1
  pack := .d11
  flags := .g2
  ctrlHostValue := 0x00000001
  fifoResetValue := 0x00000183
  fmtThreshShift := 16
  rxThreshShift := 0
  fmtDepth := 64
  rxDepth := 64
  base := 0
  visibility := .exact

/-! The free values: what a `draw` (R9) is once the input list that could supply it has run out. Nothing in Lean knows
anything about them (log entry 3). Their argument is the counter `State.env.tick`. -/

/-- A 32-bit draw: the undescribed bits of a register read (R109, R208, R209), the queues after an unspecified
`FIFO_CTRL` write (R212). -/
opaque Config.freeWord : Nat → Word

/-- The bus's answer to a transmitted byte, `true` for ACK (R204). -/
opaque Config.freeAck : Nat → Bool

/-- A byte the target sends (R206). -/
opaque Config.freeByte : Nat → Byte

/-- Which admissible value of the history a stale read returns (R74). -/
opaque Config.freePick : Nat → Nat

/-- The value of a register word after a reset event; the second argument is the register's index (R252). -/
opaque Config.freeReset : Nat → Nat → Word

/-- The format FIFO's contents after a reset event, before it is cut to the FIFO's depth (R253). -/
opaque Config.freeFmtq : Nat → List FmtWord

/-- The receive FIFO's contents after a reset event, before it is cut to the FIFO's depth (R253). -/
opaque Config.freeRxq : Nat → List Byte

end Sys2Proof
end

