-- ==== Sys2Proof/Syntax.lean ====
section
/-!
DEFINITION. The instructions: one constructor for every row of spec/opcode_table.json. The first eleven are the requests
a caller presents, the next five the unassigned select codes, the next six the format words that the device executes,
the last the internal primitive.
-/

namespace Sys2Proof

/-- The operations of the block (R100), the unassigned select codes (R108), the six forms of format word (R96) and
`blocking_push` (R142). Operands are the fields of the request record or of the format word. -/
inductive Instr where
  /-- `reset_fifos()`, R190. -/
  | resetFifos
  /-- `set_host_mode()`, R191. -/
  | setHostMode
  /-- `set_speed(speedKhz)`, R129. -/
  | setSpeed (speedKhz : Word)
  /-- `write(address, data, length, skipStop)`, R143; the data buffer is the request's `buf`. -/
  | write (addr7 : BitVec 7) (skip : Bool) (len : Word)
  /-- `read(address, buffer, length)`, R147; the destination buffer is the request's `buf`. -/
  | read (addr7 : BitVec 7) (len : Word)
  /-- `interrupt_asserted(f)`, R171. -/
  | interruptAsserted (sel : BitVec 5)
  /-- `clear_interrupt(f)`, R172. -/
  | clearInterrupt (sel : BitVec 5)
  /-- `enable_interrupt(f)`, R173. -/
  | enableInterrupt (sel : BitVec 5)
  /-- `disable_interrupt(f)`, R174. -/
  | disableInterrupt (sel : BitVec 5)
  /-- `set_host_thresholds(fmtThreshold, rxThreshold)`, R192. -/
  | setHostThresholds (fmtThreshold rxThreshold : Word)
  /-- `status_test(i)`, R175; the named predicates of R113 and R176 are this request with a fixed `i`. -/
  | statusTest (sel : BitVec 5)
  /-- Select code 11, R108. -/
  | unassigned11
  /-- Select code 12, R108. -/
  | unassigned12
  /-- Select code 13, R108. -/
  | unassigned13
  /-- Select code 14, R108. -/
  | unassigned14
  /-- Select code 15, R108. -/
  | unassigned15
  /-- Format word `ADDR_W`, R93. -/
  | addrW (addr7 : BitVec 7)
  /-- Format word `ADDR_R`, R93. -/
  | addrR (addr7 : BitVec 7)
  /-- Format word `DATA`, R94. -/
  | data (byte : Byte)
  /-- Format word `DATA_STOP`, R94. -/
  | dataStop (byte : Byte)
  /-- Format word `RDLEN`, R95. -/
  | rdlen (count : Byte)
  /-- Format word `RDLEN_STOP`, R95. -/
  | rdlenStop (count : Byte)
  /-- The internal primitive `blocking_push(word)`, R142. -/
  | blockingPush (word : FmtWord)
  deriving DecidableEq, Repr

end Sys2Proof
end

