-- ==== Sys2Proof/Machine/State.lean ====
section
/-!
DEFINITION. The state of the block and of the device behind it (10_state.md, 45_device_environment.md R200), the reasons a
run stops, and the state after reset (R251 to R254). The fields are grouped by owner: the sequencer, the device, the
visibility pointer, the caller's memory and requests, and the model's own inputs and observation lists.
-/

namespace Sys2Proof.Machine

/-! ## Outcomes (R12, R220) -/

/-- The faults of R220. The operation that raises one takes a next state with `pc = Faulted` (R222, R224, R225, R226);
the next step from `Faulted` answers the fault, because the spec gives no meaning to what follows (R12, R233). Safe: the
model stops where the spec stops. -/
inductive Fault where
  /-- Code 2. Raised by `set_speed` when `CLK_KHZ = 0` or `PERIOD_NS = 0` (R222). Safe. -/
  | zeroPeriod
  /-- Code 4. Raised by `set_speed` when a clamp would need 0x10000 (R126, R224). Safe. -/
  | timingOverflow
  /-- Code 5. Raised by a write of `FDATA` with the format FIFO full (R202, R225). Safe. -/
  | pushWhenFull
  /-- Code 6. Raised by `write` and `read` at a buffer index not below the buffer's size (R226). Safe. -/
  | bufferBound
  deriving DecidableEq, Repr

/-- The refusals. A refused request changes no state (R223, R227, R228); the step that presents it drops it and goes on. -/
inductive Refusal where
  /-- An instruction without a meaning. No arm of exec answers it. Safe. -/
  | notModelled (mnemonic : String)
  /-- Code 3. Raised by `set_speed` with `speedKhz = 0` (R223). Safe. -/
  | speedZero
  /-- Code 7. Raised by an unassigned select code and by an invalid `sel` (R108, R227). Safe. -/
  | badRequest
  /-- Code 8. Raised by every request while `pc` is not `Idle`, `Complete` or `NakAborted` (R228). Safe. -/
  | busy
  /-- Raised by `blocking_push` at a `pc` that is none of its micro-states: it is not requestable (R100, R142). Safe. -/
  | notRequestable
  /-- Raised by the access primitives for a misaligned, sub-word or outside access to `REG`, which no operation makes
  (R65, R80, D7). Safe. -/
  | registerAccess
  deriving DecidableEq, Repr

/-- How an operation request ended, for the observation list `outcomes` (R12, R220). -/
inductive RequestOutcome where
  /-- It completed, with its result bit where it has one (R12, R102, R271). -/
  | completes (result : Option Bool)
  /-- A `read` that completed with result 0 on its abort path (R221). -/
  | nakAbort
  | faults (f : Fault)
  | refused (r : Refusal)
  deriving DecidableEq, Repr

/-! ## The sequencer (R38 to R42) -/

/-- The sequencer state register (R40). `faulted` carries the cause, which no register stores (D41, log entry 10). -/
inductive Pc where
  | idle
  | complete
  | nakAborted
  | faulted (cause : Fault)
  | wStartPoll
  | wStartPush
  | wDataPoll
  | wDataPush
  | rStartPoll
  | rStartPush
  | rAddrWait
  | rNakTest
  | rNakClearRd
  | rNakClearWr
  | rLenPoll
  | rLenPush
  | rDataWait
  | rDrain
  | accRd
  | accWr
  | cfWr
  | tsCalc
  | tsWr (j : Fin 5)
  deriving DecidableEq, Repr

/-- The timing-parameter file `TP[0..9]` (R38). -/
structure TpFile where
  tHigh : Count
  tLow : Count
  tFall : Count
  tRise : Count
  thdSta : Count
  tsuSta : Count
  thdDat : Count
  tsuDat : Count
  tBuf : Count
  tsuSto : Count
  deriving DecidableEq, Repr

/-- A caller's buffer: where it lies in the caller's memory, and its size in bytes (R43, R62, D30; log entry 4). -/
structure BufRef where
  base : Nat
  size : Nat
  deriving DecidableEq, Repr

/-- A request as the caller presents it: the packed record and the buffer's handle (R101). -/
structure Request where
  record : ReqWord
  buf : BufRef
  deriving DecidableEq, Repr

/-- The state of the sequencer: `pc`, the latched request (`cur`, `buf`), the working registers `x0` to `x11`, and `TP`. -/
structure Sequencer where
  pc : Pc
  /-- The operation in progress with its latched operands; none in a terminal state (R41, R179). -/
  cur : Option Instr
  /-- The buffer handle presented with the latest request (R43). -/
  buf : BufRef
  /-- `ADDR` -/
  x0 : BitVec 7
  /-- `LEN` -/
  x1 : Word
  /-- `SKIP` -/
  x2 : Bool
  /-- `IDX` -/
  x3 : Word
  /-- `REM` -/
  x4 : Word
  /-- `CHUNK` -/
  x5 : Byte
  /-- `LAST` -/
  x6 : Bool
  /-- `WORD` -/
  x7 : FmtWord
  /-- `K` -/
  x8 : Byte
  /-- `RES` -/
  x9 : Bool
  /-- `TMP` -/
  x10 : Word
  /-- `MODE` -/
  x11 : BitVec 2
  tp : TpFile
  deriving DecidableEq, Repr

/-! ## The device (R20 to R37, R200) -/

/-- The names of the 28 registers, in the order of their index (R20). -/
inductive RegName where
  | intrState | intrEnable | intrTest | alertTest | ctrl | status | rdata | fdata | fifoCtrl | hostFifoConfig
  | targetFifoConfig | hostFifoStatus | targetFifoStatus | ovrd | val
  | timing0 | timing1 | timing2 | timing3 | timing4
  | timeoutCtrl | targetId | acqdata | txdata | hostTimeoutCtrl | targetTimeoutCtrl | targetNackCount | targetAckCtrl
  deriving DecidableEq, Repr

/-- The stored words of the register map. `STATUS`, `RDATA` and `FDATA` store none (R27, R28, R29). -/
structure RegFile where
  intrState : Word
  intrEnable : Word
  intrTest : Word
  alertTest : Word
  ctrl : Word
  fifoCtrl : Word
  hostFifoConfig : Word
  targetFifoConfig : Word
  hostFifoStatus : Word
  targetFifoStatus : Word
  ovrd : Word
  val : Word
  timing0 : Word
  timing1 : Word
  timing2 : Word
  timing3 : Word
  timing4 : Word
  timeoutCtrl : Word
  targetId : Word
  acqdata : Word
  txdata : Word
  hostTimeoutCtrl : Word
  targetTimeoutCtrl : Word
  targetNackCount : Word
  targetAckCtrl : Word
  deriving DecidableEq, Repr

/-- The state of the device: the register words and the two queues, head first (R34, R35, R200). -/
structure Device where
  regs : RegFile
  fmtq : List FmtWord
  rxq : List Byte
  deriving DecidableEq, Repr

/-! ## Visibility (R36, R74) -/

/-- The values that `STATUS` (bits 0, 1, 2 and 5) and `INTR_STATE` have at one step. -/
structure Snap where
  status : Word
  intrState : Word
  deriving DecidableEq, Repr

/-- The visibility pointer and the history it points into, oldest value first; both stay as they are under `exact`. -/
structure View where
  vis : Nat
  hist : List Snap
  deriving DecidableEq, Repr

/-! ## Inputs and observation lists -/

/-- Who moves in a step, with what the mover chooses freely (R11, R200). No turn lets the caller change its own buffers, which
the spec leaves to the caller between requests (R43, R268; DESIGN CHOICE, log entry 26). -/
inductive Turn where
  /-- A step of the sequencer. -/
  | seq
  /-- The caller presents its next request, whatever the sequencer is doing (R228). -/
  | present
  /-- `DEV_EXEC` (R203). -/
  | devExec
  /-- `DEV_FLAG`: the new values of the bits of `INTR_STATE` other than `Nak` (R210). -/
  | devFlag (value : Word)
  /-- The device changes a register that the block never accesses (R37). -/
  | devWord (r : RegName) (value : Word)
  /-- Reset, from outside (R250). -/
  | reset
  deriving DecidableEq, Repr

/-- The inputs of the coming steps: the interleaving and the draws (R9, R200). Where a list of draws has run out the free
values of Config take its place; `tick` counts those used. The model's own state (log entry 3). -/
structure Env where
  sched : List Turn
  acks : List Bool
  rxBytes : List Byte
  noise : List Word
  picks : List Nat
  tick : Nat
  deriving DecidableEq, Repr

/-- The events of `BUSLOG` (R217). -/
inductive BusEvent where
  | start
  | tx (byte : Byte) (ack : Bool)
  | rx (byte : Byte)
  | hostNak
  | stop
  deriving DecidableEq, Repr

/-- The observation lists, which nothing reads: `PUSHES` and `BUSLOG` (R217), and the requests' outcomes (R12). -/
structure Log where
  pushes : List FmtWord
  buslog : List BusEvent
  outcomes : List RequestOutcome
  deriving DecidableEq, Repr

/-- The caller's memory, in which the buffers lie: a canonical list of cells (log entry 4). -/
abbrev Memory := List Host.Cell

/-- The whole state. -/
structure State where
  cfg : Params
  seq : Sequencer
  dev : Device
  view : View
  mem : Memory
  port : List Request
  env : Env
  log : Log
  deriving DecidableEq, Repr

/-! ## Reset (R251 to R254) -/

/-- `TP` holds no value at reset; zero (R254, log entry 5). -/
def TpFile.reset : TpFile := ⟨0, 0, 0, 0, 0, 0, 0, 0, 0, 0⟩

/-- The sequencer after reset: `pc = Idle`, no request in progress, working registers zero (R251, R254). -/
def Sequencer.reset : Sequencer where
  pc := .idle
  cur := none
  buf := ⟨0, 2 ^ 32⟩
  x0 := 0
  x1 := 0
  x2 := false
  x3 := 0
  x4 := 0
  x5 := 0
  x6 := false
  x7 := 0
  x8 := 0
  x9 := false
  x10 := 0
  x11 := 0
  tp := .reset

/-- The register words after reset: the spec gives none; zero, which is also the family's value (R252, G5, log entry 6). -/
def RegFile.reset : RegFile :=
  ⟨0, 0, 0, 0, 0, 0, 0, 0, 0, 0, 0, 0, 0, 0, 0, 0, 0, 0, 0, 0, 0, 0, 0, 0, 0⟩

/-- The device after reset, with empty queues (R253, G5, log entry 6). -/
def Device.reset : Device := ⟨.reset, [], []⟩

/-- `vis` at reset is `now`, the start of an empty history (R36). -/
def View.reset : View := ⟨0, []⟩

/-- No input is given at reset (log entry 3). -/
def Env.reset : Env := ⟨[], [], [], [], [], 0⟩

/-- Nothing is observed at reset (R217). -/
def Log.reset : Log := ⟨[], [], []⟩

/-- The machine right after reset, with the default parameters, nothing in the caller's memory and no request. -/
def State.reset : State where
  cfg := .default
  seq := .reset
  dev := .reset
  view := .reset
  mem := []
  port := []
  env := .reset
  log := .reset

end Sys2Proof.Machine
end

