-- ==== Sys2Proof/Machine/Flags.lean ====
section
/-!
DEFINITION. The bits of `STATUS` and of the interrupt registers: their masks, tests, and every place where a flag is
computed (R27, R99, R103, R106, R109, R209).
-/

namespace Sys2Proof.Machine

/-! ## `STATUS` (R27, R99, R209) -/

/-- The indices of the described bits that the engine tests. -/
def statusFmtFull : Nat := 0
def statusFmtEmpty : Nat := 2

/-- Bits 0, 1, 2 and 5, the functions of the queues. -/
def statusFifoMask : Word := 0x27

/-- The value of those bits for queues of the given lengths (R209). -/
def fifoStatus (c : Params) (fmtLen rxLen : Nat) : Word :=
  (if fmtLen = c.fmtDepth then 0x01#32 else 0#32) ||| (if rxLen = c.rxDepth then 0x02#32 else 0#32) |||
  (if fmtLen = 0 then 0x04#32 else 0#32) ||| (if rxLen = 0 then 0x20#32 else 0#32)

/-- A status test: `(word >> k) & 1` (R99). -/
def statusBit (word : Word) (k : Nat) : Bool := word.getLsbD k

/-- `sel` is the index of a described status bit (R103, R227). -/
def validStatusIndex (sel : BitVec 5) : Bool := decide (sel.toNat ≤ 10)

/-! ## The interrupt registers (R103, R106, R109) -/

/-- `bit(f) = 1 << INTR_BIT[f]` (R106). -/
def flagBit (sel : BitVec 5) : Word := 1#32 <<< sel.toNat

/-- `sel` is the position of a flag of `FLAGS` (R103, R227). -/
def validFlag (c : Params) (sel : BitVec 5) : Bool := c.flags.positions.contains sel

/-- The bits that belong to some flag; the others are reserved (R109). -/
def flagMask (c : Params) : Word := c.flags.positions.foldl (fun m p => m ||| flagBit p) 0#32

/-- Test: `(word & bit(f)) != 0` (R106). -/
def flagSet (word : Word) (sel : BitVec 5) : Bool := decide (word &&& flagBit sel ≠ 0#32)

/-- Clear: `word & ~bit(f)` (R106). -/
def clearFlag (word : Word) (sel : BitVec 5) : Word := word &&& ~~~flagBit sel

/-- Set: `word | bit(f)` (R106). -/
def setFlag (word : Word) (sel : BitVec 5) : Word := word ||| flagBit sel

/-! ## Reserved bits -/

/-- A register read: the described bits from the register, the others from a draw (R109, R209). -/
def withDraw (mask stored draw : Word) : Word := (stored &&& mask) ||| (draw &&& ~~~mask)

end Sys2Proof.Machine
end

