-- ==== Sys2Proof/Decode.lean ====
section
/-!
DEFINITION. The decoder and the encoder. The block has no instruction stream (R90): what is encoded is a request record of
81 bits (R101), a format word of 13 bits (R92), and the internal primitive, which has no encoding of its own and whose
operand is the word in `x7` (R142). Each kind is decoded by itself; `decode` puts the three together.
-/

namespace Sys2Proof

/-! ## Format words (R92 to R96) -/

/-- The field `BYTE`, bits 7:0. -/
def FmtWord.byte (w : FmtWord) : Byte := w.extractLsb' 0 8
/-- The flag `START`, bit 8. -/
def FmtWord.start (w : FmtWord) : Bool := w.getLsbD 8
/-- The flag `STOP`, bit 9. -/
def FmtWord.stop (w : FmtWord) : Bool := w.getLsbD 9
/-- The flag `READB`, bit 10. -/
def FmtWord.readb (w : FmtWord) : Bool := w.getLsbD 10
/-- The flag `RCONT`, bit 11. -/
def FmtWord.rcont (w : FmtWord) : Bool := w.getLsbD 11
/-- The flag `NAKOK`, bit 12. -/
def FmtWord.nakok (w : FmtWord) : Bool := w.getLsbD 12

/-- The address word `0x0100 | (zext_13(ADDR) << 1) | rw` (R93). -/
def addressWord (addr7 : BitVec 7) (rw : Bool) : FmtWord :=
  0x0100#13 ||| (addr7.setWidth 13 <<< 1) ||| (BitVec.ofBool rw).setWidth 13

/-- The data word: a plain byte, or the byte combined with `STOP` (R94). -/
def dataWord (stop : Bool) (d : Byte) : FmtWord :=
  (if stop then 0x0200#13 else 0#13) ||| d.setWidth 13

/-- The read-length word `(LAST ? 0x0200 : 0) | 0x0400 | zext_13(CHUNK)` (R95). -/
def readLengthWord (last : Bool) (n : Byte) : FmtWord :=
  (if last then 0x0200#13 else 0#13) ||| 0x0400#13 ||| n.setWidth 13

/-- Why a word is not decoded. -/
inductive DecodeError where
  /-- A format word with `NAKOK`, which the block never emits (R97, R110). -/
  | nakOkSet
  /-- A format word with `RCONT`, which the block never emits (R97, R110). -/
  | rContSet
  /-- A format word with `START` and `READB`, none of the six forms (R110, R216). -/
  | startWithReadB
  /-- A format word with `START` and `STOP`, none of the six forms (R96). -/
  | startWithStop
  /-- A number that is no 81-bit record: a bit above 80 is set (R101). -/
  | bitsAboveRecord
  deriving DecidableEq, Repr

/-- The six forms of R96, told apart by the five flags (and bit 0 of an address word); every other word is rejected by
name. The device does not use this: it executes every word by its flags (R96, R216). -/
def decodeFormat (w : FmtWord) : Except DecodeError Instr :=
  if w.nakok then .error .nakOkSet
  else if w.rcont then .error .rContSet
  else if w.start then
    if w.readb then .error .startWithReadB
    else if w.stop then .error .startWithStop
    else if w.getLsbD 0 then .ok (.addrR (w.extractLsb' 1 7))
    else .ok (.addrW (w.extractLsb' 1 7))
  else if w.readb then
    if w.stop then .ok (.rdlenStop w.byte) else .ok (.rdlen w.byte)
  else if w.stop then .ok (.dataStop w.byte)
  else .ok (.data w.byte)

/-! ## Request records (R100, R101) -/

/-- The field `op`, bits 80:77. -/
def ReqWord.op (w : ReqWord) : BitVec 4 := w.extractLsb' 77 4
/-- The field `addr7`, bits 76:70. -/
def ReqWord.addr7 (w : ReqWord) : BitVec 7 := w.extractLsb' 70 7
/-- The field `skip`, bit 69. -/
def ReqWord.skip (w : ReqWord) : Bool := w.getLsbD 69
/-- The field `sel`, bits 68:64. -/
def ReqWord.sel (w : ReqWord) : BitVec 5 := w.extractLsb' 64 5
/-- The field `arg0`, bits 63:32. -/
def ReqWord.arg0 (w : ReqWord) : Word := w.extractLsb' 32 32
/-- The field `arg1`, bits 31:0. -/
def ReqWord.arg1 (w : ReqWord) : Word := w.extractLsb' 0 32

/-- The packed record, most significant field first (R101). -/
def requestWord (op : BitVec 4) (addr7 : BitVec 7) (skip : Bool) (sel : BitVec 5) (arg0 arg1 : Word) : ReqWord :=
  op ++ addr7 ++ BitVec.ofBool skip ++ sel ++ arg0 ++ arg1

/-- The operation that a record selects (R100). Total: every select code has a constructor, the unassigned ones too
(R108). Fields that the operation does not use are ignored (R101). -/
def decodeRequest (w : ReqWord) : Instr :=
  match w.op.toNat with
  | 0 => .resetFifos
  | 1 => .setHostMode
  | 2 => .setSpeed w.arg0
  | 3 => .write w.addr7 w.skip w.arg0
  | 4 => .read w.addr7 w.arg0
  | 5 => .interruptAsserted w.sel
  | 6 => .clearInterrupt w.sel
  | 7 => .enableInterrupt w.sel
  | 8 => .disableInterrupt w.sel
  | 9 => .setHostThresholds w.arg0 w.arg1
  | 10 => .statusTest w.sel
  | 11 => .unassigned11
  | 12 => .unassigned12
  | 13 => .unassigned13
  | 14 => .unassigned14
  | _ => .unassigned15

/-! ## All three kinds -/

/-- What is presented to the decoder: a record on the request port, a word at the head of the format FIFO, or the
operand of the internal primitive. -/
inductive Fetched where
  | request (w : ReqWord)
  | format (w : FmtWord)
  | internal (w : FmtWord)
  deriving DecidableEq, Repr

/-- The decoder, total on every word of every kind. -/
def decode : Fetched → Except DecodeError Instr
  | .request w => .ok (decodeRequest w)
  | .format w => decodeFormat w
  | .internal w => .ok (.blockingPush w)

/-- The encoder; a field that the operation does not use is zero (R101). -/
def encode : Instr → Fetched
  | .resetFifos => .request (requestWord 0 0 false 0 0 0)
  | .setHostMode => .request (requestWord 1 0 false 0 0 0)
  | .setSpeed khz => .request (requestWord 2 0 false 0 khz 0)
  | .write a skip len => .request (requestWord 3 a skip 0 len 0)
  | .read a len => .request (requestWord 4 a false 0 len 0)
  | .interruptAsserted sel => .request (requestWord 5 0 false sel 0 0)
  | .clearInterrupt sel => .request (requestWord 6 0 false sel 0 0)
  | .enableInterrupt sel => .request (requestWord 7 0 false sel 0 0)
  | .disableInterrupt sel => .request (requestWord 8 0 false sel 0 0)
  | .setHostThresholds f r => .request (requestWord 9 0 false 0 f r)
  | .statusTest sel => .request (requestWord 10 0 false sel 0 0)
  | .unassigned11 => .request (requestWord 11 0 false 0 0 0)
  | .unassigned12 => .request (requestWord 12 0 false 0 0 0)
  | .unassigned13 => .request (requestWord 13 0 false 0 0 0)
  | .unassigned14 => .request (requestWord 14 0 false 0 0 0)
  | .unassigned15 => .request (requestWord 15 0 false 0 0 0)
  | .addrW a => .format (addressWord a false)
  | .addrR a => .format (addressWord a true)
  | .data d => .format (dataWord false d)
  | .dataStop d => .format (dataWord true d)
  | .rdlen n => .format (readLengthWord false n)
  | .rdlenStop n => .format (readLengthWord true n)
  | .blockingPush w => .internal w

/-! ## The opcode table's numbering -/

/-- The word that the opcode table numbers as `w` in a row of `nbits` bits (whole bytes): no bits for the row of the
internal primitive, up to 32 for a format word as it is written to `FDATA`, whose bits 31:13 are ignored (R98, R201), more
for a request record. -/
def tableWord (nbits w : Nat) : Except DecodeError Fetched :=
  if nbits = 0 then .ok (.internal (BitVec.ofNat 13 w))
  else if nbits ≤ 32 then .ok (.format (BitVec.ofNat 13 w))
  else if w < 2 ^ 81 then .ok (.request (BitVec.ofNat 81 w))
  else .error .bitsAboveRecord

/-- The instruction that the decoder reads from a row's word. -/
def decodeTableWord (nbits w : Nat) : Option Instr :=
  match tableWord nbits w with
  | .ok f => (decode f).toOption
  | .error _ => none

end Sys2Proof
end

