-- ==== Sys2Proof/Machine/Operands.lean ====
section
/-!
DEFINITION. Operand assembly: every field that the block builds from an operand (R107), and the arithmetic of the Timing
Calculator (R121 to R127).
-/

namespace Sys2Proof.Machine

/-! ## Words of the FIFOs -/

/-- The value written to `FDATA` for a format word: bits 31:13 zero (R98). -/
def fdataValue (w : FmtWord) : Word := w.setWidth 32

/-- The format word in a value written to `FDATA`: bits 31:13 ignored (R98, R201). -/
def fdataWord (v : Word) : FmtWord := v.setWidth 13

/-- The byte stored to `BUF` from a value read from `RDATA`: `trunc_8` (R66, R80). -/
def rdataByte (v : Word) : Byte := v.setWidth 8

/-- The value read from `RDATA` for a byte: bits 31:8 are a draw (R28, R208). -/
def rdataValue (b : Byte) (draw : Word) : Word := b.setWidth 32 ||| (draw &&& 0xFFFFFF00#32)

/-- The last word of a `write` and the words before it: `STOP` only on the last and only when not `SKIP` (R94, R146). -/
def writeDataWord (last skip : Bool) (d : Byte) : FmtWord := dataWord (last && !skip) d

/-! ## Chunks (R150) -/

/-- `CHUNK_MAX` (R7). -/
def chunkMax : Nat := 255

/-- `CHUNK = min(255, REM)`, in 8 bits. -/
def chunkSize (rem : Word) : Byte := BitVec.ofNat 8 (min chunkMax rem.toNat)

/-- `LAST = (CHUNK == REM)`. -/
def chunkIsLast (rem : Word) : Bool := decide ((chunkSize rem).setWidth 32 = rem)

/-! ## Thresholds (R105) -/

/-- `((fmt & 0xFFF) << FMT_THRESH_SHIFT) | ((rx & 0xFFF) << RX_THRESH_SHIFT)`. -/
def thresholdWord (c : Params) (fmt rx : Word) : Word :=
  ((fmt &&& 0xFFF#32) <<< c.fmtThreshShift) ||| ((rx &&& 0xFFF#32) <<< c.rxThreshShift)

/-- The bits of `HOST_FIFO_CONFIG` in the two threshold fields; the others are reserved (R109). -/
def thresholdMask (c : Params) : Word := thresholdWord c 0xFFF#32 0xFFF#32

/-! ## The Timing Calculator -/

/-- `ceil_div(a, b)` for `b >= 1` (R10). -/
def ceilDiv (a b : Nat) : Nat := (a + b - 1) / b

/-- `CLK_KHZ` (R121). -/
def clkKhz (c : Params) : Nat := ceilDiv c.clkHz 1000

/-- `PERIOD_NS`, for `CLK_KHZ >= 1` (R121). -/
def periodNs (c : Params) : Nat := 1000000 / clkKhz c

/-- The clock has no period: the cause of `ZeroPeriod` (R222). -/
def noPeriod (c : Params) : Bool := decide (clkKhz c = 0) || decide (periodNs c = 0)

/-- The bus mode `(speed > 100) + (speed > 400)` (R122). -/
def busMode (khz : Word) : BitVec 2 :=
  (if khz.toNat > 100 then 1#2 else 0#2) + (if khz.toNat > 400 then 1#2 else 0#2)

/-- The entry of a mode. -/
def PerMode.at (p : PerMode) (mode : BitVec 2) : Nat :=
  if mode = 0#2 then p.m0 else if mode = 1#2 then p.m1 else p.m2

/-- `TFALL_NS` and `TRISE_NS` (R7, R123). -/
def tFallNs : Nat := 12
def tRiseNs : Nat := 120

/-- `ns[k]` (R123). -/
def nanoseconds (c : Params) (mode : BitVec 2) : TpName → Nat
  | .tHigh => PerMode.at c.specNs.tHigh mode
  | .tLow => PerMode.at c.specNs.tLow mode
  | .tFall => tFallNs
  | .tRise => tRiseNs
  | .thdSta => PerMode.at c.specNs.thdSta mode
  | .tsuSta => PerMode.at c.specNs.tsuSta mode
  | .thdDat => PerMode.at c.specNs.thdDat mode
  | .tsuDat => PerMode.at c.specNs.tsuDat mode
  | .tBuf => PerMode.at c.specNs.tBuf mode
  | .tsuSto => PerMode.at c.specNs.tsuSto mode

/-- The exact number of cycles, `ceil_div(ns, PERIOD_NS)` (R124). -/
def cycles (c : Params) (mode : BitVec 2) (k : TpName) : Nat := ceilDiv (nanoseconds c mode k) (periodNs c)

/-- The stored count, `trunc_16` of the exact one (R124). -/
def cycleCount (c : Params) (mode : BitVec 2) (k : TpName) : Count := BitVec.ofNat 16 (cycles c mode k)

/-- The ten counts before the clamp (R124). -/
def rawCounts (c : Params) (mode : BitVec 2) : TpFile where
  tHigh := cycleCount c mode .tHigh
  tLow := cycleCount c mode .tLow
  tFall := cycleCount c mode .tFall
  tRise := cycleCount c mode .tRise
  thdSta := cycleCount c mode .thdSta
  tsuSta := cycleCount c mode .tsuSta
  thdDat := cycleCount c mode .thdDat
  tsuDat := cycleCount c mode .tsuDat
  tBuf := cycleCount c mode .tBuf
  tsuSto := cycleCount c mode .tsuSto

/-- A clamp would need 0x10000: the cause of `TimingOverflow` (R126). -/
def clampOverflows (tp : TpFile) : Bool := decide (tp.thdDat = 0xFFFF#16) || decide (tp.tsuSta = 0xFFFF#16)

/-- `if a < b + 1 then b + 1 else a`, on naturals wider than 16 bits (R125). -/
def clampAbove (a b : Count) : Count := if a.toNat < b.toNat + 1 then BitVec.ofNat 16 (b.toNat + 1) else a

/-- The two clamps (R125). -/
def clampCounts (tp : TpFile) : TpFile :=
  { tp with tLow := clampAbove tp.tLow tp.thdDat, tBuf := clampAbove tp.tBuf tp.tsuSta }

/-- `TP[k]` (R38). -/
def TpFile.get (tp : TpFile) : TpName → Count
  | .tHigh => tp.tHigh
  | .tLow => tp.tLow
  | .tFall => tp.tFall
  | .tRise => tp.tRise
  | .thdSta => tp.thdSta
  | .tsuSta => tp.tsuSta
  | .thdDat => tp.thdDat
  | .tsuDat => tp.tsuDat
  | .tBuf => tp.tBuf
  | .tsuSto => tp.tsuSto

/-- `PACK[j]` (R7). -/
def packPair (p : Pack) (j : Fin 5) : PackPair :=
  match j with
  | 0 => p.p0
  | 1 => p.p1
  | 2 => p.p2
  | 3 => p.p3
  | 4 => p.p4

/-- The word `(first << 16) | second` (R104). -/
def packCounts (first second : Count) : Word := (first.setWidth 32 <<< 16) ||| second.setWidth 32

/-- `W[j]` (R127). -/
def timingWord (c : Params) (tp : TpFile) (j : Fin 5) : Word :=
  packCounts (TpFile.get tp (packPair c.pack j).hi) (TpFile.get tp (packPair c.pack j).lo)

end Sys2Proof.Machine
end

