-- ==== Sys2Proof/Machine/Ops.lean ====
section
/-!
DEFINITION. The named operations over the state: draws, the caller's memory and its buffers, the register accesses of R80
with their effects, faults and the endings of an operation (R41, R220 to R229), and the frame every request's meaning has.
-/

namespace Sys2Proof.Machine

/-- What a meaning and a step answer. -/
abbrev Res := Host.Outcome State Fault Refusal

/-! ## Draws (R9; log entry 3) -/

/-- A 32-bit draw: the next input, or a free value. -/
def drawWord (s : State) : Word × State :=
  match s.env.noise with
  | v :: rest => (v, { s with env.noise := rest })
  | [] => (Config.freeWord s.env.tick, { s with env.tick := s.env.tick + 1 })

/-- The bus's answer to a transmitted byte, `true` for ACK (R204). -/
def drawAck (s : State) : Bool × State :=
  match s.env.acks with
  | v :: rest => (v, { s with env.acks := rest })
  | [] => (Config.freeAck s.env.tick, { s with env.tick := s.env.tick + 1 })

/-- A byte the target sends (R206). -/
def drawByte (s : State) : Byte × State :=
  match s.env.rxBytes with
  | v :: rest => (v, { s with env.rxBytes := rest })
  | [] => (Config.freeByte s.env.tick, { s with env.tick := s.env.tick + 1 })

/-- Which admissible history value a stale read returns (R74). -/
def drawPick (s : State) : Nat × State :=
  match s.env.picks with
  | v :: rest => (v, { s with env.picks := rest })
  | [] => (Config.freePick s.env.tick, { s with env.tick := s.env.tick + 1 })

/-! ## The caller's memory (R43, R62; log entry 4) -/

/-- What an address that is not listed reads as. -/
def Memory.blank : Byte := 0

/-- The canonical form: addresses strictly rising, no entry equal to what an unlisted address reads as. -/
def Memory.wf : Memory → Bool
  | [] => true
  | (a, b) :: rest => decide (b ≠ Memory.blank) && rest.all (fun c => decide (a < c.1)) && Memory.wf rest

/-- The byte at an address. -/
def Memory.read : Memory → Nat → Byte
  | [], _ => Memory.blank
  | (k, v) :: rest, a => if k = a then v else Memory.read rest a

/-- Store a byte, keeping the canonical form. -/
def Memory.write : Memory → Nat → Byte → Memory
  | [], a, b => if b = Memory.blank then [] else [(a, b)]
  | (k, v) :: rest, a, b =>
    if a < k then (if b = Memory.blank then (k, v) :: rest else (a, b) :: (k, v) :: rest)
    else if a = k then (if b = Memory.blank then rest else (a, b) :: rest)
    else (k, v) :: Memory.write rest a b

/-- The address of `BUF[i]` of the current request (R62). -/
def bufAddress (s : State) (i : Nat) : Nat := s.seq.buf.base + i

/-- `MemRead(BUF, i, 1)` (R80); an index not below the buffer's size is the fault of R226. -/
def bufRead (i : Nat) (s : State) : Except Fault Byte :=
  if i < s.seq.buf.size then .ok (Memory.read s.mem (bufAddress s i)) else .error .bufferBound

/-- `MemWrite(BUF, i, 1, b)` (R80); an index not below the buffer's size is the fault of R226. -/
def bufWrite (i : Nat) (b : Byte) (s : State) : Except Fault State :=
  if i < s.seq.buf.size then .ok { s with mem := Memory.write s.mem (bufAddress s i) b } else .error .bufferBound

/-! ## The register map (R20, R60, R61) -/

/-- The index of a register (R20). -/
def RegName.index : RegName → Nat
  | .intrState => 0
  | .intrEnable => 1
  | .intrTest => 2
  | .alertTest => 3
  | .ctrl => 4
  | .status => 5
  | .rdata => 6
  | .fdata => 7
  | .fifoCtrl => 8
  | .hostFifoConfig => 9
  | .targetFifoConfig => 10
  | .hostFifoStatus => 11
  | .targetFifoStatus => 12
  | .ovrd => 13
  | .val => 14
  | .timing0 => 15
  | .timing1 => 16
  | .timing2 => 17
  | .timing3 => 18
  | .timing4 => 19
  | .timeoutCtrl => 20
  | .targetId => 21
  | .acqdata => 22
  | .txdata => 23
  | .hostTimeoutCtrl => 24
  | .targetTimeoutCtrl => 25
  | .targetNackCount => 26
  | .targetAckCtrl => 27

/-- The registers in the order of their index (R20). -/
def allRegs : List RegName :=
  [.intrState, .intrEnable, .intrTest, .alertTest, .ctrl, .status, .rdata, .fdata, .fifoCtrl, .hostFifoConfig,
   .targetFifoConfig, .hostFifoStatus, .targetFifoStatus, .ovrd, .val, .timing0, .timing1, .timing2, .timing3, .timing4,
   .timeoutCtrl, .targetId, .acqdata, .txdata, .hostTimeoutCtrl, .targetTimeoutCtrl, .targetNackCount, .targetAckCtrl]

/-- The byte offset of a register (R20). -/
def RegName.offset (r : RegName) : Nat := 4 * RegName.index r

/-- The address of a register (R61). -/
def RegName.address (c : Params) (r : RegName) : Nat := c.base + RegName.offset r

/-- The register `TIMING<j>` (R32). -/
def timingReg (j : Fin 5) : RegName :=
  match j with
  | 0 => .timing0
  | 1 => .timing1
  | 2 => .timing2
  | 3 => .timing3
  | 4 => .timing4

/-- The registers that no operation reads or writes: the thirteen of R37, and `INTR_TEST` and `ALERT_TEST` (R24, R25). -/
def RegName.unused : RegName → Bool
  | .intrTest | .alertTest | .targetFifoConfig | .hostFifoStatus | .targetFifoStatus | .ovrd | .val | .timeoutCtrl
  | .targetId | .acqdata | .txdata | .hostTimeoutCtrl | .targetTimeoutCtrl | .targetNackCount | .targetAckCtrl => true
  | .intrState | .intrEnable | .ctrl | .status | .rdata | .fdata | .fifoCtrl | .hostFifoConfig | .timing0 | .timing1
  | .timing2 | .timing3 | .timing4 => false

/-- The stored word of a register; `STATUS`, `RDATA` and `FDATA` store none (R27, R28, R29). -/
def RegFile.get (f : RegFile) : RegName → Option Word
  | .intrState => some f.intrState
  | .intrEnable => some f.intrEnable
  | .intrTest => some f.intrTest
  | .alertTest => some f.alertTest
  | .ctrl => some f.ctrl
  | .status => none
  | .rdata => none
  | .fdata => none
  | .fifoCtrl => some f.fifoCtrl
  | .hostFifoConfig => some f.hostFifoConfig
  | .targetFifoConfig => some f.targetFifoConfig
  | .hostFifoStatus => some f.hostFifoStatus
  | .targetFifoStatus => some f.targetFifoStatus
  | .ovrd => some f.ovrd
  | .val => some f.val
  | .timing0 => some f.timing0
  | .timing1 => some f.timing1
  | .timing2 => some f.timing2
  | .timing3 => some f.timing3
  | .timing4 => some f.timing4
  | .timeoutCtrl => some f.timeoutCtrl
  | .targetId => some f.targetId
  | .acqdata => some f.acqdata
  | .txdata => some f.txdata
  | .hostTimeoutCtrl => some f.hostTimeoutCtrl
  | .targetTimeoutCtrl => some f.targetTimeoutCtrl
  | .targetNackCount => some f.targetNackCount
  | .targetAckCtrl => some f.targetAckCtrl

/-- Store a word in a register that stores one. -/
def RegFile.set (f : RegFile) (r : RegName) (v : Word) : RegFile :=
  match r with
  | .intrState => { f with intrState := v }
  | .intrEnable => { f with intrEnable := v }
  | .intrTest => { f with intrTest := v }
  | .alertTest => { f with alertTest := v }
  | .ctrl => { f with ctrl := v }
  | .status => f
  | .rdata => f
  | .fdata => f
  | .fifoCtrl => { f with fifoCtrl := v }
  | .hostFifoConfig => { f with hostFifoConfig := v }
  | .targetFifoConfig => { f with targetFifoConfig := v }
  | .hostFifoStatus => { f with hostFifoStatus := v }
  | .targetFifoStatus => { f with targetFifoStatus := v }
  | .ovrd => { f with ovrd := v }
  | .val => { f with val := v }
  | .timing0 => { f with timing0 := v }
  | .timing1 => { f with timing1 := v }
  | .timing2 => { f with timing2 := v }
  | .timing3 => { f with timing3 := v }
  | .timing4 => { f with timing4 := v }
  | .timeoutCtrl => { f with timeoutCtrl := v }
  | .targetId => { f with targetId := v }
  | .acqdata => { f with acqdata := v }
  | .txdata => { f with txdata := v }
  | .hostTimeoutCtrl => { f with hostTimeoutCtrl := v }
  | .targetTimeoutCtrl => { f with targetTimeoutCtrl := v }
  | .targetNackCount => { f with targetNackCount := v }
  | .targetAckCtrl => { f with targetAckCtrl := v }

/-- Store a word in a register of the map, with no other effect (R214). -/
def storeReg (r : RegName) (v : Word) (s : State) : State := { s with dev.regs := RegFile.set s.dev.regs r v }

/-! ## Visibility (R36, R74) -/

/-- The current values of `STATUS` (its queue bits) and `INTR_STATE`. -/
def snap (s : State) : Snap where
  status := fifoStatus s.cfg s.dev.fmtq.length s.dev.rxq.length
  intrState := s.dev.regs.intrState

/-- The history index that a stale read returns: one of `vis .. now`, drawn (R74). -/
def staleIndex (vis now pick : Nat) : Nat := if vis ≤ now then vis + pick % (now - vis + 1) else now

/-- What a read of `STATUS` or `INTR_STATE` sees, and the state after: under `exact` the current values; under
`monotone_stale` the values at a drawn index `j` with `vis <= j <= now`, after which `vis <- j`. -/
def visible (s : State) : Snap × State :=
  match s.cfg.visibility with
  | .exact => (snap s, s)
  | .monotoneStale =>
    let p := drawPick s
    let j := staleIndex s.view.vis s.view.hist.length p.1
    (s.view.hist.getD j (snap s), { p.2 with view.vis := j })

/-- Under `monotone_stale` a step of either agent adds the values it started from to the history (R36). -/
def remember (before after : State) : State :=
  match before.cfg.visibility with
  | .exact => after
  | .monotoneStale => { after with view.hist := after.view.hist ++ [snap before] }

/-! ## Register reads: `MemRead(REG, off, 4)`, whose value is left in `x10` (R80) -/

/-- A read of `STATUS`: the queue bits as visible, the others drawn (R27, R74, R209). -/
def readStatus (s : State) : State :=
  let v := visible s
  let d := drawWord v.2
  { d.2 with seq.x10 := withDraw statusFifoMask v.1.status d.1 }

/-- A read of `INTR_STATE`: the flags as visible, the reserved bits drawn (R22, R74, R109). -/
def readIntrState (s : State) : State :=
  let v := visible s
  let d := drawWord v.2
  { d.2 with seq.x10 := withDraw (flagMask s.cfg) v.1.intrState d.1 }

/-- A read of `INTR_ENABLE`: the stored word, reserved bits too, which hold whatever reset left in them; nobody but the
sequencer changes it, so it is never stale (R23, R74, R177, R252; log entry 9). -/
def readIntrEnable (s : State) : State := { s with seq.x10 := s.dev.regs.intrEnable }

/-- A read of `HOST_FIFO_CONFIG`, which no operation makes: the two threshold fields as stored, the reserved bits drawn
(R109). -/
def readHostFifoConfig (s : State) : State :=
  let d := drawWord s
  { d.2 with seq.x10 := withDraw (thresholdMask s.cfg) s.dev.regs.hostFifoConfig d.1 }

/-- A read of `RDATA`: the head of the receive FIFO is removed and returned in bits 7:0, the others drawn; when the FIFO
is empty all bits are drawn and nothing is removed (R28, R208). -/
def readRdata (s : State) : State :=
  let d := drawWord s
  match s.dev.rxq with
  | [] => { d.2 with seq.x10 := d.1 }
  | b :: rest => { d.2 with seq.x10 := rdataValue b d.1, dev.rxq := rest }

/-- One 32-bit read of a register. A register whose read the spec does not describe (`FDATA`, and the unused ones: U14)
gives a draw. -/
def regRead (r : RegName) (s : State) : State :=
  match r with
  | .status => readStatus s
  | .intrState => readIntrState s
  | .intrEnable => readIntrEnable s
  | .rdata => readRdata s
  | .hostFifoConfig => readHostFifoConfig s
  | r =>
    if r.unused then { (drawWord s).2 with seq.x10 := (drawWord s).1 }
    else match RegFile.get s.dev.regs r with
      | some v => { s with seq.x10 := v }
      | none => { (drawWord s).2 with seq.x10 := (drawWord s).1 }

/-! ## Register writes: `MemWrite(REG, off, 4, v)` (R68, R80) -/

/-- A write of `FDATA`: the low 13 bits are appended to the format FIFO; into a full one it is the fault of R225, the FIFO
unchanged (R201, R202). `PUSHES` gains only a word that is appended, where R217 and R225 are silent on the word of the write
that faults (DESIGN CHOICE, log entry 27). -/
def writeFdata (v : Word) (s : State) : Except Fault State :=
  if s.dev.fmtq.length < s.cfg.fmtDepth then
    .ok { s with dev.fmtq := s.dev.fmtq ++ [fdataWord v], log.pushes := s.log.pushes ++ [fdataWord v] }
  else .error .pushWhenFull

/-- A write of `FIFO_CTRL`: the value is stored; `FIFO_RESET_VALUE` empties both queues, and for another value each queue
is emptied or not by a draw (R212). -/
def writeFifoCtrl (v : Word) (s : State) : State :=
  if v = s.cfg.fifoResetValue then
    { s with dev := { regs := RegFile.set s.dev.regs .fifoCtrl v, fmtq := [], rxq := [] } }
  else
    let d := drawWord s
    { d.2 with dev := { regs := RegFile.set s.dev.regs .fifoCtrl v
                        fmtq := if d.1.getLsbD 0 then [] else s.dev.fmtq
                        rxq := if d.1.getLsbD 1 then [] else s.dev.rxq } }

/-- One 32-bit write of a register. `CTRL`, the `TIMING` registers, `HOST_FIFO_CONFIG`, `INTR_ENABLE` and `INTR_STATE`
store the value (R22, R213, R214); a write of `STATUS`, `RDATA` or an unused register, which no operation makes, has no
effect (U14). -/
def regWrite (r : RegName) (v : Word) (s : State) : Except Fault State :=
  match r with
  | .fdata => writeFdata v s
  | .fifoCtrl => .ok (writeFifoCtrl v s)
  | r => if r.unused then .ok s else .ok (storeReg r v s)

/-- The register at a byte offset of the region, for an aligned 32-bit access (R65, R66, R80). -/
def regAt (off width : Nat) : Option RegName :=
  if width = 4 ∧ off % 4 = 0 then allRegs[off / 4]? else none

/-- `MemRead(REG, off, 4)` by byte offset; a misaligned, sub-word or outside access, which the block never makes, is refused
and not split (R65, R80, D7). -/
def memReadReg (off width : Nat) (s : State) : Res :=
  match regAt off width with
  | some r => .next (regRead r s)
  | none => .refused .registerAccess

/-! ## Faults and endings (R12, R41, R220 to R237) -/

/-- The state in which `pc` has its new value. -/
def withPc (p : Pc) (s : State) : State := { s with seq.pc := p }

/-- The state in which the operation in progress has ended at `p` with outcome `o`. -/
def ended (p : Pc) (o : RequestOutcome) (s : State) : State :=
  { s with seq := { s.seq with pc := p, cur := none }, log.outcomes := s.log.outcomes ++ [o] }

/-- Taking a fault: `pc <- Faulted`, nothing else changes; what the operation did before stays done (R222, R224, R225,
R226, R233, R236). -/
def faulted (f : Fault) (s : State) : State := ended (.faulted f) (.faults f) s

/-- `raise <Exception>` (R9). -/
def raise (f : Fault) (s : State) : Res := .next (faulted f s)

/-- Completion of an operation that has no result: `pc <- Complete` (R9, R41, R102). -/
def completed (s : State) : State := ended .complete (.completes none) s

/-- Completion of an operation with its result: `x9 <- r`, `pc <- Complete` (R9, R41, R102). -/
def completedWith (r : Bool) (s : State) : State := ended .complete (.completes (some r)) { s with seq.x9 := r }

/-- The end of the abort path of `read`: `x9 <- 0`, `pc <- NakAborted` (R149, R221, R235). -/
def nakAborted (s : State) : State := ended .nakAborted .nakAbort { s with seq.x9 := false }

/-- A step that only moves `pc`. -/
def goto (p : Pc) (s : State) : Res := .next (withPc p s)

/-- A write of a register followed by the rest of the step, or the fault that the write raises. -/
def withWrite (r : RegName) (v : Word) (s : State) (rest : State → Res) : Res :=
  match regWrite r v s with
  | .ok t => rest t
  | .error f => raise f s

/-- `MemWrite(REG, off, 4, v)` by byte offset, refused as `memReadReg` is (R65, R80, D7). -/
def memWriteReg (off width : Nat) (v : Word) (s : State) : Res :=
  match regAt off width with
  | some r => withWrite r v s .next
  | none => .refused .registerAccess

/-! ## Requests (R41, R228, R234) -/

/-- The terminal states in which a request is accepted (R40, R157, R237). -/
def Pc.accepting : Pc → Bool
  | .idle | .complete | .nakAborted => true
  | _ => false

/-- The done indication of the result port (R42). -/
def State.done (s : State) : Bool := decide (s.seq.pc = .complete) || decide (s.seq.pc = .nakAborted)

/-- The result bit of the result port (R42, R102). -/
def State.result (s : State) : Bool := s.seq.x9

/-- Entering an operation: its operands are latched and `pc` moves to its first micro-state (R41, R179). -/
def enter (i : Instr) (p : Pc) (s : State) : Res := .next { s with seq := { s.seq with pc := p, cur := some i } }

/-- The frame of every request's meaning: in an accepting state the request is looked at; while it is itself the operation
in progress its next micro-state step is taken; otherwise it is not accepted (R41, R228, R234). -/
def operation (i : Instr) (accept micro : State → Res) (s : State) : Res :=
  if s.seq.pc.accepting then accept s
  else if s.seq.cur = some i then micro s
  else .refused .busy

/-- DOC's coarse states of a transaction (R40). -/
inductive Phase where
  | idle | addressPhase | dataPhase | complete | nakAborted
  deriving DecidableEq, Repr

/-- `phase(pc)` (R40). -/
def Pc.phase : Pc → Option Phase
  | .idle => some .idle
  | .complete => some .complete
  | .nakAborted => some .nakAborted
  | .wStartPoll | .wStartPush | .rStartPoll | .rStartPush | .rAddrWait | .rNakTest | .rNakClearRd | .rNakClearWr =>
    some .addressPhase
  | .wDataPoll | .wDataPush | .rLenPoll | .rLenPush | .rDataWait | .rDrain => some .dataPhase
  | .faulted _ | .accRd | .accWr | .cfWr | .tsCalc | .tsWr _ => none

end Sys2Proof.Machine
end

