-- ==== Sys2Proof/Machine/Accessor.lean ====
section
/-!
DEFINITION. The Interrupt/Status Accessor: `interrupt_asserted`, `clear_interrupt`, `enable_interrupt`,
`disable_interrupt` and `status_test`, with the micro-states `ACC_RD` and `ACC_WR` (R170 to R181).
-/

namespace Sys2Proof.Machine

/-- Accepting an accessor request: an invalid operand is refused, no change; else `pc <- ACC_RD` (R179, R227). -/
def acceptAccess (i : Instr) (valid : Bool) (s : State) : Res :=
  if valid then enter i .accRd s else .refused .badRequest

/-- A testing operation: read the register into `x10`, put the tested bit in `x9`, complete (R171, R175, R179). -/
def testMicro (r : RegName) (test : Word → Bool) (s : State) : Res :=
  match s.seq.pc with
  | .accRd =>
    let t := regRead r s
    .next (completedWith (test t.seq.x10) t)
  | _ => .refused .busy

/-- A modifying operation: read the register into `x10`, then write the modified value back; two accesses, with device
steps allowed in between (R172, R173, R174, R179). -/
def modifyMicro (r : RegName) (modify : Word → Word) (s : State) : Res :=
  match s.seq.pc with
  | .accRd => goto .accWr (regRead r s)
  | .accWr => withWrite r (modify s.seq.x10) s fun t => .next (completed t)
  | _ => .refused .busy

/-- `interrupt_asserted(f)`, R171. -/
def execInterruptAsserted (sel : BitVec 5) (s : State) : Res :=
  operation (.interruptAsserted sel) (fun s => acceptAccess (.interruptAsserted sel) (validFlag s.cfg sel) s)
    (testMicro .intrState (fun w => flagSet w sel)) s

/-- `clear_interrupt(f)`: `state &= ~bit`, R172. -/
def execClearInterrupt (sel : BitVec 5) (s : State) : Res :=
  operation (.clearInterrupt sel) (fun s => acceptAccess (.clearInterrupt sel) (validFlag s.cfg sel) s)
    (modifyMicro .intrState (fun w => clearFlag w sel)) s

/-- `enable_interrupt(f)`: `enable |= bit`, R173. -/
def execEnableInterrupt (sel : BitVec 5) (s : State) : Res :=
  operation (.enableInterrupt sel) (fun s => acceptAccess (.enableInterrupt sel) (validFlag s.cfg sel) s)
    (modifyMicro .intrEnable (fun w => setFlag w sel)) s

/-- `disable_interrupt(f)`: `enable &= ~bit`, R174. -/
def execDisableInterrupt (sel : BitVec 5) (s : State) : Res :=
  operation (.disableInterrupt sel) (fun s => acceptAccess (.disableInterrupt sel) (validFlag s.cfg sel) s)
    (modifyMicro .intrEnable (fun w => clearFlag w sel)) s

/-- `status_test(i)`, R175. -/
def execStatusTest (sel : BitVec 5) (s : State) : Res :=
  operation (.statusTest sel) (fun s => acceptAccess (.statusTest sel) (validStatusIndex sel) s)
    (testMicro .status (fun w => statusBit w sel.toNat)) s

end Sys2Proof.Machine
end

