-- ==== Sys2Proof/Machine/Configuration.lean ====
section
/-!
DEFINITION. The configuration operations `reset_fifos`, `set_host_mode` and `set_host_thresholds`: one register write in the
micro-state `CF_WR` (R190 to R192).
-/

namespace Sys2Proof.Machine

/-- The one micro-state of a configuration operation: a whole-word write, then `Complete`. -/
def configure (r : RegName) (v : Word) (s : State) : Res :=
  match s.seq.pc with
  | .cfWr => withWrite r v s fun t => .next (completed t)
  | _ => .refused .busy

/-- `reset_fifos()`: `FIFO_CTRL <- FIFO_RESET_VALUE`, R190. -/
def execResetFifos (s : State) : Res :=
  operation .resetFifos (enter .resetFifos .cfWr) (fun s => configure .fifoCtrl s.cfg.fifoResetValue s) s

/-- `set_host_mode()`: `CTRL <- CTRL_HOST_VALUE`, R191. -/
def execSetHostMode (s : State) : Res :=
  operation .setHostMode (enter .setHostMode .cfWr) (fun s => configure .ctrl s.cfg.ctrlHostValue s) s

/-- The micro-state of `set_host_thresholds`: the word is built in `x10` and written (R192). -/
def microSetHostThresholds (fmt rx : Word) (s : State) : Res :=
  configure .hostFifoConfig (thresholdWord s.cfg fmt rx) { s with seq.x10 := thresholdWord s.cfg fmt rx }

/-- `set_host_thresholds(fmtThreshold, rxThreshold)`, R192. -/
def execSetHostThresholds (fmt rx : Word) (s : State) : Res :=
  operation (.setHostThresholds fmt rx) (enter (.setHostThresholds fmt rx) .cfWr) (microSetHostThresholds fmt rx) s

end Sys2Proof.Machine
end

