-- ==== Sys2Proof/Machine/Device.lean ====
section
/-!
DEFINITION. The device's execution of a format word (R203 to R207, R216). Removing the word from the format FIFO and the
host-mode condition are the step's (Machine/Step.lean); what stands here is what the word does.
-/

namespace Sys2Proof.Machine

/-- Events appended to `BUSLOG` (R217). -/
def observe (es : List BusEvent) (s : State) : State := { s with log.buslog := s.log.buslog ++ es }

/-- The device sets a flag of `INTR_STATE`, if `cond` holds. -/
def raiseFlag (cond : Bool) (sel : BitVec 5) (s : State) : State :=
  storeReg .intrState (if cond then setFlag s.dev.regs.intrState sel else s.dev.regs.intrState) s

/-- A start or stop condition, if the word asks for it. -/
def busCondition (asked : Bool) (e : BusEvent) : List BusEvent := if asked then [e] else []

/-- A transmit word (`READB = 0`): start if `START`, the byte with one draw of its answer, stop if `STOP`; a refused byte
sets `Nak` unless `NAKOK` (R204, R205). -/
def transmit (w : FmtWord) (s : State) : State :=
  let d := drawAck s
  raiseFlag (!d.1 && !w.nakok) s.cfg.flags.nak
    (observe (busCondition w.start .start ++ [.tx w.byte d.1] ++ busCondition w.stop .stop) d.2)

/-- One received byte: appended to the receive FIFO, or dropped with `RxOverflow` set when it is full (R206, R207). Either way
it stands in `BUSLOG`, where R207 and R217 are silent on a dropped byte (DESIGN CHOICE, log entry 25). -/
def receiveByte (s : State) : State :=
  let d := drawByte s
  let t := observe [.rx d.1] d.2
  if t.dev.rxq.length < t.cfg.rxDepth then { t with dev.rxq := t.dev.rxq ++ [d.1] }
  else raiseFlag true t.cfg.flags.rxOverflow t

/-- `n` received bytes, in order. -/
def receiveBytes : Nat → State → State
  | 0, s => s
  | n + 1, s => receiveBytes n (receiveByte s)

/-- The read-length of a receive word, 0 meaning 256 (R206). -/
def receiveCount (w : FmtWord) : Nat := if w.byte = 0#8 then 256 else w.byte.toNat

/-- A receive word (`READB = 1`): start if `START`, the bytes, the host's NAK unless `RCONT`, stop if `STOP` (R206, R216). -/
def receive (w : FmtWord) (s : State) : State :=
  observe (busCondition (!w.rcont) .hostNak ++ busCondition w.stop .stop)
    (receiveBytes (receiveCount w) (observe (busCondition w.start .start) s))

/-- What a format word does, whatever its flags (R203, R216). -/
def performWord (w : FmtWord) (s : State) : State := if w.readb then receive w s else transmit w s

/-- `ADDR_W`, R93, R204. -/
def execAddrW (addr7 : BitVec 7) (s : State) : Res := .next (performWord (addressWord addr7 false) s)

/-- `ADDR_R`, R93, R204. -/
def execAddrR (addr7 : BitVec 7) (s : State) : Res := .next (performWord (addressWord addr7 true) s)

/-- `DATA`, R94, R204. -/
def execData (d : Byte) (s : State) : Res := .next (performWord (dataWord false d) s)

/-- `DATA_STOP`, R94, R204. -/
def execDataStop (d : Byte) (s : State) : Res := .next (performWord (dataWord true d) s)

/-- `RDLEN`, R95, R206. -/
def execRdlen (n : Byte) (s : State) : Res := .next (performWord (readLengthWord false n) s)

/-- `RDLEN_STOP`, R95, R206. -/
def execRdlenStop (n : Byte) (s : State) : Res := .next (performWord (readLengthWord true n) s)

end Sys2Proof.Machine
end

