-- ==== Sys2Proof/Machine/Engine.lean ====
section
/-!
DEFINITION. The FIFO Transaction Engine: the primitive `blocking_push` (R142), `write` (R143, R146) and `read` (R147, R154),
one register access per step.
-/

namespace Sys2Proof.Machine

/-! ## Polls (R141) -/

/-- A step of `spin until FMTFULL = 0`: read `STATUS` into `x10`; stay while bit 0 is set (R142, R146). -/
def pollFull (stay next : Pc) (s : State) : Res :=
  let t := regRead .status s
  goto (if statusBit t.seq.x10 statusFmtFull then stay else next) t

/-- A step of `spin until FMTEMPTY = 1`: read `STATUS` into `x10`; stay while bit 2 is clear (R147, R154). -/
def pollEmpty (stay next : Pc) (s : State) : Res :=
  let t := regRead .status s
  goto (if statusBit t.seq.x10 statusFmtEmpty then next else stay) t

/-! ## `blocking_push` (R142) -/

/-- The data word at `W_DATA_PUSH` is the last one: `x3 == x1 - 1` (R146). -/
def lastDataWord (s : State) : Bool := decide (s.seq.x3 = s.seq.x1 - 1#32)

/-- The return point of `blocking_push`, fixed by the micro-state of its push (R146, R154, R157). -/
def returnPoint (s : State) : Pc :=
  match s.seq.pc with
  | .wStartPush => .wDataPoll
  | .wDataPush => if lastDataWord s then .complete else .wDataPoll
  | .rStartPush => .rAddrWait
  | .rLenPush => .rDataWait
  | p => p

/-- Moving to a return point; at `Complete` the operation has ended. -/
def returnTo (p : Pc) (s : State) : State := if p = .complete then completed s else withPc p s

/-- The push step: `x7 <- word`, `FDATA <- zext_32(word)`, then the caller's return point. What the caller's rule does
besides in this step is `also`. -/
def pushStep (word : FmtWord) (also : State → State) (s : State) : Res :=
  withWrite .fdata (fdataValue word) { s with seq.x7 := word } fun t => .next (also (returnTo (returnPoint s) t))

/-- The poll step and the push step of `blocking_push` at the micro-state pair that `pc` is in. -/
def blockingPushStep (word : FmtWord) (also : State → State) (s : State) : Res :=
  match s.seq.pc with
  | .wStartPoll => pollFull .wStartPoll .wStartPush { s with seq.x7 := word }
  | .wDataPoll => pollFull .wDataPoll .wDataPush { s with seq.x7 := word }
  | .rStartPoll => pollFull .rStartPoll .rStartPush { s with seq.x7 := word }
  | .rLenPoll => pollFull .rLenPoll .rLenPush { s with seq.x7 := word }
  | .wStartPush | .wDataPush | .rStartPush | .rLenPush => pushStep word also s
  | _ => .refused .notRequestable

/-- `blocking_push(word)`, R142. It is inlined in `write` and `read` (R157) and cannot be requested (R100). -/
def execBlockingPush (word : FmtWord) (s : State) : Res := blockingPushStep word id s

/-! ## `write` (R143, R146) -/

/-- Accepting `write`. -/
def acceptWrite (addr7 : BitVec 7) (skip : Bool) (len : Word) (s : State) : Res :=
  let t := { s with seq := { s.seq with x0 := addr7, x1 := len, x2 := skip } }
  if len = 0#32 then .next (completed t)
  else enter (.write addr7 skip len) .wStartPoll { t with seq.x7 := addressWord addr7 false }

/-- `W_DATA_PUSH`: read `BUF[x3]`, push the data word, `x3 <- x3 + 1`. -/
def pushData (s : State) : Res :=
  match bufRead s.seq.x3.toNat s with
  | .error f => raise f s
  | .ok d =>
    blockingPushStep (writeDataWord (lastDataWord s) s.seq.x2 d) (fun t => { t with seq.x3 := t.seq.x3 + 1#32 }) s

/-- The micro-states of `write`. -/
def microWrite (s : State) : Res :=
  match s.seq.pc with
  | .wStartPoll => blockingPushStep s.seq.x7 id s
  | .wStartPush => blockingPushStep s.seq.x7 (fun t => { t with seq.x3 := 0#32 }) s
  | .wDataPoll => blockingPushStep s.seq.x7 id s
  | .wDataPush => pushData s
  | _ => .refused .busy

/-- `write(address, data, length, skipStop)`, R143. -/
def execWrite (addr7 : BitVec 7) (skip : Bool) (len : Word) (s : State) : Res :=
  operation (.write addr7 skip len) (acceptWrite addr7 skip len) microWrite s

/-! ## `read` (R147, R154) -/

/-- Accepting `read`. -/
def acceptRead (addr7 : BitVec 7) (len : Word) (s : State) : Res :=
  let t := { s with seq := { s.seq with x0 := addr7, x1 := len, x3 := 0#32, x4 := len } }
  if len = 0#32 then .next (completedWith true t)
  else enter (.read addr7 len) .rStartPoll { t with seq.x7 := addressWord addr7 true }

/-- `R_NAK_TEST`: read `INTR_STATE`, test `Nak`; without it compute the chunk and its read-length word (R149, R150, C10). -/
def nakTest (s : State) : Res :=
  let t := regRead .intrState s
  if flagSet t.seq.x10 s.cfg.flags.nak then goto .rNakClearRd t
  else
    let last := chunkIsLast s.seq.x4
    let chunk := chunkSize s.seq.x4
    goto .rLenPoll { t with seq := { t.seq with x5 := chunk, x6 := last, x7 := readLengthWord last chunk } }

/-- `R_NAK_CLEAR_WR`: write `INTR_STATE` with `Nak` cleared; the operation ends in `NakAborted` (R149, R235). -/
def nakClear (s : State) : Res :=
  withWrite .intrState (clearFlag s.seq.x10 s.cfg.flags.nak) s fun t => .next (nakAborted t)

/-- `R_DATA_WAIT`: poll for empty; `x8 <- 0` on the way out. -/
def dataWait (s : State) : Res :=
  let t := regRead .status s
  if statusBit t.seq.x10 statusFmtEmpty then goto .rDrain { t with seq.x8 := 0#8 } else goto .rDataWait t

/-- The end of a drained chunk: the counters advance; the last chunk ends the operation with success, another one is
addressed (R148, R154). -/
def chunkDone (s : State) : State :=
  let t := { s with seq := { s.seq with x3 := s.seq.x3 + s.seq.x5.setWidth 32, x4 := s.seq.x4 - s.seq.x5.setWidth 32 } }
  if t.seq.x6 then completedWith true t
  else withPc .rStartPoll { t with seq.x7 := addressWord t.seq.x0 true }

/-- `R_DRAIN`: read `RDATA`, store its low byte at `BUF[x3 + x8]`, `x8 <- x8 + 1` (R152, R154). -/
def drain (s : State) : Res :=
  let t := regRead .rdata s
  match bufWrite (t.seq.x3 + t.seq.x8.setWidth 32).toNat (rdataByte t.seq.x10) t with
  | .error f => raise f t
  | .ok u =>
    let v := { u with seq.x8 := u.seq.x8 + 1#8 }
    if v.seq.x8 = v.seq.x5 then .next (chunkDone v) else .next v

/-- The micro-states of `read`. -/
def microRead (s : State) : Res :=
  match s.seq.pc with
  | .rStartPoll | .rStartPush | .rLenPoll | .rLenPush => blockingPushStep s.seq.x7 id s
  | .rAddrWait => pollEmpty .rAddrWait .rNakTest s
  | .rNakTest => nakTest s
  | .rNakClearRd => goto .rNakClearWr (regRead .intrState s)
  | .rNakClearWr => nakClear s
  | .rDataWait => dataWait s
  | .rDrain => drain s
  | _ => .refused .busy

/-- `read(address, buffer, length)`, R147. -/
def execRead (addr7 : BitVec 7) (len : Word) (s : State) : Res :=
  operation (.read addr7 len) (acceptRead addr7 len) microRead s

end Sys2Proof.Machine
end

