-- ==== Sys2Proof/Machine/Reserved.lean ====
section
/-!
DEFINITION. The unassigned select codes 11 to 15: refused, no state changes (R108, R227).
-/

namespace Sys2Proof.Machine

/-- A request that is refused for its select code; a busy sequencer does not even look at it (R227, R234). -/
def refuseSelectCode (s : State) : Res :=
  if s.seq.pc.accepting then .refused .badRequest else .refused .busy

/-- Select code 11, R108. -/
def execUnassigned11 (s : State) : Res := refuseSelectCode s
/-- Select code 12, R108. -/
def execUnassigned12 (s : State) : Res := refuseSelectCode s
/-- Select code 13, R108. -/
def execUnassigned13 (s : State) : Res := refuseSelectCode s
/-- Select code 14, R108. -/
def execUnassigned14 (s : State) : Res := refuseSelectCode s
/-- Select code 15, R108. -/
def execUnassigned15 (s : State) : Res := refuseSelectCode s

end Sys2Proof.Machine
end

