-- ==== Sys2Proof/Machine/Timing.lean ====
section
/-!
DEFINITION. The Timing Calculator: `set_speed` (R129), its check on acceptance and its micro-states `TS_CALC` and
`TS_WR0` to `TS_WR4`.
-/

namespace Sys2Proof.Machine

/-- Accepting `set_speed`: `SpeedZero`, then `ZeroPeriod`, then `pc <- TS_CALC` (R129, R234). -/
def acceptSetSpeed (khz : Word) (s : State) : Res :=
  if khz = 0#32 then .refused .speedZero
  else if noPeriod s.cfg then raise .zeroPeriod s
  else enter (.setSpeed khz) .tsCalc s

/-- `TS_CALC`: `x11`, the ten counts and the clamps; no register access. A clamp that does not fit faults after the counts
have been computed and before any register write (R122 to R126, R129, R224). -/
def calculateTiming (khz : Word) (s : State) : Res :=
  let raw := rawCounts s.cfg (busMode khz)
  if noPeriod s.cfg then raise .zeroPeriod s
  else if clampOverflows raw then
    raise .timingOverflow { s with seq := { s.seq with x11 := busMode khz, tp := raw } }
  else
    goto (.tsWr 0) { s with seq := { s.seq with x11 := busMode khz, tp := clampCounts raw } }

/-- `TS_WR<j>`: the write of `TIMING<j>`, in ascending order (R127, R128). -/
def writeTiming (j : Fin 5) (s : State) : Res :=
  withWrite (timingReg j) (timingWord s.cfg s.seq.tp j) s fun t =>
    if h : j.val + 1 < 5 then goto (.tsWr ⟨j.val + 1, h⟩) t else .next (completed t)

/-- The micro-states of `set_speed`. -/
def microSetSpeed (khz : Word) (s : State) : Res :=
  match s.seq.pc with
  | .tsCalc => calculateTiming khz s
  | .tsWr j => writeTiming j s
  | _ => .refused .busy

/-- `set_speed(speedKhz)`, R129. -/
def execSetSpeed (khz : Word) (s : State) : Res :=
  operation (.setSpeed khz) (acceptSetSpeed khz) (microSetSpeed khz) s

end Sys2Proof.Machine
end

