-- ==== Sys2Proof/Machine/Dispatch.lean ====
section
/-!
DEFINITION. The dispatch: one arm per constructor of Instr. For a request it is one step of the operation (its acceptance,
or its next micro-state); for a format word what the device does with it.
-/

namespace Sys2Proof.Machine

def exec (i : Instr) (s : State) : Host.Outcome State Fault Refusal :=
  match i with
  | .resetFifos => Sys2Proof.Machine.execResetFifos s
  | .setHostMode => Sys2Proof.Machine.execSetHostMode s
  | .setSpeed khz => Sys2Proof.Machine.execSetSpeed khz s
  | .write addr7 skip len => Sys2Proof.Machine.execWrite addr7 skip len s
  | .read addr7 len => Sys2Proof.Machine.execRead addr7 len s
  | .interruptAsserted sel => Sys2Proof.Machine.execInterruptAsserted sel s
  | .clearInterrupt sel => Sys2Proof.Machine.execClearInterrupt sel s
  | .enableInterrupt sel => Sys2Proof.Machine.execEnableInterrupt sel s
  | .disableInterrupt sel => Sys2Proof.Machine.execDisableInterrupt sel s
  | .setHostThresholds fmt rx => Sys2Proof.Machine.execSetHostThresholds fmt rx s
  | .statusTest sel => Sys2Proof.Machine.execStatusTest sel s
  | .unassigned11 => Sys2Proof.Machine.execUnassigned11 s
  | .unassigned12 => Sys2Proof.Machine.execUnassigned12 s
  | .unassigned13 => Sys2Proof.Machine.execUnassigned13 s
  | .unassigned14 => Sys2Proof.Machine.execUnassigned14 s
  | .unassigned15 => Sys2Proof.Machine.execUnassigned15 s
  | .addrW addr7 => Sys2Proof.Machine.execAddrW addr7 s
  | .addrR addr7 => Sys2Proof.Machine.execAddrR addr7 s
  | .data byte => Sys2Proof.Machine.execData byte s
  | .dataStop byte => Sys2Proof.Machine.execDataStop byte s
  | .rdlen count => Sys2Proof.Machine.execRdlen count s
  | .rdlenStop count => Sys2Proof.Machine.execRdlenStop count s
  | .blockingPush word => Sys2Proof.Machine.execBlockingPush word s

end Sys2Proof.Machine
end

