-- ==== Sys2Proof/Machine/Events.lean ====
section
/-!
DEFINITION. What each kind of turn does: the caller's presentation of a request, a step of the sequencer, the device's own
steps, and reset (R11, R41, R200, R203, R210, R228, R250).
-/

namespace Sys2Proof.Machine

/-! ## Requests (R228, R271) -/

/-- A refused request: dropped, its outcome observed, nothing else changed (R223, R227, R228). -/
def dropRequest (r : Refusal) (s : State) : State := { s with log.outcomes := s.log.outcomes ++ [.refused r] }

/-- The caller presents its next request. In an accepting state the block runs the acceptance step of the instruction that
the record decodes to; otherwise the request is not accepted and the operation in progress is not disturbed (R228). -/
def presentStep (s : State) : Res :=
  match s.port with
  | [] => .next s
  | q :: rest =>
    let t := { s with port := rest }
    if s.seq.pc.accepting then
      match exec (decodeRequest q.record) { t with seq.buf := q.buf } with
      | .next u => .next u
      | .fault f => .fault f
      | .refused r => .next (dropRequest r t)
    else .next (dropRequest .busy t)

/-! ## The sequencer (R41) -/

/-- A step of the sequencer: in an accepting state it takes the caller's next request, if there is one; otherwise it runs
the next step of the operation in progress. With no operation latched it can only be inside the bare primitive
`blocking_push` of the word in `x7` (log entry 12). -/
def sequencerStep (s : State) : Res :=
  if s.seq.pc.accepting then presentStep s
  else match s.seq.cur with
    | some i => exec i s
    | none => exec (.blockingPush s.seq.x7) s

/-! ## The device (R200) -/

/-- The device is in host mode (R213). -/
def hostMode (s : State) : Bool := decide (s.dev.regs.ctrl = s.cfg.ctrlHostValue)

/-- The device's execution of the word at the head of the format FIFO, already removed: one of the six forms runs its
instruction, any other word is performed by its flags (R96, R216). -/
def executeWord (w : FmtWord) (s : State) : Res :=
  match decodeFormat w with
  | .ok i => exec i s
  | .error _ => .next (performWord w s)

/-- `DEV_EXEC`: in host mode, with a word queued, the head is removed and performed in one atomic step; otherwise the device
has no such step and nothing happens (R203, R213). -/
def deviceExecStep (s : State) : Res :=
  if hostMode s then
    match s.dev.fmtq with
    | [] => .next s
    | w :: rest => executeWord w { s with dev.fmtq := rest }
  else .next s

/-- `DEV_FLAG`: every bit of `INTR_STATE` but `Nak` takes the given value (R210, R211). -/
def deviceFlagStep (value : Word) (s : State) : State :=
  storeReg .intrState
    (withDraw (flagBit s.cfg.flags.nak) s.dev.regs.intrState value) s

/-- The device changes the content of a register that the block never accesses (R37, log entry 11). -/
def deviceWordStep (r : RegName) (value : Word) (s : State) : State :=
  if r.unused then storeReg r value s else s

/-! ## Reset (R250 to R254) -/

/-- The register words after a reset event: each a draw taken once (R252). -/
def drawnRegs (n : Nat) : RegFile where
  intrState := Config.freeReset n 0
  intrEnable := Config.freeReset n 1
  intrTest := Config.freeReset n 2
  alertTest := Config.freeReset n 3
  ctrl := Config.freeReset n 4
  fifoCtrl := Config.freeReset n 8
  hostFifoConfig := Config.freeReset n 9
  targetFifoConfig := Config.freeReset n 10
  hostFifoStatus := Config.freeReset n 11
  targetFifoStatus := Config.freeReset n 12
  ovrd := Config.freeReset n 13
  val := Config.freeReset n 14
  timing0 := Config.freeReset n 15
  timing1 := Config.freeReset n 16
  timing2 := Config.freeReset n 17
  timing3 := Config.freeReset n 18
  timing4 := Config.freeReset n 19
  timeoutCtrl := Config.freeReset n 20
  targetId := Config.freeReset n 21
  acqdata := Config.freeReset n 22
  txdata := Config.freeReset n 23
  hostTimeoutCtrl := Config.freeReset n 24
  targetTimeoutCtrl := Config.freeReset n 25
  targetNackCount := Config.freeReset n 26
  targetAckCtrl := Config.freeReset n 27

/-- Reset from outside, of the sequencer and the device together: `pc = Idle`, no request in progress, registers and queues
drawn, the observation lists started anew. The caller's memory and its coming requests are not the block's (R43, R250). -/
def resetEvent (s : State) : State where
  cfg := s.cfg
  seq := .reset
  dev := { regs := drawnRegs s.env.tick
           fmtq := (Config.freeFmtq s.env.tick).take s.cfg.fmtDepth
           rxq := (Config.freeRxq s.env.tick).take s.cfg.rxDepth }
  view := .reset
  mem := s.mem
  port := s.port
  env := { s.env with tick := s.env.tick + 1 }
  log := .reset

/-! ## A turn -/

/-- The step of one agent, outside `Faulted` and reset. -/
def agentStep (t : Turn) (s : State) : Res :=
  match t with
  | .seq => sequencerStep s
  | .present => presentStep s
  | .devExec => deviceExecStep s
  | .devFlag value => .next (deviceFlagStep value s)
  | .devWord r value => .next (deviceWordStep r value s)
  | .reset => .next (resetEvent s)

/-- The step of a turn in `Faulted`: a presented request is not accepted, reset is the way out, and any other step stops
with the fault, for the spec gives no meaning to it (R12, R228, R233, R237). -/
def faultedStep (f : Fault) (t : Turn) (s : State) : Res :=
  match t with
  | .present => presentStep s
  | .reset => .next (resetEvent s)
  | .seq | .devExec | .devFlag _ | .devWord _ _ => .fault f

/-- The history grows by the values that the step started from (R36); reset starts it anew. -/
def recordStep (t : Turn) (s : State) (r : Res) : Res :=
  match r with
  | .next u => .next (if t = .reset then u else remember s u)
  | .fault f => .fault f
  | .refused q => .refused q

/-- One turn. -/
def turnStep (t : Turn) (s : State) : Res :=
  recordStep t s <|
    match s.seq.pc with
    | .faulted f => faultedStep f t s
    | _ => agentStep t s

/-- The turn that the interleaving gives, and the state without it; where the list has run out it is the sequencer's
(R215, log entry 3). -/
def nextTurn (s : State) : Turn × State :=
  match s.env.sched with
  | [] => (.seq, s)
  | t :: rest => (t, { s with env.sched := rest })

/-- The state in which the next turn fetches and runs the word `f`: a record is presented in an accepting state and the
turn is the sequencer's; a format word stands at the head of the format FIFO in host mode and the turn is the device's; the
operand of the internal primitive stands in `x7` at a poll micro-state (log entries 12 and 13). -/
def placeFetched (f : Fetched) (s : State) : State :=
  match f with
  | .request w =>
    { s with
      seq := { s.seq with pc := if s.seq.pc.accepting then s.seq.pc else .idle, cur := none }
      port := { record := w, buf := s.seq.buf } :: s.port
      env.sched := .seq :: s.env.sched }
  | .format w =>
    { s with
      seq.pc := match s.seq.pc with | .faulted _ => .idle | p => p
      dev := { regs := RegFile.set s.dev.regs .ctrl s.cfg.ctrlHostValue
               fmtq := (w :: s.dev.fmtq).take (max 1 s.cfg.fmtDepth)
               rxq := s.dev.rxq }
      env.sched := .devExec :: s.env.sched }
  | .internal w =>
    { s with
      seq := { s.seq with pc := .wDataPoll, cur := none, x1 := 1#32, x3 := 0#32, x7 := w }
      env.sched := .seq :: s.env.sched }

end Sys2Proof.Machine
end

