-- ==== Sys2Proof/Machine/Step.lean ====
section
/-!
DEFINITION. One step of the machine: the next turn of the interleaving of sequencer, device, caller and reset (R11, R200,
R271).
-/

namespace Sys2Proof.Machine

/-- One step. -/
def step (s : State) : Host.Outcome State Fault Refusal :=
  turnStep (nextTurn s).1 (nextTurn s).2

/-- `s` with the instruction of an opcode-table row's word placed where the next step fetches it. -/
def State.withFetchWord (s : State) (nbits w : Nat) : State :=
  match tableWord nbits w with
  | .ok f => placeFetched f s
  | .error _ => s

end Sys2Proof.Machine
end

