-- ==== Sys2Proof/WellFormed.lean ====
section
/-!
DEFINITION. Which instructions are well formed for an instance: a request that the block does not refuse for its operands
(R223, R227), a format word that the block itself emits (R96). The decoder does not ask: every record and every format
word that the encoding admits is decoded, and an ill-formed one has its meaning too (a refusal, or the device's execution
of a word that some other owner pushed).
-/

namespace Sys2Proof

/-- `sel` is the position of a flag of `FLAGS` (R103). -/
def FlagMap.isFlag (f : FlagMap) (sel : BitVec 5) : Bool := f.positions.contains sel

/-- `sel` is the index of a described `STATUS` bit (R103). -/
def isStatusIndex (sel : BitVec 5) : Bool := decide (sel.toNat ≤ 10)

/-- The operand checks of the requests and the ranges of the emitted format words. -/
def Instr.wf (c : Params) : Instr → Bool
  | .resetFifos => true
  | .setHostMode => true
  | .setSpeed khz => decide (khz ≠ 0)
  | .write _ _ _ => true
  | .read _ _ => true
  | .interruptAsserted sel => c.flags.isFlag sel
  | .clearInterrupt sel => c.flags.isFlag sel
  | .enableInterrupt sel => c.flags.isFlag sel
  | .disableInterrupt sel => c.flags.isFlag sel
  | .setHostThresholds _ _ => true
  | .statusTest sel => isStatusIndex sel
  | .unassigned11 => false
  | .unassigned12 => false
  | .unassigned13 => false
  | .unassigned14 => false
  | .unassigned15 => false
  | .addrW _ => true
  | .addrR _ => true
  | .data _ => true
  | .dataStop _ => true
  | .rdlen n => decide (n = 255)
  | .rdlenStop n => decide (n ≠ 0)
  | .blockingPush _ => true

end Sys2Proof
end

