-- ==== Sys2Proof/Safety.lean ====
section
/-!
DEFINITION. What a safe run is, in the terms that claims use: the invariant that every step keeps, the words that the block
may emit, steps of one operation with nobody else moving in between, and how far a `write` or a `read` in progress has come.
-/

namespace Sys2Proof.Machine

/-! ## Words -/

/-- A format word that the block may emit: one of the six forms, a length of 255 in `RDLEN` and never 0 (R95, R96, R97). -/
def emitted (c : Params) (w : FmtWord) : Bool :=
  match decodeFormat w with
  | .ok i => i.wf c
  | .error _ => false

/-- The micro-states in which a word is about to be pushed (R142). -/
def Pc.pushing : Pc → Bool
  | .wStartPush | .wDataPush | .rStartPush | .rLenPush => true
  | _ => false

/-! ## The invariant -/

/-- The state of a `write` in progress, past its acceptance (R146). -/
structure WriteState (q : Sequencer) : Prop where
  operands : q.cur = some (.write q.x0 q.x2 q.x1)
  nonzero : q.x1 ≠ 0#32

/-- The state of a `read` in progress: `IDX + REM = LEN`, and something remains (R148, R154). -/
structure ReadState (q : Sequencer) : Prop where
  operands : q.cur = some (.read q.x0 q.x1)
  counters : q.x3.toNat + q.x4.toNat = q.x1.toNat
  remains : q.x4 ≠ 0#32

/-- The current chunk of a `read` (R150). -/
structure ChunkState (q : Sequencer) : Prop extends ReadState q where
  chunk : q.x5 = chunkSize q.x4
  last : q.x6 = chunkIsLast q.x4

/-- What the latched operation and the working registers are at each `pc` (R40, R41, R146, R154, R179, R129). -/
def operationState (c : Params) (q : Sequencer) : Prop :=
  match q.pc with
  | .idle | .complete | .nakAborted | .faulted _ => q.cur = none
  | .wStartPoll | .wStartPush => WriteState q ∧ q.x7 = addressWord q.x0 false
  | .wDataPoll | .wDataPush => WriteState q ∧ q.x3.toNat < q.x1.toNat
  | .rStartPoll | .rStartPush => ReadState q ∧ q.x7 = addressWord q.x0 true
  | .rAddrWait | .rNakTest | .rNakClearRd | .rNakClearWr => ReadState q
  | .rLenPoll | .rLenPush => ChunkState q ∧ q.x7 = readLengthWord q.x6 q.x5
  | .rDataWait => ChunkState q
  | .rDrain => ChunkState q ∧ q.x8.toNat < q.x5.toNat
  | .accRd =>
    (∃ sel, validFlag c sel = true ∧
      (q.cur = some (.interruptAsserted sel) ∨ q.cur = some (.clearInterrupt sel) ∨
       q.cur = some (.enableInterrupt sel) ∨ q.cur = some (.disableInterrupt sel))) ∨
    (∃ sel, validStatusIndex sel = true ∧ q.cur = some (.statusTest sel))
  | .accWr =>
    ∃ sel, validFlag c sel = true ∧
      (q.cur = some (.clearInterrupt sel) ∨ q.cur = some (.enableInterrupt sel) ∨
       q.cur = some (.disableInterrupt sel))
  | .cfWr =>
    q.cur = some .resetFifos ∨ q.cur = some .setHostMode ∨
    ∃ fmt rx, q.cur = some (.setHostThresholds fmt rx)
  | .tsCalc => ∃ khz, q.cur = some (.setSpeed khz) ∧ khz ≠ 0#32 ∧ noPeriod c = false
  | .tsWr _ =>
    ∃ khz, q.cur = some (.setSpeed khz) ∧ khz ≠ 0#32 ∧ noPeriod c = false ∧
      clampOverflows (rawCounts c (busMode khz)) = false ∧
      q.x11 = busMode khz ∧ q.tp = clampCounts (rawCounts c (busMode khz))

/-- The invariant of the machine. -/
structure State.Inv (s : State) : Prop where
  /-- The parameters satisfy R7. -/
  params : s.cfg.wf = true
  /-- The caller's memory is in canonical form. -/
  memory : Memory.wf s.mem = true
  /-- No more words than `FMT_DEPTH` (R34). -/
  fmtqFits : s.dev.fmtq.length ≤ s.cfg.fmtDepth
  /-- No more bytes than `RX_DEPTH` (R35). -/
  rxqFits : s.dev.rxq.length ≤ s.cfg.rxDepth
  /-- `vis` points into the history or at the current value (R36). -/
  visible : s.view.vis ≤ s.view.hist.length
  /-- The operation in progress. -/
  operation : operationState s.cfg s.seq
  /-- Under `exact`, a poll has seen room for the word about to be pushed (R142). -/
  room : s.cfg.visibility = .exact → s.seq.pc.pushing = true → s.dev.fmtq.length < s.cfg.fmtDepth
  /-- Every word ever pushed is one that the block may emit (R96, R97, R163). -/
  pushes : ∀ w ∈ s.log.pushes, emitted s.cfg w = true

/-! ## Runs -/

/-- `n` steps of the operation `i` with nobody else moving in between. -/
def execTimes (i : Instr) : Nat → State → Res
  | 0, s => .next s
  | n + 1, s =>
    match exec i s with
    | .next t => execTimes i n t
    | .fault f => .fault f
    | .refused r => .refused r

/-! ## What `write` pushes (R143, R144) -/

/-- The data words of a `write`: `STOP` on the last one only, and only when not `skip`. -/
def dataWords (skip : Bool) : List Byte → List FmtWord
  | [] => []
  | [d] => [dataWord (!skip) d]
  | d :: e :: rest => dataWord false d :: dataWords skip (e :: rest)

/-- All words of a `write` of the given bytes, in order. -/
def writeWords (addr7 : BitVec 7) (skip : Bool) (bytes : List Byte) : List FmtWord :=
  addressWord addr7 false :: dataWords skip bytes

/-- The first `n` bytes of a buffer. -/
def bufferBytes (m : Memory) (buf : BufRef) (n : Nat) : List Byte :=
  (List.range n).map (fun k => Memory.read m (buf.base + k))

/-- A `write` of `bytes` in progress, of which some words have been pushed after `before`. -/
structure WriteProgress (addr7 : BitVec 7) (skip : Bool) (bytes : List Byte) (before : List FmtWord) (s : State) :
    Prop where
  operands : s.seq.cur = some (.write addr7 skip s.seq.x1) ∧ s.seq.x0 = addr7 ∧ s.seq.x2 = skip
  length : s.seq.x1.toNat = bytes.length
  fits : bytes.length ≤ s.seq.buf.size
  content : bufferBytes s.mem s.seq.buf bytes.length = bytes
  pushed :
    match s.seq.pc with
    | .wStartPoll | .wStartPush => s.seq.x7 = addressWord addr7 false ∧ s.log.pushes = before
    | .wDataPoll | .wDataPush =>
      s.seq.x3.toNat < bytes.length ∧
        s.log.pushes = before ++ (writeWords addr7 skip bytes).take (s.seq.x3.toNat + 1)
    | _ => False

/-! ## What `read` pushes and stores (R150, R151, R155, R158) -/

/-- The words of `n` chunks that are not the last: an address word and a length word of 255 each. -/
def fullChunks (addr7 : BitVec 7) : Nat → List FmtWord
  | 0 => []
  | n + 1 => addressWord addr7 true :: readLengthWord false 255#8 :: fullChunks addr7 n

/-- The words of a whole `read` of `len` bytes: full chunks, then the last one, of 1 to 255 bytes. -/
def readWords (addr7 : BitVec 7) (len : Nat) : List FmtWord :=
  fullChunks addr7 ((len - 1) / 255) ++
    [addressWord addr7 true, readLengthWord true (BitVec.ofNat 8 ((len - 1) % 255 + 1))]

/-- A `read` in progress, with `before` the words pushed and `m` the caller's memory when it was accepted: the words pushed
since then, and nothing of the memory changed but the part of the buffer that has been drained. -/
structure ReadProgress (addr7 : BitVec 7) (len : Word) (before : List FmtWord) (m : Memory) (s : State) : Prop where
  state : operationState s.cfg s.seq ∧ s.seq.cur = some (.read addr7 len)
  whole : s.seq.x3.toNat % 255 = 0
  canonical : Memory.wf s.mem = true
  pushed :
    match s.seq.pc with
    | .rStartPoll | .rStartPush => s.log.pushes = before ++ fullChunks addr7 (s.seq.x3.toNat / 255)
    | .rAddrWait | .rNakTest | .rNakClearRd | .rNakClearWr | .rLenPoll | .rLenPush =>
      s.log.pushes = before ++ fullChunks addr7 (s.seq.x3.toNat / 255) ++ [addressWord addr7 true]
    | .rDataWait | .rDrain =>
      s.log.pushes = before ++ fullChunks addr7 (s.seq.x3.toNat / 255) ++
        [addressWord addr7 true, readLengthWord s.seq.x6 s.seq.x5]
    | _ => False
  stored : ∀ a, ¬ (s.seq.buf.base ≤ a ∧
      a < s.seq.buf.base + s.seq.x3.toNat + (if s.seq.pc = .rDrain then s.seq.x8.toNat else 0)) →
    Memory.read s.mem a = Memory.read m a

/-! ## Working registers (R39, R254) -/

/-- The two sequencers agree on everything that the operation in progress has yet to read: they may differ in the working
registers that it writes first, or never reads, from this `pc` on. The result `x9` is presented to the caller and is kept. -/
def Sequencer.sameLive (q r : Sequencer) : Prop :=
  (q.pc = r.pc ∧ q.cur = r.cur ∧ q.buf = r.buf ∧ q.x9 = r.x9) ∧
  match q.pc with
  | .idle | .complete | .nakAborted | .faulted _ => True
  | .wStartPoll | .wStartPush => q.x1 = r.x1 ∧ q.x2 = r.x2 ∧ q.x7 = r.x7
  | .wDataPoll | .wDataPush => q.x1 = r.x1 ∧ q.x2 = r.x2 ∧ q.x3 = r.x3
  | .rStartPoll | .rStartPush => q.x0 = r.x0 ∧ q.x3 = r.x3 ∧ q.x4 = r.x4 ∧ q.x7 = r.x7
  | .rAddrWait | .rNakTest => q.x0 = r.x0 ∧ q.x3 = r.x3 ∧ q.x4 = r.x4
  | .rNakClearRd => True
  | .rNakClearWr => q.x10 = r.x10
  | .rLenPoll | .rLenPush =>
    q.x0 = r.x0 ∧ q.x3 = r.x3 ∧ q.x4 = r.x4 ∧ q.x5 = r.x5 ∧ q.x6 = r.x6 ∧ q.x7 = r.x7
  | .rDataWait => q.x0 = r.x0 ∧ q.x3 = r.x3 ∧ q.x4 = r.x4 ∧ q.x5 = r.x5 ∧ q.x6 = r.x6
  | .rDrain => q.x0 = r.x0 ∧ q.x3 = r.x3 ∧ q.x4 = r.x4 ∧ q.x5 = r.x5 ∧ q.x6 = r.x6 ∧ q.x8 = r.x8
  | .accRd => True
  | .accWr => q.x10 = r.x10
  | .cfWr => True
  | .tsCalc => True
  | .tsWr _ => q.tp = r.tp

/-! ## What an instruction writes (R79) -/

/-- The registers that an instruction may write, and the flags registers that the device may change in executing it. -/
def writtenRegs : Instr → List RegName
  | .resetFifos => [.fifoCtrl]
  | .setHostMode => [.ctrl]
  | .setSpeed _ => [.timing0, .timing1, .timing2, .timing3, .timing4]
  | .write _ _ _ => []
  | .read _ _ => [.intrState]
  | .interruptAsserted _ => []
  | .clearInterrupt _ => [.intrState]
  | .enableInterrupt _ => [.intrEnable]
  | .disableInterrupt _ => [.intrEnable]
  | .setHostThresholds _ _ => [.hostFifoConfig]
  | .statusTest _ => []
  | .unassigned11 => []
  | .unassigned12 => []
  | .unassigned13 => []
  | .unassigned14 => []
  | .unassigned15 => []
  | .addrW _ => [.intrState]
  | .addrR _ => [.intrState]
  | .data _ => [.intrState]
  | .dataStop _ => [.intrState]
  | .rdlen _ => [.intrState]
  | .rdlenStop _ => [.intrState]
  | .blockingPush _ => []

end Sys2Proof.Machine
end

