-- ==== Sys2Proof/Certificates/Slice0/Obligations.lean ====
section
/-!
DEFINITION. The statements about the model, one per obligation of OBLIGATIONS.json. Each docstring names the rule of spec/
that the statement formalises; where a clause rests on a choice of the model it names the log entry. `completed`,
`completedWith`, `nakAborted`, `faulted` and `withPc` (Machine/Ops.lean) are the named endings of a step: the new `pc`, the
request that has ended, its result bit in `x9` where it has one, its outcome appended to the observation list (log entry 17),
and nothing else.
-/

open Sys2Proof Sys2Proof.Machine

/-! ## Encodings -/

/-- Words written out from the encodings of R96 and R100 (opcode table, 95_test_vectors.md) decode to what they stand for. -/
def Obligations.SpecWordsDecode : Prop :=
  decodeTableWord 88 0x000000000000000000000 = some .resetFifos ∧
  decodeTableWord 88 0x020000000000000000000 = some .setHostMode ∧
  decodeTableWord 88 0x040000000006400000000 = some (.setSpeed 100#32) ∧
  decodeTableWord 88 0x074200000000100000000 = some (.write 0x50#7 true 1#32) ∧
  decodeTableWord 88 0x094000000000200000000 = some (.read 0x50#7 2#32) ∧
  decodeTableWord 88 0x0A0070000000000000000 = some (.interruptAsserted 7#5) ∧
  decodeTableWord 88 0x0C0040000000000000000 = some (.clearInterrupt 4#5) ∧
  decodeTableWord 88 0x0E0090000000000000000 = some (.enableInterrupt 9#5) ∧
  decodeTableWord 88 0x100090000000000000000 = some (.disableInterrupt 9#5) ∧
  decodeTableWord 88 0x140020000000000000000 = some (.statusTest 2#5) ∧
  decodeTableWord 16 0x0190 = some (.addrW 0x48#7) ∧
  decodeTableWord 16 0x01A3 = some (.addrR 0x51#7) ∧
  decodeTableWord 16 0x00FF = some (.data 0xFF#8) ∧
  decodeTableWord 16 0x02AB = some (.dataStop 0xAB#8) ∧
  decodeTableWord 16 0x04FF = some (.rdlen 255#8) ∧
  decodeTableWord 16 0x062D = some (.rdlenStop 45#8)

/-- The table of R100 over the packing of R101: every record decodes by its select code, from the fields that the operation
uses and from no other bit. -/
def Obligations.RequestSelectCodes : Prop :=
  ∀ w : BitVec 81,
    (w.extractLsb' 77 4 = 0#4 → decodeRequest w = .resetFifos) ∧
    (w.extractLsb' 77 4 = 1#4 → decodeRequest w = .setHostMode) ∧
    (w.extractLsb' 77 4 = 2#4 → decodeRequest w = .setSpeed (w.extractLsb' 32 32)) ∧
    (w.extractLsb' 77 4 = 3#4 →
      decodeRequest w = .write (w.extractLsb' 70 7) (w.getLsbD 69) (w.extractLsb' 32 32)) ∧
    (w.extractLsb' 77 4 = 4#4 → decodeRequest w = .read (w.extractLsb' 70 7) (w.extractLsb' 32 32)) ∧
    (w.extractLsb' 77 4 = 5#4 → decodeRequest w = .interruptAsserted (w.extractLsb' 64 5)) ∧
    (w.extractLsb' 77 4 = 6#4 → decodeRequest w = .clearInterrupt (w.extractLsb' 64 5)) ∧
    (w.extractLsb' 77 4 = 7#4 → decodeRequest w = .enableInterrupt (w.extractLsb' 64 5)) ∧
    (w.extractLsb' 77 4 = 8#4 → decodeRequest w = .disableInterrupt (w.extractLsb' 64 5)) ∧
    (w.extractLsb' 77 4 = 9#4 →
      decodeRequest w = .setHostThresholds (w.extractLsb' 32 32) (w.extractLsb' 0 32)) ∧
    (w.extractLsb' 77 4 = 10#4 → decodeRequest w = .statusTest (w.extractLsb' 64 5)) ∧
    (w.extractLsb' 77 4 = 11#4 → decodeRequest w = .unassigned11) ∧
    (w.extractLsb' 77 4 = 12#4 → decodeRequest w = .unassigned12) ∧
    (w.extractLsb' 77 4 = 13#4 → decodeRequest w = .unassigned13) ∧
    (w.extractLsb' 77 4 = 14#4 → decodeRequest w = .unassigned14) ∧
    (w.extractLsb' 77 4 = 15#4 → decodeRequest w = .unassigned15)

/-- Decoding what was encoded gives the instruction back, for every instruction and every value of its operands. -/
def Obligations.DecodeEncodeAgree : Prop := ∀ i : Instr, decode (encode i) = .ok i

/-- A format word decodes to an instruction exactly when it is that instruction's encoding: no word has two readings and no
word outside the six forms of R96 has one. -/
def Obligations.FormatDecodingExact : Prop :=
  ∀ (w : FmtWord) (i : Instr), decodeFormat w = .ok i ↔ encode i = .format w

/-- R93, R94, R95: the fields of the address, data and read-length words at the bit positions of R92. -/
def Obligations.FormatWordLayout : Prop :=
  (∀ (a : BitVec 7) (rw : Bool),
    (addressWord a rw).extractLsb' 0 8 = a ++ BitVec.ofBool rw ∧
    (addressWord a rw).extractLsb' 8 5 = 0b00001#5 ∧
    0x0100 ≤ (addressWord a rw).toNat ∧ (addressWord a rw).toNat ≤ 0x01FF) ∧
  (∀ (stop : Bool) (d : Byte),
    (dataWord stop d).extractLsb' 0 8 = d ∧
    (dataWord stop d).extractLsb' 8 5 = if stop then 0b00010#5 else 0b00000#5) ∧
  (∀ (last : Bool) (n : Byte),
    (readLengthWord last n).extractLsb' 0 8 = n ∧
    (readLengthWord last n).extractLsb' 8 5 = if last then 0b00110#5 else 0b00100#5)

/-! ## The Timing Calculator -/

/-- R10: the round-up divide is the least `q` with `q * b >= a`. -/
def Obligations.RoundUpDivideIsLeast : Prop :=
  ∀ a b : Nat, 1 ≤ b →
    a ≤ ceilDiv a b * b ∧ (∀ q, a ≤ q * b → ceilDiv a b ≤ q) ∧ ceilDiv a b = (a + b - 1) / b ∧ ceilDiv 0 b = 0

/-- R122: the bands of the bus mode, that `TS_CALC` writes it to `x11`, and that two speeds of one band leave the same device
behind them. -/
def Obligations.BusModeBands : Prop :=
  (∀ khz : Word,
    (khz.toNat ≤ 100 → busMode khz = 0#2) ∧
    (101 ≤ khz.toNat → khz.toNat ≤ 400 → busMode khz = 1#2) ∧
    (401 ≤ khz.toNat → busMode khz = 2#2)) ∧
  (∀ (khz : Word) (s t : State), s.seq.pc = .tsCalc → s.seq.cur = some (.setSpeed khz) → noPeriod s.cfg = false →
    exec (.setSpeed khz) s = .next t → t.seq.x11 = busMode khz) ∧
  ∀ (k1 k2 : Word) (s t1 t2 : State), s.seq.pc.accepting = true → busMode k1 = busMode k2 →
    execTimes (.setSpeed k1) 7 s = .next t1 → execTimes (.setSpeed k2) 7 s = .next t2 → t1.dev = t2.dev

/-- R121: the frequency is rounded up to a whole kHz and the period down to a whole ns, so the period is underestimated;
there is none exactly for `CLK_HZ = 0` and above 1 GHz. -/
def Obligations.PeriodIsUnderestimated : Prop :=
  ∀ c : Params,
    c.clkHz ≤ 1000 * clkKhz c ∧ 1000 * clkKhz c < c.clkHz + 1000 ∧
    (0 < clkKhz c → periodNs c * clkKhz c ≤ 1000000 ∧ 1000000 < (periodNs c + 1) * clkKhz c) ∧
    periodNs c * c.clkHz ≤ 1000000000 ∧
    (noPeriod c = true ↔ c.clkHz = 0 ∨ 1000000000 < c.clkHz)

/-- R123, R124: the count of each parameter is the exact quotient of its nanoseconds, cut to 16 bits; when it fits, it meets
the minimum and is the least that does; 0 ns gives 0. `tFall` and `tRise` are 12 ns and 120 ns in every mode. -/
def Obligations.CountsMeetTheirMinimum : Prop :=
  ∀ (c : Params) (mode : BitVec 2) (k : TpName), noPeriod c = false →
    nanoseconds c mode .tFall = 12 ∧ nanoseconds c mode .tRise = 120 ∧
    (TpFile.get (rawCounts c mode) k).toNat = ceilDiv (nanoseconds c mode k) (periodNs c) % 65536 ∧
    (nanoseconds c mode k = 0 → TpFile.get (rawCounts c mode) k = 0#16) ∧
    (ceilDiv (nanoseconds c mode k) (periodNs c) ≤ 65535 →
      nanoseconds c mode k ≤ (TpFile.get (rawCounts c mode) k).toNat * periodNs c ∧
      ∀ n : Nat, nanoseconds c mode k ≤ n * periodNs c → (TpFile.get (rawCounts c mode) k).toNat ≤ n)

/-- R125: the clamp raises `tLow` and `tBuf` to the least values above `thdDat` and `tsuSta`, and changes nothing else. -/
def Obligations.ClampIsLeast : Prop :=
  ∀ tp : TpFile, clampOverflows tp = false →
    (clampCounts tp).tLow.toNat = max tp.tLow.toNat (tp.thdDat.toNat + 1) ∧
    (clampCounts tp).tBuf.toNat = max tp.tBuf.toNat (tp.tsuSta.toNat + 1) ∧
    clampCounts tp = { tp with tLow := (clampCounts tp).tLow, tBuf := (clampCounts tp).tBuf }

/-- R129, with R126, R128, R222, R223, R224: every step of `set_speed`. (What `TimingOverflow` leaves in `x11` and `TP` is the
model's reading, log entry 20.) Accepting it refuses a speed of 0, then faults
without a period, then enters; `TS_CALC` computes the counts and faults before any register write if a clamp would not fit;
`TS_WR<j>` writes `TIMING<j>` and nothing else. -/
def Obligations.SetSpeedSteps : Prop :=
  ∀ (khz : Word) (s : State),
    (s.seq.pc.accepting = true →
      (khz = 0#32 → exec (.setSpeed khz) s = .refused .speedZero) ∧
      (khz ≠ 0#32 → noPeriod s.cfg = true → exec (.setSpeed khz) s = .next (faulted .zeroPeriod s)) ∧
      (khz ≠ 0#32 → noPeriod s.cfg = false →
        exec (.setSpeed khz) s =
          .next { s with seq := { s.seq with pc := .tsCalc, cur := some (.setSpeed khz) } })) ∧
    (s.seq.cur = some (.setSpeed khz) → noPeriod s.cfg = false →
      (s.seq.pc = .tsCalc → clampOverflows (rawCounts s.cfg (busMode khz)) = true →
        exec (.setSpeed khz) s =
          .next (faulted .timingOverflow
            { s with seq := { s.seq with x11 := busMode khz, tp := rawCounts s.cfg (busMode khz) } })) ∧
      (s.seq.pc = .tsCalc → clampOverflows (rawCounts s.cfg (busMode khz)) = false →
        exec (.setSpeed khz) s =
          .next { s with seq := { s.seq with
            pc := .tsWr 0, x11 := busMode khz, tp := clampCounts (rawCounts s.cfg (busMode khz)) } }) ∧
      (s.seq.pc = .tsWr 0 →
        exec (.setSpeed khz) s =
          .next { s with seq.pc := .tsWr 1, dev.regs.timing0 := timingWord s.cfg s.seq.tp 0 }) ∧
      (s.seq.pc = .tsWr 1 →
        exec (.setSpeed khz) s =
          .next { s with seq.pc := .tsWr 2, dev.regs.timing1 := timingWord s.cfg s.seq.tp 1 }) ∧
      (s.seq.pc = .tsWr 2 →
        exec (.setSpeed khz) s =
          .next { s with seq.pc := .tsWr 3, dev.regs.timing2 := timingWord s.cfg s.seq.tp 2 }) ∧
      (s.seq.pc = .tsWr 3 →
        exec (.setSpeed khz) s =
          .next { s with seq.pc := .tsWr 4, dev.regs.timing3 := timingWord s.cfg s.seq.tp 3 }) ∧
      (s.seq.pc = .tsWr 4 →
        exec (.setSpeed khz) s =
          .next (completed { s with dev.regs.timing4 := timingWord s.cfg s.seq.tp 4 })))

/-- R127, R134: a whole `set_speed`, seven steps from an accepting state, writes the five packed words and touches no other
register; what it writes depends on the speed only through the mode. -/
def Obligations.SetSpeedWritesTimings : Prop :=
  ∀ (khz : Word) (s : State), s.seq.pc.accepting = true → khz ≠ 0#32 → noPeriod s.cfg = false →
    clampOverflows (rawCounts s.cfg (busMode khz)) = false →
    let tp := clampCounts (rawCounts s.cfg (busMode khz))
    let word := fun j => ((TpFile.get tp (packPair s.cfg.pack j).hi).setWidth 32 <<< 16) |||
      (TpFile.get tp (packPair s.cfg.pack j).lo).setWidth 32
    execTimes (.setSpeed khz) 7 s =
      .next (completed { s with
        seq := { s.seq with x11 := busMode khz, tp := tp }
        dev.regs := { s.dev.regs with
          timing0 := word 0, timing1 := word 1, timing2 := word 2, timing3 := word 3, timing4 := word 4 } })

/-- R131, R132: after a `set_speed` with the pairing of R127, the unpacked halves meet or exceed the minimum in cycles of
their quantity when every quotient fits in 16 bits, with equality but for a clamped `tLow` or `tBuf`; and `tLow > thdDat` and
`tBuf > tsuSta` whether or not they fit. -/
def Obligations.TimingsMeetOrExceed : Prop :=
  ∀ (khz : Word) (s t : State), s.seq.pc.accepting = true → s.cfg.pack = .d11 → khz ≠ 0#32 →
    noPeriod s.cfg = false → clampOverflows (rawCounts s.cfg (busMode khz)) = false →
    execTimes (.setSpeed khz) 7 s = .next t →
    let r := t.dev.regs
    let q := fun k => cycles s.cfg (busMode khz) k
    (r.timing3.extractLsb' 16 16).toNat < (r.timing0.extractLsb' 0 16).toNat ∧
    (r.timing2.extractLsb' 0 16).toNat < (r.timing4.extractLsb' 16 16).toNat ∧
    ((∀ k, q k ≤ 65535) →
      (r.timing0.extractLsb' 16 16).toNat = q .tHigh ∧ q .tLow ≤ (r.timing0.extractLsb' 0 16).toNat ∧
      (r.timing1.extractLsb' 16 16).toNat = q .tFall ∧ (r.timing1.extractLsb' 0 16).toNat = q .tRise ∧
      (r.timing2.extractLsb' 16 16).toNat = q .thdSta ∧ (r.timing2.extractLsb' 0 16).toNat = q .tsuSta ∧
      (r.timing3.extractLsb' 16 16).toNat = q .thdDat ∧ (r.timing3.extractLsb' 0 16).toNat = q .tsuDat ∧
      q .tBuf ≤ (r.timing4.extractLsb' 16 16).toNat ∧ (r.timing4.extractLsb' 0 16).toNat = q .tsuSto)

/-! ## Configuration operations -/

/-- R190: `reset_fifos` writes `FIFO_RESET_VALUE` to `FIFO_CTRL`, which empties both queues; nothing else changes, so a `Nak`
already asserted stays. -/
def Obligations.ResetFifosEmptiesQueues : Prop :=
  ∀ s : State,
    (s.seq.pc.accepting = true →
      exec .resetFifos s = .next { s with seq := { s.seq with pc := .cfWr, cur := some .resetFifos } }) ∧
    (s.seq.pc = .cfWr → s.seq.cur = some .resetFifos →
      exec .resetFifos s =
        .next (completed { s with
          dev := { regs := { s.dev.regs with fifoCtrl := s.cfg.fifoResetValue }, fmtq := [], rxq := [] } }))

/-- R191: `set_host_mode` writes the whole word `CTRL_HOST_VALUE` to `CTRL`; the device is then in host mode. -/
def Obligations.SetHostModeStoresControl : Prop :=
  ∀ s : State,
    (s.seq.pc.accepting = true →
      exec .setHostMode s = .next { s with seq := { s.seq with pc := .cfWr, cur := some .setHostMode } }) ∧
    (s.seq.pc = .cfWr → s.seq.cur = some .setHostMode →
      exec .setHostMode s = .next (completed { s with dev.regs.ctrl := s.cfg.ctrlHostValue }) ∧
      hostMode (completed { s with dev.regs.ctrl := s.cfg.ctrlHostValue }) = true)

/-- R192: `set_host_thresholds` writes `HOST_FIFO_CONFIG` with both masked thresholds. -/
def Obligations.SetHostThresholdsStoresConfig : Prop :=
  ∀ (fmt rx : Word) (s : State),
    (s.seq.pc.accepting = true →
      exec (.setHostThresholds fmt rx) s =
        .next { s with seq := { s.seq with pc := .cfWr, cur := some (.setHostThresholds fmt rx) } }) ∧
    (s.seq.pc = .cfWr → s.seq.cur = some (.setHostThresholds fmt rx) →
      let w := ((fmt &&& 0xFFF#32) <<< s.cfg.fmtThreshShift) ||| ((rx &&& 0xFFF#32) <<< s.cfg.rxThreshShift)
      exec (.setHostThresholds fmt rx) s =
        .next (completed { s with seq.x10 := w, dev.regs.hostFifoConfig := w }))

/-- R105: in the word that `set_host_thresholds` builds the two 12-bit fields do not disturb each other and every other bit is
zero, for the shifts that R7 and R192 allow. -/
def Obligations.ThresholdFieldsSeparate : Prop :=
  ∀ (c : Params) (fmt rx : Word), c.wf = true →
    (thresholdWord c fmt rx).extractLsb' c.fmtThreshShift 12 = fmt.extractLsb' 0 12 ∧
    (thresholdWord c fmt rx).extractLsb' c.rxThreshShift 12 = rx.extractLsb' 0 12 ∧
    ∀ k : Nat, ¬ (c.fmtThreshShift ≤ k ∧ k < c.fmtThreshShift + 12) →
      ¬ (c.rxThreshShift ≤ k ∧ k < c.rxThreshShift + 12) → (thresholdWord c fmt rx).getLsbD k = false

/-- R195: each configuration operation, requested twice in a row, leaves what it leaves once. -/
def Obligations.ConfigurationIsIdempotent : Prop :=
  ∀ (i : Instr) (s : State), s.seq.pc.accepting = true →
    (i = .resetFifos ∨ i = .setHostMode ∨ ∃ fmt rx, i = .setHostThresholds fmt rx) →
    ∃ t u, execTimes i 2 s = .next t ∧ t.seq.pc = .complete ∧ execTimes i 2 t = .next u ∧ u.seq.pc = .complete ∧
      u.dev = t.dev

/-! ## The accessor -/

/-- R171: `interrupt_asserted` reads `INTR_STATE` into `x10` and puts the flag's bit of the value read in `x9`; no register
is written and `INTR_ENABLE` is not consulted. -/
def Obligations.InterruptAssertedTestsState : Prop :=
  ∀ (sel : BitVec 5) (s : State),
    (s.seq.pc.accepting = true → validFlag s.cfg sel = true →
      exec (.interruptAsserted sel) s =
        .next { s with seq := { s.seq with pc := .accRd, cur := some (.interruptAsserted sel) } }) ∧
    (s.seq.pc.accepting = true → validFlag s.cfg sel = false →
      exec (.interruptAsserted sel) s = .refused .badRequest) ∧
    (s.seq.pc = .accRd → s.seq.cur = some (.interruptAsserted sel) →
      ∃ t, memReadReg 0x00 4 s = .next t ∧ t.dev = s.dev ∧
        exec (.interruptAsserted sel) s =
          .next (completedWith (decide (t.seq.x10 &&& (1#32 <<< sel.toNat) ≠ 0#32)) t))

/-- R172, R179: `clear_interrupt` reads `INTR_STATE` into `x10`, then writes that value back with the flag's bit cleared,
whole word, whatever the register holds by then. -/
def Obligations.ClearInterruptClearsFlag : Prop :=
  ∀ (sel : BitVec 5) (s : State),
    (s.seq.pc.accepting = true → validFlag s.cfg sel = true →
      exec (.clearInterrupt sel) s =
        .next { s with seq := { s.seq with pc := .accRd, cur := some (.clearInterrupt sel) } }) ∧
    (s.seq.pc.accepting = true → validFlag s.cfg sel = false →
      exec (.clearInterrupt sel) s = .refused .badRequest) ∧
    (s.seq.pc = .accRd → s.seq.cur = some (.clearInterrupt sel) →
      ∃ t, memReadReg 0x00 4 s = .next t ∧ t.dev = s.dev ∧
        exec (.clearInterrupt sel) s = .next { t with seq.pc := .accWr }) ∧
    (s.seq.pc = .accWr → s.seq.cur = some (.clearInterrupt sel) →
      exec (.clearInterrupt sel) s =
        .next (completed { s with dev.regs.intrState := s.seq.x10 &&& ~~~(1#32 <<< sel.toNat) }))

/-- R173, R179: `enable_interrupt` reads `INTR_ENABLE` into `x10`, then writes it back with the flag's bit set. -/
def Obligations.EnableInterruptSetsFlag : Prop :=
  ∀ (sel : BitVec 5) (s : State),
    (s.seq.pc.accepting = true → validFlag s.cfg sel = true →
      exec (.enableInterrupt sel) s =
        .next { s with seq := { s.seq with pc := .accRd, cur := some (.enableInterrupt sel) } }) ∧
    (s.seq.pc.accepting = true → validFlag s.cfg sel = false →
      exec (.enableInterrupt sel) s = .refused .badRequest) ∧
    (s.seq.pc = .accRd → s.seq.cur = some (.enableInterrupt sel) →
      ∃ t, memReadReg 0x04 4 s = .next t ∧ t.dev = s.dev ∧
        exec (.enableInterrupt sel) s = .next { t with seq.pc := .accWr }) ∧
    (s.seq.pc = .accWr → s.seq.cur = some (.enableInterrupt sel) →
      exec (.enableInterrupt sel) s =
        .next (completed { s with dev.regs.intrEnable := s.seq.x10 ||| (1#32 <<< sel.toNat) }))

/-- R174, R179: `disable_interrupt` reads `INTR_ENABLE` into `x10`, then writes it back with the flag's bit cleared. -/
def Obligations.DisableInterruptClearsFlag : Prop :=
  ∀ (sel : BitVec 5) (s : State),
    (s.seq.pc.accepting = true → validFlag s.cfg sel = true →
      exec (.disableInterrupt sel) s =
        .next { s with seq := { s.seq with pc := .accRd, cur := some (.disableInterrupt sel) } }) ∧
    (s.seq.pc.accepting = true → validFlag s.cfg sel = false →
      exec (.disableInterrupt sel) s = .refused .badRequest) ∧
    (s.seq.pc = .accRd → s.seq.cur = some (.disableInterrupt sel) →
      ∃ t, memReadReg 0x04 4 s = .next t ∧ t.dev = s.dev ∧
        exec (.disableInterrupt sel) s = .next { t with seq.pc := .accWr }) ∧
    (s.seq.pc = .accWr → s.seq.cur = some (.disableInterrupt sel) →
      exec (.disableInterrupt sel) s =
        .next (completed { s with dev.regs.intrEnable := s.seq.x10 &&& ~~~(1#32 <<< sel.toNat) }))

/-- R175: `status_test` reads `STATUS` into `x10` and puts bit `i` of the value read in `x9`; no register is written. -/
def Obligations.StatusTestTestsBit : Prop :=
  ∀ (sel : BitVec 5) (s : State),
    (s.seq.pc.accepting = true → sel.toNat ≤ 10 →
      exec (.statusTest sel) s =
        .next { s with seq := { s.seq with pc := .accRd, cur := some (.statusTest sel) } }) ∧
    (s.seq.pc.accepting = true → 10 < sel.toNat → exec (.statusTest sel) s = .refused .badRequest) ∧
    (s.seq.pc = .accRd → s.seq.cur = some (.statusTest sel) →
      ∃ t, memReadReg 0x14 4 s = .next t ∧ t.dev = s.dev ∧
        exec (.statusTest sel) s = .next (completedWith (t.seq.x10.getLsbD sel.toNat) t))

/-- R172 to R174 as whole operations with no device step in between: `enable_interrupt` and `disable_interrupt` leave the
enables with the named bit set or cleared and all others unchanged; `clear_interrupt`, under exact visibility, clears the named
flag and leaves every other one. Every other register and both queues are unchanged. (Bits that belong to no flag are drawn at a
read of `INTR_STATE` and stay as stored in `INTR_ENABLE`: log entry 9.) -/
def Obligations.ModifyingChangesOneFlag : Prop :=
  ∀ (sel : BitVec 5) (s : State), s.seq.pc.accepting = true → validFlag s.cfg sel = true →
    (s.cfg.visibility = .exact →
      ∃ t, execTimes (.clearInterrupt sel) 3 s = .next t ∧ t.seq.pc = .complete ∧
        t.dev = { s.dev with regs.intrState := t.dev.regs.intrState } ∧
        ∀ p ∈ s.cfg.flags.positions,
          t.dev.regs.intrState.getLsbD p.toNat = (s.dev.regs.intrState.getLsbD p.toNat && decide (p ≠ sel))) ∧
    (∃ t, execTimes (.enableInterrupt sel) 3 s = .next t ∧ t.seq.pc = .complete ∧
      t.dev = { s.dev with regs.intrEnable := s.dev.regs.intrEnable ||| (1#32 <<< sel.toNat) } ∧
      ∀ k : Nat, k < 32 → t.dev.regs.intrEnable.getLsbD k = (s.dev.regs.intrEnable.getLsbD k || decide (k = sel.toNat))) ∧
    (∃ t, execTimes (.disableInterrupt sel) 3 s = .next t ∧ t.seq.pc = .complete ∧
      t.dev = { s.dev with regs.intrEnable := s.dev.regs.intrEnable &&& ~~~(1#32 <<< sel.toNat) } ∧
      ∀ k : Nat, k < 32 → t.dev.regs.intrEnable.getLsbD k = (s.dev.regs.intrEnable.getLsbD k && decide (k ≠ sel.toNat)))

/-- The table of R177, with no device step in between. `INTR_ENABLE`, every bit of it (log entry 9): each operation done twice leaves what it
leaves once; enabling then disabling a flag restores the register if and only if the flag was disabled, disabling then enabling
if and only if it was enabled. `INTR_STATE`, under exact visibility and on the bits that belong to flags (log entry 9): clearing
twice leaves what clearing once leaves, which is the register itself if the flag was clear. -/
def Obligations.EnableDisableRestores : Prop :=
  ∀ (sel : BitVec 5) (s : State), s.seq.pc.accepting = true → validFlag s.cfg sel = true →
    let e := s.dev.regs.intrEnable
    let on := e ||| (1#32 <<< sel.toNat)
    let off := e &&& ~~~(1#32 <<< sel.toNat)
    let twice := fun (i j : Instr) (e' : Word) =>
      ∃ t u, execTimes i 3 s = .next t ∧ execTimes j 3 t = .next u ∧ u.dev = { s.dev with regs.intrEnable := e' }
    twice (.enableInterrupt sel) (.enableInterrupt sel) on ∧
    twice (.disableInterrupt sel) (.disableInterrupt sel) off ∧
    twice (.enableInterrupt sel) (.disableInterrupt sel) off ∧ (off = e ↔ e.getLsbD sel.toNat = false) ∧
    twice (.disableInterrupt sel) (.enableInterrupt sel) on ∧ (on = e ↔ e.getLsbD sel.toNat = true) ∧
    (s.cfg.visibility = .exact →
      ∃ t u, execTimes (.clearInterrupt sel) 3 s = .next t ∧ execTimes (.clearInterrupt sel) 3 t = .next u ∧
        u.dev = { s.dev with regs.intrState := u.dev.regs.intrState } ∧
        (∀ p ∈ s.cfg.flags.positions,
          u.dev.regs.intrState.getLsbD p.toNat = t.dev.regs.intrState.getLsbD p.toNat) ∧
        (s.dev.regs.intrState.getLsbD sel.toNat = false → ∀ p ∈ s.cfg.flags.positions,
          t.dev.regs.intrState.getLsbD p.toNat = s.dev.regs.intrState.getLsbD p.toNat))

/-! ## Requests that are refused (R227, R228) -/

/-- R227: a select code of 11 to 15, a flag operation whose `sel` is no flag's position and a `status_test` above 10 are
refused. -/
def Obligations.BadRequestsAreRefused : Prop :=
  ∀ (sel : BitVec 5) (s : State), s.seq.pc.accepting = true →
    (exec .unassigned11 s = .refused .badRequest ∧ exec .unassigned12 s = .refused .badRequest ∧
      exec .unassigned13 s = .refused .badRequest ∧ exec .unassigned14 s = .refused .badRequest ∧
      exec .unassigned15 s = .refused .badRequest) ∧
    (sel ∉ s.cfg.flags.positions →
      exec (.interruptAsserted sel) s = .refused .badRequest ∧ exec (.clearInterrupt sel) s = .refused .badRequest ∧
      exec (.enableInterrupt sel) s = .refused .badRequest ∧ exec (.disableInterrupt sel) s = .refused .badRequest) ∧
    (10 < sel.toNat → exec (.statusTest sel) s = .refused .badRequest)

/-- R228: a request presented while `pc` is not terminal, or in `Faulted`, is not accepted, and the operation in progress stays
as it was. That the step drops the request (log entry 8), observes its outcome (log entry 17) and lets the history of values
grow under `monotone_stale` (log entry 16) are the model's choices. -/
def Obligations.BusyRequestsAreNotAccepted : Prop :=
  (∀ (w : ReqWord) (s : State), s.seq.pc.accepting = false → s.seq.cur ≠ some (decodeRequest w) →
    exec (decodeRequest w) s = .refused .busy) ∧
  ∀ (s : State) (q : Request) (rest : List Request) (turns : List Turn),
    s.seq.pc.accepting = false → s.port = q :: rest → s.env.sched = .present :: turns →
    ∃ h, step s = .next { s with
        port := rest, env.sched := turns, view.hist := h, log.outcomes := s.log.outcomes ++ [.refused .busy] }

/-- R223, R227: the step that takes a request which its operation refuses changes no state of the block: the request is gone
from the port and its outcome is observed. -/
def Obligations.RefusedRequestsChangeNothing : Prop :=
  ∀ (s : State) (q : Request) (rest : List Request) (r : Refusal),
    s.seq.pc.accepting = true → s.port = q :: rest →
    exec (decodeRequest q.record) { s with port := rest, seq.buf := q.buf } = .refused r →
    sequencerStep s = .next { s with port := rest, log.outcomes := s.log.outcomes ++ [.refused r] }

/-! ## The engine -/

/-- R142, with R202, R225: the two steps of `blocking_push` at each of its four pairs of micro-states. The poll step reads
`STATUS` into `x10` and stays while bit 0 is set; the push step appends the word and moves to the return point of R146 and
R154, or faults with the queue unchanged when it is full. Running the primitive by itself, its operand put into `x7`, is the
model's choice (log entry 12), and so are `x7` after the fault (log entry 20) and that `PUSHES` leaves its word out (log entry
27). -/
def Obligations.BlockingPushSteps : Prop :=
  ∀ (w : FmtWord) (s : State),
    (∀ stay next : Pc,
      ((stay = .wStartPoll ∧ next = .wStartPush) ∨ (stay = .wDataPoll ∧ next = .wDataPush) ∨
       (stay = .rStartPoll ∧ next = .rStartPush) ∨ (stay = .rLenPoll ∧ next = .rLenPush)) →
      s.seq.pc = stay →
      ∃ t, memReadReg 0x14 4 { s with seq.x7 := w } = .next t ∧ t.dev = s.dev ∧
        exec (.blockingPush w) s = .next { t with seq.pc := if t.seq.x10.getLsbD 0 then stay else next }) ∧
    (s.seq.pc.pushing = true → s.dev.fmtq.length < s.cfg.fmtDepth →
      ∃ t, exec (.blockingPush w) s = .next t ∧ t.dev = { s.dev with fmtq := s.dev.fmtq ++ [w] } ∧
        t.log.pushes = s.log.pushes ++ [w] ∧ t.seq.x7 = w ∧ t.mem = s.mem ∧
        t.seq.pc = if s.seq.pc = .wStartPush then .wDataPoll
          else if s.seq.pc = .wDataPush then (if s.seq.x3 = s.seq.x1 - 1#32 then .complete else .wDataPoll)
          else if s.seq.pc = .rStartPush then .rAddrWait else .rDataWait) ∧
    (s.seq.pc.pushing = true → ¬ s.dev.fmtq.length < s.cfg.fmtDepth →
      exec (.blockingPush w) s = .next (faulted .pushWhenFull { s with seq.x7 := w }))

/-- R146 (with R156, R225, R226): every step of `write`. (What the two faults leave in `x7` and `x3` is the model's reading, log
entry 20, and that `PUSHES` leaves out the word of a push that faults its choice, log entry 27.) -/
def Obligations.WriteSteps : Prop :=
  ∀ (a : BitVec 7) (skip : Bool) (len : Word) (s : State),
    (s.seq.pc.accepting = true →
      (len = 0#32 → exec (.write a skip len) s =
        .next (completed { s with seq := { s.seq with x0 := a, x1 := len, x2 := skip } })) ∧
      (len ≠ 0#32 → exec (.write a skip len) s =
        .next { s with seq := { s.seq with
          pc := .wStartPoll, cur := some (.write a skip len), x0 := a, x1 := len, x2 := skip,
          x7 := 0x0100#13 ||| (a.setWidth 13 <<< 1) } })) ∧
    (s.seq.cur = some (.write a skip len) →
      (s.seq.pc = .wStartPoll → ∃ t, memReadReg 0x14 4 s = .next t ∧
        exec (.write a skip len) s =
          .next { t with seq.pc := if t.seq.x10.getLsbD 0 then .wStartPoll else .wStartPush }) ∧
      (s.seq.pc = .wStartPush → s.dev.fmtq.length < s.cfg.fmtDepth →
        exec (.write a skip len) s = .next { s with
          seq := { s.seq with pc := .wDataPoll, x3 := 0#32 }
          dev.fmtq := s.dev.fmtq ++ [s.seq.x7], log.pushes := s.log.pushes ++ [s.seq.x7] }) ∧
      (s.seq.pc = .wStartPush → ¬ s.dev.fmtq.length < s.cfg.fmtDepth →
        exec (.write a skip len) s = .next (faulted .pushWhenFull s)) ∧
      (s.seq.pc = .wDataPoll → ∃ t, memReadReg 0x14 4 s = .next t ∧
        exec (.write a skip len) s =
          .next { t with seq.pc := if t.seq.x10.getLsbD 0 then .wDataPoll else .wDataPush }) ∧
      (s.seq.pc = .wDataPush → ¬ s.seq.x3.toNat < s.seq.buf.size →
        exec (.write a skip len) s = .next (faulted .bufferBound s)) ∧
      (s.seq.pc = .wDataPush → s.seq.x3.toNat < s.seq.buf.size →
        let last := decide (s.seq.x3 = s.seq.x1 - 1#32)
        let d := Memory.read s.mem (s.seq.buf.base + s.seq.x3.toNat)
        let w := (if last = true ∧ s.seq.x2 = false then 0x0200#13 else 0#13) ||| d.setWidth 13
        (¬ s.dev.fmtq.length < s.cfg.fmtDepth →
          exec (.write a skip len) s = .next (faulted .pushWhenFull { s with seq.x7 := w })) ∧
        (s.dev.fmtq.length < s.cfg.fmtDepth →
          let t := { s with
            seq := { s.seq with pc := .wDataPoll, x3 := s.seq.x3 + 1#32, x7 := w }
            dev.fmtq := s.dev.fmtq ++ [w], log.pushes := s.log.pushes ++ [w] }
          exec (.write a skip len) s = .next (if last then completed t else t))))

/-- R143, R144, R270: with room for all its words in the format FIFO, a `write` of `N >= 1` bytes ends in exactly
`2 * (N + 1)` steps after acceptance with all its `N + 1` words queued in order, and no other register, queue or memory
byte changed. -/
def Obligations.WriteCompletesWithRoom : Prop :=
  ∀ (a : BitVec 7) (skip : Bool) (len : Word) (s : State),
    s.seq.pc.accepting = true → s.cfg.visibility = .exact → len ≠ 0#32 → len.toNat ≤ s.seq.buf.size →
    s.dev.fmtq.length + len.toNat + 1 ≤ s.cfg.fmtDepth →
    let words := writeWords a skip (bufferBytes s.mem s.seq.buf len.toNat)
    words.length = len.toNat + 1 ∧
    ∃ t, execTimes (.write a skip len) (2 * (len.toNat + 1) + 1) s = .next t ∧
      t.seq.pc = .complete ∧ t.seq.cur = none ∧ t.dev = { s.dev with fmtq := s.dev.fmtq ++ words } ∧
      t.log.pushes = s.log.pushes ++ words ∧ t.mem = s.mem

/-- R144 over every interleaving: while a `write` is in progress every step, whoever moves, keeps what has been pushed a
beginning of its words, and it ends only with all of them pushed, or in `Faulted`. That `PUSHES` leaves out the word of a push
that faults (log entry 27) is the model's choice, and so is that no turn lets the caller change its memory (log entry 26). -/
def Obligations.WriteEmitsExactlyItsWords : Prop :=
  ∀ (a : BitVec 7) (skip : Bool) (bytes : List Byte) (before : List FmtWord) (s t : State),
    WriteProgress a skip bytes before s → bytes ≠ [] → s.env.sched.head? ≠ some .reset → step s = .next t →
    WriteProgress a skip bytes before t ∨
    (t.seq.pc = .complete ∧ t.log.pushes = before ++ writeWords a skip bytes) ∨
    (t.seq.pc = .faulted .pushWhenFull ∧ t.log.pushes = s.log.pushes)

/-- R154 (with R156, R225, R226): every step of `read`. (What the two faults leave, `x10` written and the byte taken from the
receive FIFO at `R_DRAIN`, is the model's reading, log entry 20, and that `PUSHES` leaves out the word of a push that faults its
choice, log entry 27.) -/
def Obligations.ReadSteps : Prop :=
  ∀ (a : BitVec 7) (len : Word) (s : State),
    (s.seq.pc.accepting = true →
      (len = 0#32 → exec (.read a len) s = .next (completedWith true { s with
        seq := { s.seq with x0 := a, x1 := len, x3 := 0#32, x4 := len } })) ∧
      (len ≠ 0#32 → exec (.read a len) s = .next { s with seq := { s.seq with
          pc := .rStartPoll, cur := some (.read a len), x0 := a, x1 := len, x3 := 0#32, x4 := len,
          x7 := 0x0100#13 ||| (a.setWidth 13 <<< 1) ||| 1#13 } })) ∧
    (s.seq.cur = some (.read a len) →
      (s.seq.pc = .rStartPoll → ∃ t, memReadReg 0x14 4 s = .next t ∧
        exec (.read a len) s = .next { t with seq.pc := if t.seq.x10.getLsbD 0 then .rStartPoll else .rStartPush }) ∧
      (s.seq.pc = .rStartPush → s.dev.fmtq.length < s.cfg.fmtDepth →
        exec (.read a len) s = .next { s with
          seq.pc := .rAddrWait, dev.fmtq := s.dev.fmtq ++ [s.seq.x7], log.pushes := s.log.pushes ++ [s.seq.x7] }) ∧
      (s.seq.pc = .rAddrWait → ∃ t, memReadReg 0x14 4 s = .next t ∧
        exec (.read a len) s = .next { t with seq.pc := if t.seq.x10.getLsbD 2 then .rNakTest else .rAddrWait }) ∧
      (s.seq.pc = .rNakTest → ∃ t, memReadReg 0x00 4 s = .next t ∧
        exec (.read a len) s = .next (
          if t.seq.x10.getLsbD s.cfg.flags.nak.toNat then { t with seq.pc := .rNakClearRd }
          else { t with seq := { t.seq with
            pc := .rLenPoll, x5 := BitVec.ofNat 8 (min 255 s.seq.x4.toNat), x6 := decide (s.seq.x4.toNat ≤ 255),
            x7 := (if s.seq.x4.toNat ≤ 255 then 0x0200#13 else 0#13) ||| 0x0400#13 |||
              BitVec.ofNat 13 (min 255 s.seq.x4.toNat) } })) ∧
      (s.seq.pc = .rNakClearRd → ∃ t, memReadReg 0x00 4 s = .next t ∧
        exec (.read a len) s = .next { t with seq.pc := .rNakClearWr }) ∧
      (s.seq.pc = .rNakClearWr →
        exec (.read a len) s = .next (nakAborted
          { s with dev.regs.intrState := s.seq.x10 &&& ~~~(1#32 <<< s.cfg.flags.nak.toNat) })) ∧
      (s.seq.pc = .rLenPoll → ∃ t, memReadReg 0x14 4 s = .next t ∧
        exec (.read a len) s = .next { t with seq.pc := if t.seq.x10.getLsbD 0 then .rLenPoll else .rLenPush }) ∧
      (s.seq.pc = .rLenPush → s.dev.fmtq.length < s.cfg.fmtDepth →
        exec (.read a len) s = .next { s with
          seq.pc := .rDataWait, dev.fmtq := s.dev.fmtq ++ [s.seq.x7], log.pushes := s.log.pushes ++ [s.seq.x7] }) ∧
      ((s.seq.pc = .rStartPush ∨ s.seq.pc = .rLenPush) → ¬ s.dev.fmtq.length < s.cfg.fmtDepth →
        exec (.read a len) s = .next (faulted .pushWhenFull s)) ∧
      (s.seq.pc = .rDataWait → ∃ t, memReadReg 0x14 4 s = .next t ∧
        exec (.read a len) s = .next (
          if t.seq.x10.getLsbD 2 then { t with seq := { t.seq with pc := .rDrain, x8 := 0#8 } } else t)) ∧
      (s.seq.pc = .rDrain → ∃ t, memReadReg 0x18 4 s = .next t ∧
        (¬ (s.seq.x3 + s.seq.x8.setWidth 32).toNat < s.seq.buf.size →
          exec (.read a len) s = .next (faulted .bufferBound t)) ∧
        ((s.seq.x3 + s.seq.x8.setWidth 32).toNat < s.seq.buf.size →
          let u := { t with
            seq.x8 := s.seq.x8 + 1#8
            mem := Memory.write s.mem (s.seq.buf.base + (s.seq.x3 + s.seq.x8.setWidth 32).toNat)
              (t.seq.x10.setWidth 8) }
          let v := { u with seq := { u.seq with
            x3 := s.seq.x3 + s.seq.x5.setWidth 32, x4 := s.seq.x4 - s.seq.x5.setWidth 32 } }
          (s.seq.x8 + 1#8 ≠ s.seq.x5 → exec (.read a len) s = .next u) ∧
          (s.seq.x8 + 1#8 = s.seq.x5 → s.seq.x6 = true →
            exec (.read a len) s = .next (completedWith true v)) ∧
          (s.seq.x8 + 1#8 = s.seq.x5 → s.seq.x6 = false →
            exec (.read a len) s = .next { v with seq := { v.seq with
              pc := .rStartPoll, x7 := 0x0100#13 ||| (s.seq.x0.setWidth 13 <<< 1) ||| 1#13 } }))))

/-- R149, R221, R235: a `read` that finds `Nak` asserted at its NAK test under exact visibility takes three steps with no
device step in between: of the bits that belong to flags (log entry 9) only `Nak` is cleared, the result is false, and the
queues, every other register, the caller's memory and the counters are unchanged. -/
def Obligations.ReadNakAborts : Prop :=
  ∀ (a : BitVec 7) (len : Word) (s : State), s.seq.pc = .rNakTest → s.seq.cur = some (.read a len) →
    s.cfg.visibility = .exact → s.dev.regs.intrState.getLsbD s.cfg.flags.nak.toNat = true →
    ∃ t, execTimes (.read a len) 3 s = .next t ∧
      t.seq = { s.seq with pc := .nakAborted, cur := none, x9 := false, x10 := t.seq.x10 } ∧
      State.done t = true ∧ State.result t = false ∧
      t.dev = { s.dev with regs.intrState := t.dev.regs.intrState } ∧ t.mem = s.mem ∧
      t.log.pushes = s.log.pushes ∧ t.log.buslog = s.log.buslog ∧
      ∀ p ∈ s.cfg.flags.positions, t.dev.regs.intrState.getLsbD p.toNat =
        (s.dev.regs.intrState.getLsbD p.toNat && decide (p ≠ s.cfg.flags.nak))

/-- R150, R151, R155, R158 over every interleaving: while a `read` is in progress every step, whoever moves, keeps the words
pushed so far those of its chunks and keeps every byte outside the drained part of the buffer; it ends with all its chunks,
of 255 bytes and one of 1 to 255, or at a NAK test with the words of the chunks before and the address word of that chunk, or
in `Faulted`. That no turn lets the caller change its memory is the model's choice (log entry 26). -/
def Obligations.ReadEmitsItsChunks : Prop :=
  ∀ (a : BitVec 7) (len : Word) (before : List FmtWord) (m : Memory) (s t : State),
    ReadProgress a len before m s → s.env.sched.head? ≠ some .reset → step s = .next t →
    ReadProgress a len before m t ∨
    (t.seq.pc = .complete ∧ t.seq.x9 = true ∧ t.log.pushes = before ++ readWords a len.toNat ∧
      ∀ k, ¬ (s.seq.buf.base ≤ k ∧ k < s.seq.buf.base + len.toNat) → Memory.read t.mem k = Memory.read m k) ∨
    (t.seq.pc = .nakAborted ∧ t.seq.x9 = false ∧ ∃ c : Nat, t.seq.x3.toNat = 255 * c ∧ 255 * c < len.toNat ∧
      t.log.pushes = before ++ fullChunks a c ++ [addressWord a true] ∧
      ∀ k, ¬ (s.seq.buf.base ≤ k ∧ k < s.seq.buf.base + 255 * c) → Memory.read t.mem k = Memory.read m k) ∨
    (t.seq.pc = .faulted .pushWhenFull ∨ t.seq.pc = .faulted .bufferBound)

/-- R156: a zero-length `write` or `read` goes from an accepting state to `Complete` in one step with no register access and
no buffer access; the `read` returns true. -/
def Obligations.ZeroLengthCompletes : Prop :=
  ∀ (a : BitVec 7) (skip : Bool) (s : State), s.seq.pc.accepting = true →
    (∃ t, exec (.write a skip 0#32) s = .next t ∧ t.seq.pc = .complete ∧ State.done t = true ∧
      t.dev = s.dev ∧ t.mem = s.mem ∧ t.view = s.view ∧ t.env = s.env ∧ t.log.pushes = s.log.pushes) ∧
    (∃ t, exec (.read a 0#32) s = .next t ∧ t.seq.pc = .complete ∧ State.done t = true ∧ State.result t = true ∧
      t.dev = s.dev ∧ t.mem = s.mem ∧ t.view = s.view ∧ t.env = s.env ∧ t.log.pushes = s.log.pushes)

/-- R150: a chunk is `min(255, REM)` bytes, 1 to 255 when something remains, and is the last exactly when at most 255 remain. -/
def Obligations.ChunkSizes : Prop :=
  ∀ r : Word,
    (chunkSize r).toNat = min 255 r.toNat ∧
    (r ≠ 0#32 → 1 ≤ (chunkSize r).toNat ∧ (chunkSize r).toNat ≤ 255) ∧
    (chunkIsLast r = true ↔ r.toNat ≤ 255) ∧
    (chunkIsLast r = false → (r - (chunkSize r).setWidth 32).toNat = r.toNat - 255)

/-! ## The device -/

/-- R204, R205 for the four transmit forms of R96: one draw of the target's answer; a refused byte sets `Nak` and nothing
else of the device; the conditions of the word stand around the byte on the bus. -/
def Obligations.TransmitForms : Prop :=
  ∀ (a : BitVec 7) (d : Byte) (s : State),
    let sent := fun (es : List BusEvent) =>
      { (drawAck s).2 with
        dev.regs.intrState :=
          if (drawAck s).1 then s.dev.regs.intrState
          else s.dev.regs.intrState ||| (1#32 <<< s.cfg.flags.nak.toNat)
        log.buslog := s.log.buslog ++ es }
    exec (.addrW a) s = .next (sent [.start, .tx (a ++ 0#1) (drawAck s).1]) ∧
    exec (.addrR a) s = .next (sent [.start, .tx (a ++ 1#1) (drawAck s).1]) ∧
    exec (.data d) s = .next (sent [.tx d (drawAck s).1]) ∧
    exec (.dataStop d) s = .next (sent [.tx d (drawAck s).1, .stop])

/-- R206, R207 for the two receive forms of R96: as many bytes as the length says, 0 meaning 256, each a draw, are appended
in order as far as the receive FIFO has room; a byte that does not fit is dropped and sets `RxOverflow`; `Nak` is never set by
it; the host's NAK and the stop condition follow on the bus. That a dropped byte stands in `BUSLOG` as well is the model's choice
(log entry 25). -/
def Obligations.ReceiveForms : Prop :=
  ∀ (n : Byte) (s : State),
    ∃ (bs : List Byte) (e : Env),
      bs.length = (if n = 0#8 then 256 else n.toNat) ∧
      (∀ given more, s.env.rxBytes = given ++ more → given.length = bs.length → bs = given ∧ e.rxBytes = more) ∧
      e.sched = s.env.sched ∧
      let got := fun (es : List BusEvent) =>
        { s with
          env := e
          dev := { s.dev with
            rxq := s.dev.rxq ++ bs.take (s.cfg.rxDepth - s.dev.rxq.length)
            regs.intrState :=
              if s.dev.rxq.length + bs.length ≤ s.cfg.rxDepth then s.dev.regs.intrState
              else s.dev.regs.intrState ||| (1#32 <<< s.cfg.flags.rxOverflow.toNat) }
          log.buslog := s.log.buslog ++ bs.map BusEvent.rx ++ es }
      exec (.rdlen n) s = .next (got [.hostNak]) ∧ exec (.rdlenStop n) s = .next (got [.hostNak, .stop])

/-- R203, R213, R216: in host mode with a word queued the device removes the head and performs it by its flags, whatever the
word; a transmit word's answer sets `Nak` unless `NAKOK`; a receive word never does. Without host mode or without a word
nothing happens. That a dropped byte stands in `BUSLOG` as well is the model's choice (log entry 25). -/
def Obligations.DeviceExecutesAnyWord : Prop :=
  ∀ (w : FmtWord) (rest : List FmtWord) (s : State),
    (s.dev.regs.ctrl ≠ s.cfg.ctrlHostValue → deviceExecStep s = .next s) ∧
    (s.dev.fmtq = [] → deviceExecStep s = .next s) ∧
    (s.dev.regs.ctrl = s.cfg.ctrlHostValue → s.dev.fmtq = w :: rest → w.getLsbD 10 = false →
      ∃ e, deviceExecStep s = .next { s with
        env := e
        dev := { s.dev with
          fmtq := rest
          regs.intrState :=
            if (drawAck s).1 = true ∨ w.getLsbD 12 = true then s.dev.regs.intrState
            else s.dev.regs.intrState ||| (1#32 <<< s.cfg.flags.nak.toNat) }
        log.buslog := s.log.buslog ++ (if w.getLsbD 8 then [.start] else []) ++
          [.tx (w.extractLsb' 0 8) (drawAck s).1] ++ (if w.getLsbD 9 then [.stop] else []) }) ∧
    (s.dev.regs.ctrl = s.cfg.ctrlHostValue → s.dev.fmtq = w :: rest → w.getLsbD 10 = true →
      ∃ (bs : List Byte) (e : Env),
        bs.length = (if w.extractLsb' 0 8 = 0#8 then 256 else (w.extractLsb' 0 8).toNat) ∧
        deviceExecStep s = .next { s with
          env := e
          dev := { s.dev with
            fmtq := rest
            rxq := s.dev.rxq ++ bs.take (s.cfg.rxDepth - s.dev.rxq.length)
            regs.intrState :=
              if s.dev.rxq.length + bs.length ≤ s.cfg.rxDepth then s.dev.regs.intrState
              else s.dev.regs.intrState ||| (1#32 <<< s.cfg.flags.rxOverflow.toNat) }
          log.buslog := s.log.buslog ++ (if w.getLsbD 8 then [.start] else []) ++ bs.map BusEvent.rx ++
            (if w.getLsbD 11 then [] else [.hostNak]) ++ (if w.getLsbD 9 then [.stop] else []) })

/-- R210, R211: a `DEV_FLAG` step may give every bit of `INTR_STATE` but `Nak` any value, and changes nothing else. -/
def Obligations.FlagStepSparesNak : Prop :=
  ∀ (v : Word) (s : State),
    deviceFlagStep v s = { s with dev.regs.intrState := (deviceFlagStep v s).dev.regs.intrState } ∧
    ∀ k : Nat, k < 32 → (deviceFlagStep v s).dev.regs.intrState.getLsbD k =
      if k = s.cfg.flags.nak.toNat then s.dev.regs.intrState.getLsbD k else v.getLsbD k

/-- R211: once set, `Nak` stays set in every step that is neither a reset nor one of the two places where the block writes
`INTR_STATE`. -/
def Obligations.NakIsSticky : Prop :=
  ∀ s t : State, step s = .next t → s.env.sched.head? ≠ some .reset →
    s.seq.pc ≠ .rNakClearWr → (s.seq.pc = .accWr → ∀ sel, s.seq.cur ≠ some (.clearInterrupt sel)) →
    s.dev.regs.intrState.getLsbD s.cfg.flags.nak.toNat = true →
    t.dev.regs.intrState.getLsbD s.cfg.flags.nak.toNat = true

/-- R200: a step of the device changes neither the sequencer, with its working registers, `TP` and `pc`, nor the caller's
memory, nor the requests to come. -/
def Obligations.DeviceSparesSequencer : Prop :=
  ∀ s t : State, step s = .next t →
    (∃ u rest, s.env.sched = u :: rest ∧ u ≠ .seq ∧ u ≠ .present ∧ u ≠ .reset) →
    t.seq = s.seq ∧ t.mem = s.mem ∧ t.port = s.port ∧ t.cfg = s.cfg

/-! ## Register accesses -/

/-- R20, R61, R65: the offsets of the 28 registers, and an aligned 32-bit access at one of them reads or writes that register;
any other access is refused (D7). What the register's read and write do is said by RegisterReads and RegisterWrites. (What
a write that faults leaves in `PUSHES`: log entry 27.) -/
def Obligations.RegisterMap : Prop :=
  (allRegs.map (fun r => RegName.offset r) =
    [0x00, 0x04, 0x08, 0x0C, 0x10, 0x14, 0x18, 0x1C, 0x20, 0x24, 0x28, 0x2C, 0x30, 0x34, 0x38, 0x3C, 0x40, 0x44,
     0x48, 0x4C, 0x50, 0x54, 0x58, 0x5C, 0x60, 0x64, 0x68, 0x6C]) ∧
  (∀ (r : RegName) (c : Params) (s : State), RegName.address c r = c.base + RegName.offset r ∧
    memReadReg (RegName.offset r) 4 s = .next (regRead r s) ∧
    ∀ v, memWriteReg (RegName.offset r) 4 v s =
      match regWrite r v s with
      | .ok t => .next t
      | .error f => .next (faulted f s)) ∧
  ∀ (off width : Nat) (v : Word) (s : State), ¬ (width = 4 ∧ off % 4 = 0 ∧ off ≤ 0x6C) →
    memReadReg off width s = .refused .registerAccess ∧ memWriteReg off width v s = .refused .registerAccess

/-- R74 (`exact`), R208, R209, R22, R23: what the register reads give. `STATUS` bits 0, 1, 2 and 5 are the functions of the
queues now; the bits of flags in `INTR_STATE` and the whole of `INTR_ENABLE` (log entry 9) are the stored ones; the threshold
fields of `HOST_FIFO_CONFIG` are the stored ones (R109); a read of `RDATA` removes the head and
gives it in bits 7:0. Apart from `x10`, the draws and that head nothing changes. -/
def Obligations.RegisterReads : Prop :=
  ∀ s : State, s.cfg.visibility = .exact →
    (let t := regRead .status s
     t.seq.x10.getLsbD 0 = decide (s.dev.fmtq.length = s.cfg.fmtDepth) ∧
     t.seq.x10.getLsbD 1 = decide (s.dev.rxq.length = s.cfg.rxDepth) ∧
     t.seq.x10.getLsbD 2 = decide (s.dev.fmtq = []) ∧ t.seq.x10.getLsbD 5 = decide (s.dev.rxq = []) ∧
     t = { s with seq.x10 := t.seq.x10, env := t.env }) ∧
    (let t := regRead .intrState s
     (∀ p ∈ s.cfg.flags.positions, t.seq.x10.getLsbD p.toNat = s.dev.regs.intrState.getLsbD p.toNat) ∧
     t = { s with seq.x10 := t.seq.x10, env := t.env }) ∧
    regRead .intrEnable s = { s with seq.x10 := s.dev.regs.intrEnable } ∧
    (let t := regRead .hostFifoConfig s
     (∀ k, (s.cfg.fmtThreshShift ≤ k ∧ k < s.cfg.fmtThreshShift + 12) ∨
         (s.cfg.rxThreshShift ≤ k ∧ k < s.cfg.rxThreshShift + 12) →
       t.seq.x10.getLsbD k = s.dev.regs.hostFifoConfig.getLsbD k) ∧
     t = { s with seq.x10 := t.seq.x10, env := t.env }) ∧
    (let t := regRead .rdata s
     (∀ b rest, s.dev.rxq = b :: rest → t.seq.x10.setWidth 8 = b ∧
       t = { s with seq.x10 := t.seq.x10, env := t.env, dev.rxq := rest }) ∧
     (s.dev.rxq = [] → t = { s with seq.x10 := t.seq.x10, env := t.env }))

/-- R36, R74 (`monotone_stale`): a read of `STATUS` or of `INTR_STATE` sees the values of one step of the history, not earlier
than the last one seen, and moves `vis` there; every such step can be the one seen. What the history stores, that now is its
length, and that reserved and undescribed bits are no part of it, is log entry 16. -/
def Obligations.StaleReadsAreMonotone : Prop :=
  ∀ s : State, s.cfg.visibility = .monotoneStale → s.view.vis ≤ s.view.hist.length →
    (∃ j, s.view.vis ≤ j ∧ j ≤ s.view.hist.length ∧ (regRead .status s).view = { s.view with vis := j } ∧
      ∀ k ∈ [0, 1, 2, 5], (regRead .status s).seq.x10.getLsbD k =
        (s.view.hist.getD j (snap s)).status.getLsbD k) ∧
    (∃ j, s.view.vis ≤ j ∧ j ≤ s.view.hist.length ∧ (regRead .intrState s).view = { s.view with vis := j } ∧
      ∀ p ∈ s.cfg.flags.positions, (regRead .intrState s).seq.x10.getLsbD p.toNat =
        (s.view.hist.getD j (snap s)).intrState.getLsbD p.toNat) ∧
    ∀ j, s.view.vis ≤ j → j ≤ s.view.hist.length → ∃ picks,
      (regRead .status { s with env.picks := picks }).view.vis = j ∧
      (regRead .intrState { s with env.picks := picks }).view.vis = j

/-- R201, R202, R212, R213, R214: what the register writes do. -/
def Obligations.RegisterWrites : Prop :=
  ∀ (v : Word) (s : State),
    (s.dev.fmtq.length < s.cfg.fmtDepth → regWrite .fdata v s = .ok { s with
      dev.fmtq := s.dev.fmtq ++ [v.extractLsb' 0 13], log.pushes := s.log.pushes ++ [v.extractLsb' 0 13] }) ∧
    (s.dev.fmtq.length = s.cfg.fmtDepth → regWrite .fdata v s = .error .pushWhenFull) ∧
    (∃ t, regWrite .fifoCtrl v s = .ok t ∧ t.dev.regs = { s.dev.regs with fifoCtrl := v } ∧
      (v = s.cfg.fifoResetValue → t.dev.fmtq = [] ∧ t.dev.rxq = []) ∧
      (t.dev.fmtq = s.dev.fmtq ∨ t.dev.fmtq = []) ∧ (t.dev.rxq = s.dev.rxq ∨ t.dev.rxq = [])) ∧
    regWrite .ctrl v s = .ok { s with dev.regs.ctrl := v } ∧
    regWrite .timing0 v s = .ok { s with dev.regs.timing0 := v } ∧
    regWrite .timing1 v s = .ok { s with dev.regs.timing1 := v } ∧
    regWrite .timing2 v s = .ok { s with dev.regs.timing2 := v } ∧
    regWrite .timing3 v s = .ok { s with dev.regs.timing3 := v } ∧
    regWrite .timing4 v s = .ok { s with dev.regs.timing4 := v } ∧
    regWrite .hostFifoConfig v s = .ok { s with dev.regs.hostFifoConfig := v } ∧
    regWrite .intrEnable v s = .ok { s with dev.regs.intrEnable := v } ∧
    regWrite .intrState v s = .ok { s with dev.regs.intrState := v }

/-! ## Frames -/

/-- The `State written` lines of the operations' rules, for the sequencer: an instruction changes no working register but
those its rule names, and a format word none at all; an unassigned select code answers no next state. The parameters, the
requests to come and the history never change. That a register which no rule names keeps its value, `x9` after an operation
without a result too, is log entry 21. -/
def Obligations.WorkingRegisterFrames : Prop :=
  ∀ (i : Instr) (s t : State), exec i s = .next t →
    t.cfg = s.cfg ∧ t.port = s.port ∧ t.view.hist = s.view.hist ∧
    match i with
    | .resetFifos | .setHostMode => t.seq = { s.seq with pc := t.seq.pc, cur := t.seq.cur }
    | .setHostThresholds _ _ => t.seq = { s.seq with pc := t.seq.pc, cur := t.seq.cur, x10 := t.seq.x10 }
    | .setSpeed _ => t.seq = { s.seq with pc := t.seq.pc, cur := t.seq.cur, x11 := t.seq.x11, tp := t.seq.tp }
    | .interruptAsserted _ | .statusTest _ =>
      t.seq = { s.seq with pc := t.seq.pc, cur := t.seq.cur, x9 := t.seq.x9, x10 := t.seq.x10 }
    | .clearInterrupt _ | .enableInterrupt _ | .disableInterrupt _ =>
      t.seq = { s.seq with pc := t.seq.pc, cur := t.seq.cur, x10 := t.seq.x10 }
    | .write _ _ _ => t.seq = { s.seq with
        pc := t.seq.pc, cur := t.seq.cur, x0 := t.seq.x0, x1 := t.seq.x1, x2 := t.seq.x2, x3 := t.seq.x3,
        x7 := t.seq.x7, x10 := t.seq.x10 }
    | .read _ _ => t.seq = { s.seq with
        pc := t.seq.pc, cur := t.seq.cur, x0 := t.seq.x0, x1 := t.seq.x1, x3 := t.seq.x3, x4 := t.seq.x4,
        x5 := t.seq.x5, x6 := t.seq.x6, x7 := t.seq.x7, x8 := t.seq.x8, x9 := t.seq.x9, x10 := t.seq.x10 }
    | .blockingPush _ => t.seq = { s.seq with pc := t.seq.pc, cur := t.seq.cur, x7 := t.seq.x7, x10 := t.seq.x10 }
    | .addrW _ | .addrR _ | .data _ | .dataStop _ | .rdlen _ | .rdlenStop _ => t.seq = s.seq
    | .unassigned11 | .unassigned12 | .unassigned13 | .unassigned14 | .unassigned15 => False

/-- R68, R79: an instruction changes no register but those of its row (for a format word, the flags that the device sets); the
format FIFO changes only by a word appended at its tail or by `reset_fifos`, the receive FIFO only by its head being read, by
bytes appended in a receive word (R206, R207), or by `reset_fifos`, which empties both in its write of `FIFO_CTRL` and leaves
both in its acceptance (R190, R212). -/
def Obligations.RegisterAndQueueFrames : Prop :=
  ∀ (i : Instr) (s t : State), exec i s = .next t →
    (∀ r, r ∉ writtenRegs i → RegFile.get t.dev.regs r = RegFile.get s.dev.regs r) ∧
    (i ≠ .resetFifos →
      t.dev.fmtq = s.dev.fmtq ∨
      (∃ w, t.dev.fmtq = s.dev.fmtq ++ [w] ∧ t.log.pushes = s.log.pushes ++ [w] ∧
        ((∃ a b c, i = .write a b c) ∨ (∃ a b, i = .read a b) ∨ ∃ v, i = .blockingPush v))) ∧
    (i ≠ .resetFifos →
      t.dev.rxq = s.dev.rxq ∨
      (t.dev.rxq = s.dev.rxq.tail ∧ ∃ a b, i = .read a b) ∨
      ((∃ bs, t.dev.rxq = s.dev.rxq ++ bs) ∧ ∃ n, i = .rdlen n ∨ i = .rdlenStop n)) ∧
    (i = .resetFifos →
      if s.seq.pc = .cfWr then t.dev.fmtq = [] ∧ t.dev.rxq = []
      else t.dev.fmtq = s.dev.fmtq ∧ t.dev.rxq = s.dev.rxq)

/-- R62, R80: the only instruction that stores to the caller's memory is `read`, in its drain step, one byte at
`BUF[x3 + x8]`, the low byte of the value read from `RDATA`; every other byte reads as before, and under every other
instruction and in every other micro-state all of them do. -/
def Obligations.OnlyDrainStoresToMemory : Prop :=
  ∀ (i : Instr) (s t : State), Memory.wf s.mem = true → exec i s = .next t →
    (∀ a, ¬ (s.seq.pc = .rDrain ∧ (∃ addr7 len, i = .read addr7 len) ∧
        a = bufAddress s (s.seq.x3 + s.seq.x8.setWidth 32).toNat) →
      Memory.read t.mem a = Memory.read s.mem a) ∧
    (s.seq.pc = .rDrain → (s.seq.x3 + s.seq.x8.setWidth 32).toNat < s.seq.buf.size →
      (∃ addr7 len, i = .read addr7 len) →
      Memory.read t.mem (bufAddress s (s.seq.x3 + s.seq.x8.setWidth 32).toNat) = t.seq.x10.setWidth 8)

/-! ## The machine -/

/-- A step runs the decoded instruction: in an accepting state the sequencer's step runs the acceptance of the instruction
that the presented record decodes to; with an operation in progress it runs that operation's next step; the device's step
runs the format word it has removed; with no operation latched the sequencer's step runs `blocking_push` of `x7` (log entry
12). Around it a step takes its turn from the interleaving and, under `monotone_stale`,
records the values it started from (`remember`, log entry 16). -/
def Obligations.StepRunsDecodedInstruction : Prop :=
  ∀ (s : State) (turns : List Turn),
    (∀ (q : Request) (rest : List Request) (t : State), s.env.sched = .seq :: turns → s.seq.pc.accepting = true →
      s.port = q :: rest →
      exec (decodeRequest q.record) { s with env.sched := turns, port := rest, seq.buf := q.buf } = .next t →
      step s = .next (remember { s with env.sched := turns } t)) ∧
    (∀ (i : Instr) (t : State), s.env.sched = .seq :: turns → s.seq.pc.accepting = false →
      (∀ f, s.seq.pc ≠ .faulted f) → s.seq.cur = some i → exec i { s with env.sched := turns } = .next t →
      step s = .next (remember { s with env.sched := turns } t)) ∧
    (∀ (i : Instr) (w : FmtWord) (rest : List FmtWord) (t : State), s.env.sched = .devExec :: turns →
      (∀ f, s.seq.pc ≠ .faulted f) → hostMode s = true → s.dev.fmtq = w :: rest → decodeFormat w = .ok i →
      exec i { s with env.sched := turns, dev.fmtq := rest } = .next t →
      step s = .next (remember { s with env.sched := turns } t)) ∧
    (∀ t : State, s.env.sched = .seq :: turns → s.seq.pc.accepting = false → (∀ f, s.seq.pc ≠ .faulted f) →
      s.seq.cur = none → exec (.blockingPush s.seq.x7) { s with env.sched := turns } = .next t →
      step s = .next (remember { s with env.sched := turns } t))

/-- R12, R233, R237: in `Faulted` a step of the sequencer or of the device stops with the fault (log entry 7); reset
alone leads out. -/
def Obligations.FaultedStops : Prop :=
  ∀ (f : Fault) (s : State) (turns : List Turn), s.seq.pc = .faulted f →
    (s.env.sched = [] ∨ s.env.sched = .seq :: turns ∨ s.env.sched = .devExec :: turns ∨
      (∃ v, s.env.sched = .devFlag v :: turns) ∨ (∃ r v, s.env.sched = .devWord r v :: turns) →
      step s = .fault f) ∧
    (s.env.sched = .reset :: turns → ∃ t, step s = .next t ∧ t.seq.pc = .idle) ∧
    (s.env.sched = .present :: turns → ∀ t, step s = .next t → t.seq = s.seq ∧ t.dev = s.dev)

/-- R250, R251, R253: reset, from any state: `pc = Idle`, no request in progress, the done indication false, at most as many
words and bytes queued as the FIFOs hold, the observation lists empty. The caller's memory, its requests and the parameters
are not reset (log entry 18). -/
def Obligations.ResetEvent : Prop :=
  ∀ (s : State) (turns : List Turn), s.env.sched = .reset :: turns →
    ∃ t, step s = .next t ∧ t.seq.pc = .idle ∧ t.seq.cur = none ∧ State.done t = false ∧
      t.dev.fmtq.length ≤ s.cfg.fmtDepth ∧ t.dev.rxq.length ≤ s.cfg.rxDepth ∧
      t.log = ⟨[], [], []⟩ ∧ t.view.vis = t.view.hist.length ∧ t.cfg = s.cfg ∧ t.mem = s.mem ∧ t.port = s.port

/-- R157, R237: a request is accepted identically in `Idle`, in `Complete` and in `NakAborted`. -/
def Obligations.TerminalStatesAcceptAlike : Prop :=
  ∀ (w : ReqWord) (p q : Pc) (s : State), p.accepting = true → q.accepting = true →
    exec (decodeRequest w) { s with seq.pc := p } = exec (decodeRequest w) { s with seq.pc := q }

/-- The invariant holds at reset. (That the queues and registers are empty and zero there is the model's choice, log
entries 4 to 6; the invariant does not rest on it.) -/
def Obligations.InvariantHoldsAtReset : Prop := State.Inv State.reset

/-- Every step, whoever moves, keeps the invariant of Safety.lean: the caller's memory canonical, the queues within their
depths, the visibility pointer within the history, the working registers as the micro-state says (R146, R148, R150, R154),
room at a push under exact visibility (R142), and every word ever pushed one of the six forms (R96, R97). -/
def Obligations.EveryStepKeepsInvariant : Prop :=
  ∀ s t : State, State.Inv s → step s = .next t → State.Inv t

/-- R142, R225: from an invariant state under exact visibility no step takes the fault `PushWhenFull`. -/
def Obligations.PushNeverMeetsFullFifo : Prop :=
  ∀ s t : State, State.Inv s → s.cfg.visibility = .exact → step s = .next t →
    s.seq.pc ≠ .faulted .pushWhenFull → t.seq.pc ≠ .faulted .pushWhenFull

/-- R12, R141, R229: from an invariant state that is not `Faulted` every step of every agent has a next state: no operation
ever gets stuck on a step that has no meaning. -/
def Obligations.EveryStepHasMeaning : Prop :=
  ∀ s : State, State.Inv s → (∀ f, s.seq.pc ≠ .faulted f) → ∃ t, step s = .next t

/-- R214, R231, R37: the content of `INTR_ENABLE`, of the `TIMING` registers, of `HOST_FIFO_CONFIG`, of `FIFO_CTRL` and of the
registers without an operation changes nothing that a step does or leaves, other than that content; for `INTR_ENABLE`, unless
the operation in progress is `enable_interrupt` or `disable_interrupt`. -/
def Obligations.RegistersWithoutEffect : Prop :=
  ∀ (r : RegName) (v : Word) (s t : State),
    (r.unused = true ∨ r ∈ [.timing0, .timing1, .timing2, .timing3, .timing4, .hostFifoConfig, .fifoCtrl] ∨
      (r = .intrEnable ∧ ∀ sel, s.seq.cur ≠ some (.enableInterrupt sel) ∧ s.seq.cur ≠ some (.disableInterrupt sel))) →
    step s = .next t → ∃ w, step (storeReg r v s) = .next (storeReg r w t)

/-- R39, R254: no operation reads a working register or `TP` before it has written it. Two states that differ only in what
the operation in progress will not read first make the same step, up to such registers: the device, the caller's memory and
every observation stay equal. So the values that the model gives the working registers at reset (log entry 5) matter to
nothing that can be observed. -/
def Obligations.WorkingRegistersAreWrittenFirst : Prop :=
  ∀ (s s' : State) (r : Sequencer), State.Inv s → Sequencer.sameLive s.seq r → step s = .next s' →
    ∃ r', step { s with seq := r } = .next { s' with seq := r' } ∧ Sequencer.sameLive s'.seq r'
end

