-- ==== Sys2Proof/Laws/State.lean ====
section
/-!
SUPPORT. The named updates of State, group by group: what each leaves unchanged and what it sets, each true by rfl, so that
no later proof unfolds a record update.
-/

namespace Sys2Proof.Machine

section
variable (s : State)

@[simp] theorem withPc_cfg (p : Pc) : (withPc p s).cfg = s.cfg := rfl
@[simp] theorem withPc_seq (p : Pc) : (withPc p s).seq = { s.seq with pc := p } := rfl
@[simp] theorem withPc_dev (p : Pc) : (withPc p s).dev = s.dev := rfl
@[simp] theorem withPc_view (p : Pc) : (withPc p s).view = s.view := rfl
@[simp] theorem withPc_mem (p : Pc) : (withPc p s).mem = s.mem := rfl
@[simp] theorem withPc_port (p : Pc) : (withPc p s).port = s.port := rfl
@[simp] theorem withPc_env (p : Pc) : (withPc p s).env = s.env := rfl
@[simp] theorem withPc_log (p : Pc) : (withPc p s).log = s.log := rfl

@[simp] theorem ended_cfg (p : Pc) (o : RequestOutcome) : (ended p o s).cfg = s.cfg := rfl
@[simp] theorem ended_seq (p : Pc) (o : RequestOutcome) : (ended p o s).seq = { s.seq with pc := p, cur := none } := rfl
@[simp] theorem ended_dev (p : Pc) (o : RequestOutcome) : (ended p o s).dev = s.dev := rfl
@[simp] theorem ended_view (p : Pc) (o : RequestOutcome) : (ended p o s).view = s.view := rfl
@[simp] theorem ended_mem (p : Pc) (o : RequestOutcome) : (ended p o s).mem = s.mem := rfl
@[simp] theorem ended_port (p : Pc) (o : RequestOutcome) : (ended p o s).port = s.port := rfl
@[simp] theorem ended_env (p : Pc) (o : RequestOutcome) : (ended p o s).env = s.env := rfl
@[simp] theorem ended_log (p : Pc) (o : RequestOutcome) : (ended p o s).log = { s.log with outcomes := s.log.outcomes ++ [o] } := rfl

@[simp] theorem faulted_cfg (f : Fault) : (faulted f s).cfg = s.cfg := rfl
@[simp] theorem faulted_seq (f : Fault) : (faulted f s).seq = { s.seq with pc := .faulted f, cur := none } := rfl
@[simp] theorem faulted_dev (f : Fault) : (faulted f s).dev = s.dev := rfl
@[simp] theorem faulted_view (f : Fault) : (faulted f s).view = s.view := rfl
@[simp] theorem faulted_mem (f : Fault) : (faulted f s).mem = s.mem := rfl
@[simp] theorem faulted_port (f : Fault) : (faulted f s).port = s.port := rfl
@[simp] theorem faulted_env (f : Fault) : (faulted f s).env = s.env := rfl
@[simp] theorem faulted_log (f : Fault) : (faulted f s).log = { s.log with outcomes := s.log.outcomes ++ [.faults f] } := rfl

@[simp] theorem completed_cfg : (completed s).cfg = s.cfg := rfl
@[simp] theorem completed_seq : (completed s).seq = { s.seq with pc := .complete, cur := none } := rfl
@[simp] theorem completed_dev : (completed s).dev = s.dev := rfl
@[simp] theorem completed_view : (completed s).view = s.view := rfl
@[simp] theorem completed_mem : (completed s).mem = s.mem := rfl
@[simp] theorem completed_port : (completed s).port = s.port := rfl
@[simp] theorem completed_env : (completed s).env = s.env := rfl
@[simp] theorem completed_log : (completed s).log = { s.log with outcomes := s.log.outcomes ++ [.completes none] } := rfl

@[simp] theorem completedWith_cfg (r : Bool) : (completedWith r s).cfg = s.cfg := rfl
@[simp] theorem completedWith_seq (r : Bool) : (completedWith r s).seq = { s.seq with pc := .complete, cur := none, x9 := r } := rfl
@[simp] theorem completedWith_dev (r : Bool) : (completedWith r s).dev = s.dev := rfl
@[simp] theorem completedWith_view (r : Bool) : (completedWith r s).view = s.view := rfl
@[simp] theorem completedWith_mem (r : Bool) : (completedWith r s).mem = s.mem := rfl
@[simp] theorem completedWith_port (r : Bool) : (completedWith r s).port = s.port := rfl
@[simp] theorem completedWith_env (r : Bool) : (completedWith r s).env = s.env := rfl
@[simp] theorem completedWith_log (r : Bool) : (completedWith r s).log = { s.log with outcomes := s.log.outcomes ++ [.completes (some r)] } := rfl

@[simp] theorem nakAborted_cfg : (nakAborted s).cfg = s.cfg := rfl
@[simp] theorem nakAborted_seq : (nakAborted s).seq = { s.seq with pc := .nakAborted, cur := none, x9 := false } := rfl
@[simp] theorem nakAborted_dev : (nakAborted s).dev = s.dev := rfl
@[simp] theorem nakAborted_view : (nakAborted s).view = s.view := rfl
@[simp] theorem nakAborted_mem : (nakAborted s).mem = s.mem := rfl
@[simp] theorem nakAborted_port : (nakAborted s).port = s.port := rfl
@[simp] theorem nakAborted_env : (nakAborted s).env = s.env := rfl
@[simp] theorem nakAborted_log : (nakAborted s).log = { s.log with outcomes := s.log.outcomes ++ [.nakAbort] } := rfl

@[simp] theorem storeReg_cfg (r : RegName) (v : Word) : (storeReg r v s).cfg = s.cfg := rfl
@[simp] theorem storeReg_seq (r : RegName) (v : Word) : (storeReg r v s).seq = s.seq := rfl
@[simp] theorem storeReg_dev (r : RegName) (v : Word) : (storeReg r v s).dev = { s.dev with regs := RegFile.set s.dev.regs r v } := rfl
@[simp] theorem storeReg_view (r : RegName) (v : Word) : (storeReg r v s).view = s.view := rfl
@[simp] theorem storeReg_mem (r : RegName) (v : Word) : (storeReg r v s).mem = s.mem := rfl
@[simp] theorem storeReg_port (r : RegName) (v : Word) : (storeReg r v s).port = s.port := rfl
@[simp] theorem storeReg_env (r : RegName) (v : Word) : (storeReg r v s).env = s.env := rfl
@[simp] theorem storeReg_log (r : RegName) (v : Word) : (storeReg r v s).log = s.log := rfl

end

/-! ## The register file -/

@[simp] theorem RegFile.get_set_self (f : RegFile) (r : RegName) (v w : Word) (h : RegFile.get f r = some w) :
    RegFile.get (RegFile.set f r v) r = some v := by
  cases r <;> simp_all [RegFile.get, RegFile.set]

theorem RegFile.get_set_other (f : RegFile) (r q : RegName) (v : Word) (h : q ≠ r) :
    RegFile.get (RegFile.set f r v) q = RegFile.get f q := by
  cases r <;> cases q <;> first | rfl | exact absurd rfl h

end Sys2Proof.Machine
end

