-- ==== Sys2Proof/Laws/Ops.lean ====
section
/-!
SUPPORT. One lemma per shared operation of Machine/Ops.lean that says everything it can do, and the values of the register
reads under exact visibility. Later proofs cite these instead of unfolding the operations.
-/

namespace Sys2Proof.Machine

/-! ## Draws -/

theorem drawWord_effect (s : State) : ∃ e, (drawWord s).2 = { s with env := e } := by
  unfold drawWord; split <;> exact ⟨_, rfl⟩

theorem drawAck_effect (s : State) : ∃ e, (drawAck s).2 = { s with env := e } := by
  unfold drawAck; split <;> exact ⟨_, rfl⟩

theorem drawByte_effect (s : State) : ∃ e, (drawByte s).2 = { s with env := e } := by
  unfold drawByte; split <;> exact ⟨_, rfl⟩

theorem drawPick_effect (s : State) : ∃ e, (drawPick s).2 = { s with env := e } := by
  unfold drawPick; split <;> exact ⟨_, rfl⟩

/-- A draw never touches the interleaving. -/
@[simp] theorem drawWord_sched (s : State) : (drawWord s).2.env.sched = s.env.sched := by
  unfold drawWord; split <;> rfl

@[simp] theorem drawPick_sched (s : State) : (drawPick s).2.env.sched = s.env.sched := by
  unfold drawPick; split <;> rfl

/-! ## Visibility -/

theorem staleIndex_range (vis now pick : Nat) (h : vis ≤ now) :
    vis ≤ staleIndex vis now pick ∧ staleIndex vis now pick ≤ now := by
  have : pick % (now - vis + 1) < now - vis + 1 := Nat.mod_lt _ (by omega)
  simp only [staleIndex, if_pos h]
  omega

/-- Under `exact` a read sees the current values and nothing changes (R74). -/
@[simp] theorem visible_exact (s : State) (h : s.cfg.visibility = .exact) : visible s = (snap s, s) := by
  simp [visible, h]

/-- Looking at the visible values changes the draws and the pointer only, and the pointer stays within the history. -/
theorem visible_effect (s : State) :
    ∃ e j, (visible s).2 = { s with env := e, view.vis := j } ∧
      (s.view.vis ≤ s.view.hist.length → s.view.vis ≤ j ∧ j ≤ s.view.hist.length) := by
  obtain ⟨e, he⟩ := drawPick_effect s
  unfold visible
  split
  · exact ⟨s.env, s.view.vis, rfl, fun h => ⟨le_refl _, h⟩⟩
  · refine ⟨e, staleIndex s.view.vis s.view.hist.length (drawPick s).1, ?_, staleIndex_range _ _ _⟩
    simp [he]

/-! ## Register reads -/

/-- Everything a register read can do: `x10`, the draws, the visibility pointer, and the head of `RXQ` if the register is
`RDATA` (R68, R80). -/
theorem regRead_effect (r : RegName) (s : State) :
    ∃ v e j, regRead r s =
        { s with seq := { s.seq with x10 := v }, env := e, view := { s.view with vis := j },
                 dev := { s.dev with rxq := if r = .rdata then s.dev.rxq.tail else s.dev.rxq } } ∧
      (s.view.vis ≤ s.view.hist.length → s.view.vis ≤ j ∧ j ≤ s.view.hist.length) := by
  obtain ⟨e1, j, hv, hj⟩ := visible_effect s
  obtain ⟨e2, hd2⟩ := drawWord_effect (visible s).2
  obtain ⟨e3, hd3⟩ := drawWord_effect s
  have keep : s.view.vis ≤ s.view.hist.length → s.view.vis ≤ s.view.vis ∧ s.view.vis ≤ s.view.hist.length :=
    fun h => ⟨le_refl _, h⟩
  have hd2' : (drawWord (visible s).2).2 = { s with env := e2, view.vis := j } := by rw [hd2, hv]
  have drawn : ∀ w, ({ (drawWord s).2 with seq.x10 := w } : State) =
      { s with seq := { s.seq with x10 := w }, env := e3 } := fun w => by rw [hd3]
  cases r
  case status => exact ⟨_, e2, j, by simp only [regRead, readStatus, hd2']; rfl, hj⟩
  case intrState => exact ⟨_, e2, j, by simp only [regRead, readIntrState, hd2']; rfl, hj⟩
  case intrEnable => exact ⟨_, s.env, s.view.vis, rfl, keep⟩
  case hostFifoConfig => exact ⟨_, e3, s.view.vis, by simp only [regRead, readHostFifoConfig, hd3]; rfl, keep⟩
  case rdata =>
    rcases hq : s.dev.rxq with _ | ⟨b, rest⟩
    · refine ⟨(drawWord s).1, e3, s.view.vis, ?_, keep⟩
      simp only [regRead, readRdata, hq, hd3, if_true, List.tail_nil]
      rw [← hq]
    · refine ⟨rdataValue b (drawWord s).1, e3, s.view.vis, ?_, keep⟩
      simp only [regRead, readRdata, hq, hd3, if_true, List.tail_cons]
  all_goals first
    | exact ⟨_, s.env, s.view.vis, rfl, keep⟩
    | exact ⟨_, e3, s.view.vis, drawn _, keep⟩

@[simp] theorem regRead_cfg (r : RegName) (s : State) : (regRead r s).cfg = s.cfg := by
  obtain ⟨v, e, j, h, -⟩ := regRead_effect r s; rw [h]

@[simp] theorem regRead_mem (r : RegName) (s : State) : (regRead r s).mem = s.mem := by
  obtain ⟨v, e, j, h, -⟩ := regRead_effect r s; rw [h]

@[simp] theorem regRead_port (r : RegName) (s : State) : (regRead r s).port = s.port := by
  obtain ⟨v, e, j, h, -⟩ := regRead_effect r s; rw [h]

@[simp] theorem regRead_log (r : RegName) (s : State) : (regRead r s).log = s.log := by
  obtain ⟨v, e, j, h, -⟩ := regRead_effect r s; rw [h]

@[simp] theorem regRead_regs (r : RegName) (s : State) : (regRead r s).dev.regs = s.dev.regs := by
  obtain ⟨v, e, j, h, -⟩ := regRead_effect r s; rw [h]

@[simp] theorem regRead_fmtq (r : RegName) (s : State) : (regRead r s).dev.fmtq = s.dev.fmtq := by
  obtain ⟨v, e, j, h, -⟩ := regRead_effect r s; rw [h]

@[simp] theorem regRead_hist (r : RegName) (s : State) : (regRead r s).view.hist = s.view.hist := by
  obtain ⟨v, e, j, h, -⟩ := regRead_effect r s; rw [h]

/-- A register read changes no working register but `x10`. -/
theorem regRead_seq (r : RegName) (s : State) : (regRead r s).seq = { s.seq with x10 := (regRead r s).seq.x10 } := by
  obtain ⟨v, e, j, h, -⟩ := regRead_effect r s; rw [h]

@[simp] theorem regRead_pc (r : RegName) (s : State) : (regRead r s).seq.pc = s.seq.pc := by
  rw [regRead_seq]

@[simp] theorem regRead_cur (r : RegName) (s : State) : (regRead r s).seq.cur = s.seq.cur := by
  rw [regRead_seq]

@[simp] theorem regRead_buf (r : RegName) (s : State) : (regRead r s).seq.buf = s.seq.buf := by
  rw [regRead_seq]

@[simp] theorem regRead_x0 (r : RegName) (s : State) : (regRead r s).seq.x0 = s.seq.x0 := by
  rw [regRead_seq]

@[simp] theorem regRead_x1 (r : RegName) (s : State) : (regRead r s).seq.x1 = s.seq.x1 := by
  rw [regRead_seq]

@[simp] theorem regRead_x2 (r : RegName) (s : State) : (regRead r s).seq.x2 = s.seq.x2 := by
  rw [regRead_seq]

@[simp] theorem regRead_x3 (r : RegName) (s : State) : (regRead r s).seq.x3 = s.seq.x3 := by
  rw [regRead_seq]

@[simp] theorem regRead_x4 (r : RegName) (s : State) : (regRead r s).seq.x4 = s.seq.x4 := by
  rw [regRead_seq]

@[simp] theorem regRead_x5 (r : RegName) (s : State) : (regRead r s).seq.x5 = s.seq.x5 := by
  rw [regRead_seq]

@[simp] theorem regRead_x6 (r : RegName) (s : State) : (regRead r s).seq.x6 = s.seq.x6 := by
  rw [regRead_seq]

@[simp] theorem regRead_x7 (r : RegName) (s : State) : (regRead r s).seq.x7 = s.seq.x7 := by
  rw [regRead_seq]

@[simp] theorem regRead_x8 (r : RegName) (s : State) : (regRead r s).seq.x8 = s.seq.x8 := by
  rw [regRead_seq]

@[simp] theorem regRead_x9 (r : RegName) (s : State) : (regRead r s).seq.x9 = s.seq.x9 := by
  rw [regRead_seq]

@[simp] theorem regRead_x11 (r : RegName) (s : State) : (regRead r s).seq.x11 = s.seq.x11 := by
  rw [regRead_seq]

@[simp] theorem regRead_tp (r : RegName) (s : State) : (regRead r s).seq.tp = s.seq.tp := by
  rw [regRead_seq]

/-- Only a read of `RDATA` touches a queue (R68). -/
theorem regRead_dev (r : RegName) (s : State) (h : r ≠ .rdata) : (regRead r s).dev = s.dev := by
  obtain ⟨v, e, j, hs, -⟩ := regRead_effect r s; rw [hs]; simp [h]

theorem regRead_rdata_rxq (s : State) : (regRead .rdata s).dev.rxq = s.dev.rxq.tail := by
  obtain ⟨v, e, j, hs, -⟩ := regRead_effect .rdata s; rw [hs]; simp

theorem regRead_vis (r : RegName) (s : State) (h : s.view.vis ≤ s.view.hist.length) :
    s.view.vis ≤ (regRead r s).view.vis ∧ (regRead r s).view.vis ≤ s.view.hist.length := by
  obtain ⟨v, e, j, hs, hj⟩ := regRead_effect r s; rw [hs]; exact hj h

/-! ## Values read -/

theorem getLsbD_withDraw (mask stored draw : Word) (k : Nat) :
    (withDraw mask stored draw).getLsbD k = if mask.getLsbD k then stored.getLsbD k else (decide (k < 32) && draw.getLsbD k) := by
  simp only [withDraw, BitVec.getLsbD_or, BitVec.getLsbD_and, BitVec.getLsbD_not]
  cases mask.getLsbD k <;> simp [Bool.and_comm]

/-- The four queue bits, for any four conditions. -/
theorem queueBits (p q r t : Prop) [Decidable p] [Decidable q] [Decidable r] [Decidable t] :
    let w : Word := (if p then 0x01#32 else 0#32) ||| (if q then 0x02#32 else 0#32) |||
      (if r then 0x04#32 else 0#32) ||| (if t then 0x20#32 else 0#32)
    w.getLsbD 0 = decide p ∧ w.getLsbD 1 = decide q ∧ w.getLsbD 2 = decide r ∧ w.getLsbD 5 = decide t := by
  by_cases hp : p <;> by_cases hq : q <;> by_cases hr : r <;> by_cases ht : t <;> simp [hp, hq, hr, ht]

theorem fifoStatus_fmtFull (c : Params) (m n : Nat) : statusBit (fifoStatus c m n) 0 = decide (m = c.fmtDepth) := 
  (queueBits _ _ _ _).1

theorem fifoStatus_rxFull (c : Params) (m n : Nat) : statusBit (fifoStatus c m n) 1 = decide (n = c.rxDepth) := 
  (queueBits _ _ _ _).2.1

theorem fifoStatus_fmtEmpty (c : Params) (m n : Nat) : statusBit (fifoStatus c m n) 2 = decide (m = 0) := 
  (queueBits _ _ _ _).2.2.1

theorem fifoStatus_rxEmpty (c : Params) (m n : Nat) : statusBit (fifoStatus c m n) 5 = decide (n = 0) := 
  (queueBits _ _ _ _).2.2.2

/-- A read of `STATUS` gives the visible queue bits, whatever the draw. -/
theorem statusBit_read (s : State) (k : Nat) (h : statusFifoMask.getLsbD k = true) :
    statusBit (regRead .status s).seq.x10 k = statusBit (visible s).1.status k := by
  simp only [regRead, readStatus, statusBit, getLsbD_withDraw, h, if_true]

/-- Under `exact` a poll sees whether the format FIFO is full now (R74, R209). -/
theorem poll_full_exact (s : State) (h : s.cfg.visibility = .exact) :
    statusBit (regRead .status s).seq.x10 statusFmtFull = decide (s.dev.fmtq.length = s.cfg.fmtDepth) := by
  rw [statusBit_read s statusFmtFull (by decide), visible_exact s h]
  exact fifoStatus_fmtFull _ _ _

/-- Under `exact` a poll sees whether the format FIFO is empty now (R74, R209). -/
theorem poll_empty_exact (s : State) (h : s.cfg.visibility = .exact) :
    statusBit (regRead .status s).seq.x10 statusFmtEmpty = decide (s.dev.fmtq.length = 0) := by
  rw [statusBit_read s statusFmtEmpty (by decide), visible_exact s h]
  exact fifoStatus_fmtEmpty _ _ _

/-! ## Register writes -/

/-- Everything a register write can do (R68, R80). -/
theorem regWrite_cases (r : RegName) (v : Word) (s : State) :
    (r = .fdata ∧ s.dev.fmtq.length < s.cfg.fmtDepth ∧
      regWrite r v s = .ok { s with dev.fmtq := s.dev.fmtq ++ [fdataWord v],
                                    log.pushes := s.log.pushes ++ [fdataWord v] }) ∨
    (r = .fdata ∧ ¬ s.dev.fmtq.length < s.cfg.fmtDepth ∧ regWrite r v s = .error .pushWhenFull) ∨
    (r = .fifoCtrl ∧ regWrite r v s = .ok (writeFifoCtrl v s)) ∨
    (r ≠ .fdata ∧ r ≠ .fifoCtrl ∧ regWrite r v s = .ok (if r.unused then s else storeReg r v s)) := by
  by_cases h : s.dev.fmtq.length < s.cfg.fmtDepth
  · cases r <;> simp [regWrite, writeFdata, h, RegName.unused]
  · cases r <;> simp [regWrite, writeFdata, h, RegName.unused]

/-- A whole-word store of an ordinary register always succeeds (R22, R213, R214). -/
theorem regWrite_store (r : RegName) (v : Word) (s : State) (h : r ≠ .fdata) (h' : r ≠ .fifoCtrl) (hu : r.unused = false) :
    regWrite r v s = .ok (storeReg r v s) := by
  cases r <;> simp_all [regWrite, RegName.unused]

@[simp] theorem withWrite_store (r : RegName) (v : Word) (s : State) (k : State → Res) (h : r ≠ .fdata)
    (h' : r ≠ .fifoCtrl) (hu : r.unused = false) : withWrite r v s k = k (storeReg r v s) := by
  simp [withWrite, regWrite_store r v s h h' hu]

/-- Writing `FIFO_RESET_VALUE` empties both queues and stores the value (R212). -/
theorem withWrite_fifoReset (s : State) (k : State → Res) :
    withWrite .fifoCtrl s.cfg.fifoResetValue s k =
      k { s with dev := { regs := RegFile.set s.dev.regs .fifoCtrl s.cfg.fifoResetValue, fmtq := [], rxq := [] } } := by
  simp [withWrite, regWrite, writeFifoCtrl]

/-- A push with room, and a push into a full FIFO (R201, R225). -/
theorem withWrite_fdata (w : FmtWord) (s : State) (k : State → Res) :
    withWrite .fdata (fdataValue w) s k =
      if s.dev.fmtq.length < s.cfg.fmtDepth then
        k { s with dev.fmtq := s.dev.fmtq ++ [w], log.pushes := s.log.pushes ++ [w] }
      else raise .pushWhenFull s := by
  have : fdataWord (fdataValue w) = w := by
    simp [fdataWord, fdataValue, BitVec.setWidth_setWidth_of_le]
  by_cases h : s.dev.fmtq.length < s.cfg.fmtDepth <;> simp [withWrite, regWrite, writeFdata, this, h]

/-! ## The buffer -/

theorem bufRead_cases (i : Nat) (s : State) :
    (i < s.seq.buf.size ∧ bufRead i s = .ok (Memory.read s.mem (bufAddress s i))) ∨
    (¬ i < s.seq.buf.size ∧ bufRead i s = .error .bufferBound) := by
  by_cases h : i < s.seq.buf.size <;> simp [bufRead, h]

theorem bufWrite_cases (i : Nat) (b : Byte) (s : State) :
    (i < s.seq.buf.size ∧ bufWrite i b s = .ok { s with mem := Memory.write s.mem (bufAddress s i) b }) ∨
    (¬ i < s.seq.buf.size ∧ bufWrite i b s = .error .bufferBound) := by
  by_cases h : i < s.seq.buf.size <;> simp [bufWrite, h]

/-! ## The frame of a request -/

/-- In an accepting state a request is looked at. -/
theorem operation_accept (i : Instr) (a m : State → Res) (s : State) (h : s.seq.pc.accepting = true) :
    operation i a m s = a s := by simp [operation, h]

/-- The operation in progress takes its next micro-state step. -/
theorem operation_micro (i : Instr) (a m : State → Res) (s : State) (h : s.seq.pc.accepting = false)
    (hc : s.seq.cur = some i) : operation i a m s = m s := by simp [operation, h, hc]

/-- Any other request is not accepted. -/
theorem operation_busy (i : Instr) (a m : State → Res) (s : State) (h : s.seq.pc.accepting = false)
    (hc : s.seq.cur ≠ some i) : operation i a m s = .refused .busy := by simp [operation, h, hc]

end Sys2Proof.Machine
end

