-- ==== Sys2Proof/Laws/Device.lean ====
section
/-!
SUPPORT. What the device's execution of a format word does, in one equation per kind of word, and the flags of the words
that the block emits. Whatever the word, execution is `performWord`.
-/

namespace Sys2Proof.Machine

/-! ## The flags of the emitted words (R93 to R96) -/

theorem addressWord_flags : ∀ (a : BitVec 7) (rw : Bool),
    (addressWord a rw).start = true ∧ (addressWord a rw).stop = false ∧ (addressWord a rw).readb = false ∧
    (addressWord a rw).nakok = false ∧ (addressWord a rw).byte = a ++ BitVec.ofBool rw ∧
    (addressWord a rw).rcont = false := by decide +kernel

theorem dataWord_flags : ∀ (d : Byte) (stop : Bool),
    (dataWord stop d).start = false ∧ (dataWord stop d).stop = stop ∧ (dataWord stop d).readb = false ∧
    (dataWord stop d).nakok = false ∧ (dataWord stop d).byte = d ∧ (dataWord stop d).rcont = false := by decide +kernel

theorem readLengthWord_flags : ∀ (n : Byte) (last : Bool),
    (readLengthWord last n).start = false ∧ (readLengthWord last n).stop = last ∧
    (readLengthWord last n).readb = true ∧ (readLengthWord last n).rcont = false ∧
    (readLengthWord last n).byte = n ∧ (readLengthWord last n).nakok = false := by decide +kernel

/-! ## Transmit words (R204, R205) -/

/-- Everything a transmit word does. -/
theorem performWord_transmit (w : FmtWord) (s : State) (h : w.readb = false) :
    performWord w s = { (drawAck s).2 with
      dev.regs.intrState := if (drawAck s).1 = true ∨ w.nakok = true then s.dev.regs.intrState
        else s.dev.regs.intrState ||| (1#32 <<< s.cfg.flags.nak.toNat)
      log.buslog := s.log.buslog ++ (if w.start then [.start] else []) ++ [.tx w.byte (drawAck s).1] ++
        (if w.stop then [.stop] else []) } := by
  obtain ⟨e, he⟩ := drawAck_effect s
  simp only [performWord, h, transmit, raiseFlag, storeReg, observe, busCondition, he]
  cases (drawAck s).1 <;> cases w.nakok <;> simp [RegFile.set, setFlag, flagBit]

/-! ## Receive words (R206, R207) -/

/-- Everything the reception of `n` bytes does; the bytes are those of the input list as far as it goes. -/
theorem receiveBytes_eq (n : Nat) : ∀ s : State, ∃ (bs : List Byte) (e : Env),
    bs.length = n ∧
    (∀ given more, s.env.rxBytes = given ++ more → given.length = n → bs = given ∧ e.rxBytes = more) ∧
    e.sched = s.env.sched ∧
    receiveBytes n s = { s with
      env := e
      dev := { s.dev with
        rxq := s.dev.rxq ++ bs.take (s.cfg.rxDepth - s.dev.rxq.length)
        regs.intrState := if n = 0 ∨ s.dev.rxq.length + n ≤ s.cfg.rxDepth then s.dev.regs.intrState
          else s.dev.regs.intrState ||| (1#32 <<< s.cfg.flags.rxOverflow.toNat) }
      log.buslog := s.log.buslog ++ bs.map BusEvent.rx } := by
  induction n with
  | zero =>
    intro s
    refine ⟨[], s.env, rfl, fun given more h hl => ?_, rfl, by simp [receiveBytes]⟩
    obtain rfl := List.length_eq_zero_iff.mp hl
    exact ⟨rfl, by simpa using h⟩
  | succ n ih =>
    intro s
    obtain ⟨bs, e, h1, h2, h3, h4⟩ := ih (receiveByte s)
    obtain ⟨ed, hed⟩ := drawByte_effect s
    have env : (drawByte s).2.env = ed := by rw [hed]
    have sched : ed.sched = s.env.sched := by rw [← env]; unfold drawByte; split <;> rfl
    have drawn : ∀ g more, s.env.rxBytes = g :: more → (drawByte s).1 = g ∧ ed.rxBytes = more := by
      intro g more hm; rw [← env]; simp [drawByte, hm]
    have one : receiveByte s =
        if s.dev.rxq.length < s.cfg.rxDepth then
          { s with env := ed, dev.rxq := s.dev.rxq ++ [(drawByte s).1],
                   log.buslog := s.log.buslog ++ [.rx (drawByte s).1] }
        else
          { s with env := ed,
                   dev.regs.intrState := s.dev.regs.intrState ||| (1#32 <<< s.cfg.flags.rxOverflow.toNat),
                   log.buslog := s.log.buslog ++ [.rx (drawByte s).1] } := by
      simp only [receiveByte, hed, observe, raiseFlag, storeReg, RegFile.set, setFlag, flagBit]
      split <;> simp
    refine ⟨(drawByte s).1 :: bs, e, by simp [h1], fun given more hm hl => ?_, ?_, ?_⟩
    · rcases given with _ | ⟨g, gs⟩
      · simp at hl
      · have hg := drawn g (gs ++ more) hm
        have hq := h2 gs more (by rw [one]; split <;> exact hg.2) (by simpa using hl)
        exact ⟨by rw [hg.1, hq.1], hq.2⟩
    · rw [h3, one]; split <;> exact sched
    · rw [show receiveBytes (n + 1) s = receiveBytes n (receiveByte s) from rfl, h4, one]
      split
      · rename_i hlt
        obtain ⟨k, hk⟩ : ∃ k, s.cfg.rxDepth - s.dev.rxq.length = k + 1 := ⟨s.cfg.rxDepth - s.dev.rxq.length - 1, by omega⟩
        have hk2 : s.cfg.rxDepth - (s.dev.rxq.length + 1) = k := by omega
        have hc : (s.dev.rxq.length + 1 + n ≤ s.cfg.rxDepth) ↔ (s.dev.rxq.length + (n + 1) ≤ s.cfg.rxDepth) := by omega
        by_cases hn : n = 0
        · subst hn; simp [hk, hk2]; omega
        · simp [hk, hk2, hn, hc]
      · rename_i hlt
        by_cases hn : n = 0
        · subst hn
          simp [show s.cfg.rxDepth - s.dev.rxq.length = 0 by omega, show ¬ s.dev.rxq.length + 1 ≤ s.cfg.rxDepth by omega]
        · simp [hn, show s.cfg.rxDepth - s.dev.rxq.length = 0 by omega,
            show ¬ s.dev.rxq.length + (n + 1) ≤ s.cfg.rxDepth by omega,
            show ¬ s.dev.rxq.length + n ≤ s.cfg.rxDepth by omega, BitVec.or_assoc]

/-- A receive word asks for at least one byte. -/
theorem receiveCount_ne_zero (w : FmtWord) : receiveCount w ≠ 0 := by
  unfold receiveCount
  split
  · decide
  · exact fun h => ‹¬ _› (BitVec.eq_of_toNat_eq h)

/-- Everything a receive word does. -/
theorem performWord_receive (w : FmtWord) (s : State) (h : w.readb = true) : ∃ (bs : List Byte) (e : Env),
    bs.length = receiveCount w ∧
    (∀ given more, s.env.rxBytes = given ++ more → given.length = receiveCount w → bs = given ∧ e.rxBytes = more) ∧
    e.sched = s.env.sched ∧
    performWord w s = { s with
      env := e
      dev := { s.dev with
        rxq := s.dev.rxq ++ bs.take (s.cfg.rxDepth - s.dev.rxq.length)
        regs.intrState := if s.dev.rxq.length + bs.length ≤ s.cfg.rxDepth then s.dev.regs.intrState
          else s.dev.regs.intrState ||| (1#32 <<< s.cfg.flags.rxOverflow.toNat) }
      log.buslog := s.log.buslog ++ (if w.start then [.start] else []) ++ bs.map BusEvent.rx ++
        (if w.rcont then [] else [.hostNak]) ++ (if w.stop then [.stop] else []) } := by
  obtain ⟨bs, e, h1, h2, h3, h4⟩ := receiveBytes_eq (receiveCount w) (observe (busCondition w.start .start) s)
  refine ⟨bs, e, h1, h2, h3, ?_⟩
  simp only [performWord, h, receive, if_true]
  rw [h4]
  simp only [observe, busCondition, h1, receiveCount_ne_zero]
  cases w.start <;> cases w.rcont <;> cases w.stop <;> simp

/-! ## Any word (R203, R216) -/

/-- A format word is its six fields. -/
theorem fmtWord_ext {v w : FmtWord} (a : v.byte = w.byte) (b : v.start = w.start) (c : v.stop = w.stop)
    (d : v.readb = w.readb) (e : v.rcont = w.rcont) (f : v.nakok = w.nakok) : v = w := by
  apply BitVec.eq_of_getLsbD_eq
  intro k hk
  have g : ∀ j, v.byte.getLsbD j = w.byte.getLsbD j := by simp [a]
  simp only [FmtWord.byte, BitVec.getLsbD_extractLsb', Nat.zero_add] at g
  simp only [FmtWord.start, FmtWord.stop, FmtWord.readb, FmtWord.rcont, FmtWord.nakok] at b c d e f
  by_cases low : k < 8
  · simpa [low] using g k
  · have : k = 8 ∨ k = 9 ∨ k = 10 ∨ k = 11 ∨ k = 12 := by omega
    rcases this with rfl | rfl | rfl | rfl | rfl <;> assumption

/-- The byte of an address word is the address above the direction bit. -/
theorem byte_split (w : FmtWord) : w.byte = w.extractLsb' 1 7 ++ BitVec.ofBool (w.getLsbD 0) := by
  apply BitVec.eq_of_getLsbD_eq
  intro k hk
  simp only [FmtWord.byte, BitVec.getLsbD_extractLsb', BitVec.getLsbD_append, BitVec.getLsbD_ofBool]
  rcases k with _ | k
  · simp
  · simp [show k < 7 by omega, Nat.add_comm, hk]

/-- A decoded format word is the encoding of its instruction. -/
theorem encode_of_decodeFormat {w : FmtWord} {i : Instr} (h : decodeFormat w = .ok i) : encode i = .format w := by
  unfold decodeFormat at h
  repeat' split at h
  all_goals cases h
  all_goals
    refine congrArg Fetched.format (fmtWord_ext ?_ ?_ ?_ ?_ ?_ ?_) <;>
    simp_all [addressWord_flags, dataWord_flags, readLengthWord_flags, byte_split w]

/-- Executing a word is performing it by its flags, whether or not it is one of the six forms. -/
theorem executeWord_eq (w : FmtWord) (s : State) : executeWord w s = .next (performWord w s) := by
  unfold executeWord
  cases hi : decodeFormat w with
  | error _ => rfl
  | ok i =>
    have he := encode_of_decodeFormat hi
    cases i <;> simp only [encode, Fetched.format.injEq, reduceCtorEq] at he <;> subst he <;> rfl

end Sys2Proof.Machine
end

