-- ==== Sys2Proof/Laws/Engine.lean ====
section
/-!
SUPPORT. What the frame of a request and `blocking_push` can do when they answer a next state, the writes of the registers
that only store, and the number of steps of an operation.
-/

namespace Sys2Proof.Machine

/-! ## Stores (R22, R213, R214) -/

theorem withWrite_ctrl (v : Word) (s : State) (k : State → Res) : withWrite .ctrl v s k = k (storeReg .ctrl v s) :=
  withWrite_store _ _ _ _ (by decide) (by decide) rfl

theorem withWrite_hostFifoConfig (v : Word) (s : State) (k : State → Res) :
    withWrite .hostFifoConfig v s k = k (storeReg .hostFifoConfig v s) :=
  withWrite_store _ _ _ _ (by decide) (by decide) rfl

theorem withWrite_intrState (v : Word) (s : State) (k : State → Res) :
    withWrite .intrState v s k = k (storeReg .intrState v s) :=
  withWrite_store _ _ _ _ (by decide) (by decide) rfl

theorem withWrite_intrEnable (v : Word) (s : State) (k : State → Res) :
    withWrite .intrEnable v s k = k (storeReg .intrEnable v s) :=
  withWrite_store _ _ _ _ (by decide) (by decide) rfl

theorem withWrite_timing (j : Fin 5) (v : Word) (s : State) (k : State → Res) :
    withWrite (timingReg j) v s k = k (storeReg (timingReg j) v s) :=
  withWrite_store _ _ _ _ (by fin_cases j <;> decide) (by fin_cases j <;> decide) (by fin_cases j <;> rfl)

/-! ## Requests -/

/-- A request answers a next state by its acceptance or by the next micro-state step of the same operation. -/
theorem operation_next (i : Instr) (a m : State → Res) (s t : State) (h : operation i a m s = .next t) :
    (s.seq.pc.accepting = true ∧ a s = .next t) ∨
    (s.seq.pc.accepting = false ∧ s.seq.cur = some i ∧ m s = .next t) := by
  by_cases ha : s.seq.pc.accepting = true
  · rw [operation_accept i a m s ha] at h; exact .inl ⟨ha, h⟩
  · have ha : s.seq.pc.accepting = false := by simpa using ha
    by_cases hc : s.seq.cur = some i
    · rw [operation_micro i a m s ha hc] at h; exact .inr ⟨ha, hc, h⟩
    · rw [operation_busy i a m s ha hc] at h; cases h

/-- One more step of an operation. -/
theorem execTimes_succ (i : Instr) (n : Nat) (s t : State) (h : exec i s = .next t) :
    execTimes i (n + 1) s = execTimes i n t := by simp [execTimes, h]

/-! ## `blocking_push` (R142) -/

/-- A poll of `STATUS`: everything it changes. -/
theorem pollFull_next (stay next : Pc) (s : State) :
    ∃ v e j, pollFull stay next s = .next { s with
        seq := { s.seq with x10 := v, pc := if statusBit v statusFmtFull then stay else next }
        env := e, view := { s.view with vis := j } } ∧
      v = (regRead .status s).seq.x10 ∧
      (s.view.vis ≤ s.view.hist.length → s.view.vis ≤ j ∧ j ≤ s.view.hist.length) := by
  obtain ⟨v, e, j, h, hj⟩ := regRead_effect .status s
  refine ⟨v, e, j, ?_, by rw [h], hj⟩
  simp only [pollFull, goto, withPc, h]
  simp

/-- The push that a poll micro-state of `blocking_push` leads to. -/
def Pc.pollTarget : Pc → Option Pc
  | .wStartPoll => some .wStartPush
  | .wDataPoll => some .wDataPush
  | .rStartPoll => some .rStartPush
  | .rLenPoll => some .rLenPush
  | _ => none

/-- Everything `blocking_push` can do: a poll, a push, or the fault of a push into a full FIFO. -/
theorem blockingPushStep_next (w : FmtWord) (also : State → State) (s t : State)
    (h : blockingPushStep w also s = .next t) :
    (∃ next v e j, s.seq.pc.pollTarget = some next ∧ v = (regRead .status { s with seq.x7 := w }).seq.x10 ∧
      (s.view.vis ≤ s.view.hist.length → s.view.vis ≤ j ∧ j ≤ s.view.hist.length) ∧
      t = { s with
        seq := { s.seq with x10 := v, x7 := w, pc := if statusBit v statusFmtFull then s.seq.pc else next }
        env := e, view := { s.view with vis := j } }) ∨
    (s.seq.pc.pushing = true ∧ s.dev.fmtq.length < s.cfg.fmtDepth ∧
      t = also (returnTo (returnPoint s) { s with
        seq := { s.seq with x7 := w }, dev.fmtq := s.dev.fmtq ++ [w], log.pushes := s.log.pushes ++ [w] })) ∨
    (s.seq.pc.pushing = true ∧ ¬ s.dev.fmtq.length < s.cfg.fmtDepth ∧ t = faulted .pushWhenFull { s with seq.x7 := w }) := by
  have poll : ∀ a b, s.seq.pc = a → pollFull a b { s with seq.x7 := w } = .next t →
      ∃ v e j, v = (regRead .status { s with seq.x7 := w }).seq.x10 ∧
        (s.view.vis ≤ s.view.hist.length → s.view.vis ≤ j ∧ j ≤ s.view.hist.length) ∧
        t = { s with
          seq := { s.seq with x10 := v, x7 := w, pc := if statusBit v statusFmtFull then s.seq.pc else b }
          env := e, view := { s.view with vis := j } } := by
    intro a b ha hp
    obtain ⟨v, e, j, hn, hv, hj⟩ := pollFull_next a b { s with seq.x7 := w }
    rw [hn] at hp; cases hp; exact ⟨v, e, j, hv, hj, by rw [ha]⟩
  have push : pushStep w also s = .next t →
      (s.dev.fmtq.length < s.cfg.fmtDepth ∧ t = also (returnTo (returnPoint s) { s with
        seq := { s.seq with x7 := w }, dev.fmtq := s.dev.fmtq ++ [w], log.pushes := s.log.pushes ++ [w] })) ∨
      (¬ s.dev.fmtq.length < s.cfg.fmtDepth ∧ t = faulted .pushWhenFull { s with seq.x7 := w }) := by
    intro hp
    rw [pushStep, withWrite_fdata] at hp
    split at hp
    · cases hp; exact .inl ⟨‹_›, rfl⟩
    · cases hp; exact .inr ⟨‹_›, rfl⟩
  unfold blockingPushStep at h
  split at h
  iterate 4
    rename_i hp
    obtain ⟨v, e, j, hv, hj, ht⟩ := poll _ _ hp h
    exact .inl ⟨_, v, e, j, by rw [hp]; rfl, hv, hj, ht⟩
  iterate 4
    rename_i hp
    rcases push h with ⟨a, b⟩ | ⟨a, b⟩
    · exact .inr (.inl ⟨by rw [hp]; rfl, a, b⟩)
    · exact .inr (.inr ⟨by rw [hp]; rfl, a, b⟩)
  cases h

end Sys2Proof.Machine
end

