-- ==== Sys2Proof/Laws/Flags.lean ====
section
/-!
SUPPORT. The flag masks bit by bit (R106), and what the reads of the interrupt registers give for the bits of flags (R109).
-/

namespace Sys2Proof.Machine

/-- The mask of a flag has one bit. -/
theorem getLsbD_flagBit (sel : BitVec 5) (k : Nat) :
    (1#32 <<< sel.toNat).getLsbD k = decide (k = sel.toNat) := by
  rw [BitVec.getLsbD_shiftLeft, BitVec.getLsbD_one]
  rcases Nat.lt_trichotomy k sel.toNat with h | h | h
  · simp [h, Nat.ne_of_lt h]
  · simp [h, sel.isLt]
  · have h1 : k - sel.toNat ≠ 0 := by omega
    have h2 : k ≠ sel.toNat := by omega
    simp [h1, h2]

/-- The test of a flag is its bit (R106). -/
theorem flagSet_eq_getLsbD (word : Word) (sel : BitVec 5) : flagSet word sel = word.getLsbD sel.toNat := by
  have bit : ∀ k, (word &&& flagBit sel).getLsbD k = (word.getLsbD k && decide (k = sel.toNat)) := by
    intro k; rw [BitVec.getLsbD_and, flagBit, getLsbD_flagBit]
  rw [flagSet, Bool.eq_iff_iff, decide_eq_true_iff]
  constructor
  · intro h
    by_contra hb
    refine h (BitVec.eq_of_getLsbD_eq fun k _ => ?_)
    rw [bit k]
    by_cases hs : k = sel.toNat
    · simp [hs, Bool.eq_false_iff.mpr hb]
    · simp [hs]
  · intro hb h0
    have := bit sel.toNat
    simp [h0, hb] at this

/-- The union of some flags' masks, bit by bit. -/
theorem getLsbD_foldl_flagBit (l : List (BitVec 5)) : ∀ (m : Word) (k : Nat),
    (l.foldl (fun m p => m ||| flagBit p) m).getLsbD k = (m.getLsbD k || decide (∃ p ∈ l, p.toNat = k)) := by
  induction l with
  | nil => simp
  | cons a l ih =>
    intro m k
    have h : decide (∃ p ∈ a :: l, p.toNat = k) = (decide (k = a.toNat) || decide (∃ p ∈ l, p.toNat = k)) := by
      simp [eq_comm]
    rw [List.foldl_cons, ih, BitVec.getLsbD_or, flagBit, getLsbD_flagBit, h, Bool.or_assoc]

/-- The bit of a flag is not reserved. -/
theorem getLsbD_flagMask (c : Params) (p : BitVec 5) (h : p ∈ c.flags.positions) :
    (flagMask c).getLsbD p.toNat = true := by
  rw [flagMask, getLsbD_foldl_flagBit]
  have : ∃ q ∈ c.flags.positions, q.toNat = p.toNat := ⟨p, h, rfl⟩
  simp [this]

/-- `Nak` and `RxOverflow` are flags. -/
theorem nak_mem (f : FlagMap) : f.nak ∈ f.positions := by simp [FlagMap.positions]
theorem rxOverflow_mem (f : FlagMap) : f.rxOverflow ∈ f.positions := by simp [FlagMap.positions]

/-- A read of `INTR_STATE` gives the flags as visible, whatever the draw. -/
theorem readIntrState_flag (s : State) (p : BitVec 5) (hp : p ∈ s.cfg.flags.positions) :
    (regRead .intrState s).seq.x10.getLsbD p.toNat = (visible s).1.intrState.getLsbD p.toNat := by
  simp only [regRead, readIntrState, getLsbD_withDraw, getLsbD_flagMask _ _ hp, if_true]

/-- A read of `INTR_ENABLE` gives the stored word and changes nothing else, whatever the visibility. -/
theorem regRead_intrEnable (s : State) :
    regRead .intrEnable s = { s with seq.x10 := s.dev.regs.intrEnable } := rfl

/-- The bits of the two threshold fields. -/
theorem getLsbD_thresholdMask (c : Params) (k : Nat) :
    (thresholdMask c).getLsbD k = (decide (k < 32) &&
      (decide (c.fmtThreshShift ≤ k ∧ k < c.fmtThreshShift + 12) ||
       decide (c.rxThreshShift ≤ k ∧ k < c.rxThreshShift + 12))) := by
  have ones : ∀ j : Nat, (0xFFF#32).getLsbD j = decide (j < 12) := by
    intro j
    by_cases h : j < 32
    · interval_cases j <;> rfl
    · rw [BitVec.getLsbD_of_ge _ _ (by omega)]; simp; omega
  have field : ∀ n : Nat, ((0xFFF#32 &&& 0xFFF#32) <<< n).getLsbD k = (decide (k < 32) && decide (n ≤ k ∧ k < n + 12)) := by
    intro n
    rw [BitVec.and_self, BitVec.getLsbD_shiftLeft, ones, Bool.eq_iff_iff]
    simp; omega
  rw [thresholdMask, thresholdWord, BitVec.getLsbD_or, field, field, Bool.and_or_distrib_left]

/-- A read of `HOST_FIFO_CONFIG` gives the threshold fields as stored, whatever the draw (R109). -/
theorem readHostFifoConfig_field (s : State) (k : Nat) (h : (thresholdMask s.cfg).getLsbD k = true) :
    (regRead .hostFifoConfig s).seq.x10.getLsbD k = s.dev.regs.hostFifoConfig.getLsbD k := by
  simp only [regRead, readHostFifoConfig, getLsbD_withDraw, h, if_true]

end Sys2Proof.Machine
end

