-- ==== Sys2Proof/Laws/Memory.lean ====
section
/-!
SUPPORT. The caller's memory: reading after writing, and the canonical form, which every write keeps.
-/

namespace Sys2Proof.Machine

theorem Memory.read_of_all_above (m : Memory) (a : Nat) (h : ∀ c ∈ m, a < c.1) : Memory.read m a = Memory.blank := by
  induction m with
  | nil => rfl
  | cons c rest ih =>
    obtain ⟨k, v⟩ := c
    have hk : a < k := h (k, v) (by simp)
    simp only [Memory.read]
    rw [if_neg (by omega), ih (fun c hc => h c (by simp [hc]))]

theorem Memory.wf_cons (a : Nat) (b : Byte) (rest : Memory) :
    Memory.wf ((a, b) :: rest) = true ↔ b ≠ Memory.blank ∧ (∀ c ∈ rest, a < c.1) ∧ Memory.wf rest = true := by
  simp [Memory.wf, and_assoc]

theorem Memory.lt_of_mem_write (m : Memory) (a k : Nat) (b : Byte) (hk : k < a) (h : ∀ c ∈ m, k < c.1) :
    ∀ c ∈ Memory.write m a b, k < c.1 := by
  induction m with
  | nil =>
    intro c hc
    simp only [Memory.write] at hc
    split at hc <;> simp_all
  | cons d rest ih =>
    obtain ⟨j, v⟩ := d
    have hj : k < j := h (j, v) (by simp)
    have hr : ∀ c ∈ rest, k < c.1 := fun c hc => h c (by simp [hc])
    intro c hc
    simp only [Memory.write] at hc
    split at hc
    · split at hc
      · exact h c hc
      · rcases List.mem_cons.mp hc with rfl | hc
        · exact hk
        · exact h c hc
    · split at hc
      · split at hc
        · exact hr c hc
        · rcases List.mem_cons.mp hc with rfl | hc
          · exact hk
          · exact hr c hc
      · rcases List.mem_cons.mp hc with rfl | hc
        · exact hj
        · exact ih hr c hc

/-- A write keeps the canonical form. -/
theorem Memory.wf_write (m : Memory) (a : Nat) (b : Byte) (h : Memory.wf m = true) :
    Memory.wf (Memory.write m a b) = true := by
  induction m with
  | nil =>
    simp only [Memory.write]
    split <;> simp_all [Memory.wf]
  | cons d rest ih =>
    obtain ⟨k, v⟩ := d
    have ⟨hv, hk, hr⟩ := (Memory.wf_cons k v rest).mp h
    simp only [Memory.write]
    split
    · split
      · exact h
      · refine (Memory.wf_cons a b _).mpr ⟨‹_›, ?_, h⟩
        intro c hc
        rcases List.mem_cons.mp hc with rfl | hc
        · assumption
        · exact lt_trans ‹a < k› (hk c hc)
    · split
      · split
        · exact hr
        · exact (Memory.wf_cons a b _).mpr ⟨‹_›, fun c hc => ‹a = k› ▸ hk c hc, hr⟩
      · exact (Memory.wf_cons k v _).mpr ⟨hv, Memory.lt_of_mem_write rest a k b (by omega) hk, ih hr⟩

/-- A read after a write to the same address gives the byte written. -/
theorem Memory.read_write_self (m : Memory) (a : Nat) (b : Byte) (h : Memory.wf m = true) :
    Memory.read (Memory.write m a b) a = b := by
  induction m with
  | nil => by_cases hb : b = Memory.blank <;> simp [Memory.write, Memory.read, hb]
  | cons d rest ih =>
    obtain ⟨k, v⟩ := d
    have ⟨_, hk, hr⟩ := (Memory.wf_cons k v rest).mp h
    simp only [Memory.write]
    split
    · split
      · rw [Memory.read_of_all_above _ a, ‹b = Memory.blank›]
        intro c hc
        rcases List.mem_cons.mp hc with rfl | hc
        · assumption
        · exact lt_trans ‹a < k› (hk c hc)
      · simp [Memory.read]
    · split
      · split
        · rw [Memory.read_of_all_above _ a (fun c hc => ‹a = k› ▸ hk c hc), ‹b = Memory.blank›]
        · simp [Memory.read]
      · simp only [Memory.read]
        rw [if_neg (by omega), ih hr]

/-- A write leaves every other address alone. -/
theorem Memory.read_write_other (m : Memory) (a c : Nat) (b : Byte) (h : Memory.wf m = true) (hc : c ≠ a) :
    Memory.read (Memory.write m a b) c = Memory.read m c := by
  induction m with
  | nil => simp only [Memory.write]; split <;> simp [Memory.read, Ne.symm hc]
  | cons d rest ih =>
    obtain ⟨k, v⟩ := d
    have ⟨_, _, hr⟩ := (Memory.wf_cons k v rest).mp h
    simp only [Memory.write]
    split
    · split
      · rfl
      · simp [Memory.read, Ne.symm hc]
    · split
      · have hkc : k ≠ c := by omega
        split <;> simp [Memory.read, hkc, Ne.symm hc]
      · simp only [Memory.read, ih hr]

end Sys2Proof.Machine
end

