-- ==== Sys2Proof/Laws/PerInstr.lean ====
section
/-!
SUPPORT. The family TableRow: for every constructor, the encoding of every operand value matches the row of
spec/opcode_table.json that stands for it, its mask and match copied from there. `blocking_push` has a row without bits.
-/

namespace Sys2Proof.Laws

/-- The mask and match of a row: 81 bits for a request, 13 for a format word, none for the internal primitive. -/
inductive Row where
  | request (mask value : ReqWord)
  | format (mask value : FmtWord)
  | noBits

/-- The rows of the opcode table. -/
def rowOf : Instr → Row
  | .resetFifos => .request 0x1E0000000000000000000 0x000000000000000000000
  | .setHostMode => .request 0x1E0000000000000000000 0x020000000000000000000
  | .setSpeed _ => .request 0x1E0000000000000000000 0x040000000000000000000
  | .write _ _ _ => .request 0x1E0000000000000000000 0x060000000000000000000
  | .read _ _ => .request 0x1E0000000000000000000 0x080000000000000000000
  | .interruptAsserted _ => .request 0x1E0000000000000000000 0x0A0000000000000000000
  | .clearInterrupt _ => .request 0x1E0000000000000000000 0x0C0000000000000000000
  | .enableInterrupt _ => .request 0x1E0000000000000000000 0x0E0000000000000000000
  | .disableInterrupt _ => .request 0x1E0000000000000000000 0x100000000000000000000
  | .setHostThresholds _ _ => .request 0x1E0000000000000000000 0x120000000000000000000
  | .statusTest _ => .request 0x1E0000000000000000000 0x140000000000000000000
  | .unassigned11 => .request 0x1E0000000000000000000 0x160000000000000000000
  | .unassigned12 => .request 0x1E0000000000000000000 0x180000000000000000000
  | .unassigned13 => .request 0x1E0000000000000000000 0x1A0000000000000000000
  | .unassigned14 => .request 0x1E0000000000000000000 0x1C0000000000000000000
  | .unassigned15 => .request 0x1E0000000000000000000 0x1E0000000000000000000
  | .addrW _ => .format 0x1F01 0x0100
  | .addrR _ => .format 0x1F01 0x0101
  | .data _ => .format 0x1F00 0x0000
  | .dataStop _ => .format 0x1F00 0x0200
  | .rdlen _ => .format 0x1F00 0x0400
  | .rdlenStop _ => .format 0x1F00 0x0600
  | .blockingPush _ => .noBits

/-- A word matches a row. -/
def Row.matches : Row → Fetched → Prop
  | .request mask value, .request w => w &&& mask = value
  | .format mask value, .format w => w &&& mask = value
  | .noBits, .internal _ => True
  | _, _ => False

/-- The encoding of the instruction matches its row. -/
def TableRow.Statement (i : Instr) : Prop := Row.matches (rowOf i) (encode i)

/-- The table's mask of a request keeps the select code and nothing else. -/
theorem requestWord_mask (op : BitVec 4) (a : BitVec 7) (sk : Bool) (sel : BitVec 5) (u v : Word) :
    requestWord op a sk sel u v &&& 0x1E0000000000000000000#81 = op.setWidth 81 <<< 77 := by
  have hm : (0x1E0000000000000000000#81) = (BitVec.allOnes 4).setWidth 81 <<< 77 := by decide
  rw [hm]
  refine BitVec.eq_of_getLsbD_eq fun i hi => ?_
  simp only [requestWord, BitVec.getLsbD_and, BitVec.getLsbD_append, BitVec.getLsbD_shiftLeft, BitVec.getLsbD_setWidth]
  by_cases h : i < 77
  · simp [h]
  · have h1 : ¬ i < 32 := by omega
    have h2 : ¬ i - 32 < 32 := by omega
    have h3 : ¬ i - 32 - 32 < 5 := by omega
    have h4 : ¬ i - 32 - 32 - 5 < 1 := by omega
    have h5 : ¬ i - 32 - 32 - 5 - 1 < 7 := by omega
    have h6 : i - 32 - 32 - 5 - 1 - 7 = i - 77 := by omega
    have h7 : i - 77 < 4 := by omega
    have h8 : i - 77 < 81 := by omega
    have ones : ∀ (k : Nat) (hk : k < 4), (15#4)[k] = true := by decide
    simp [h, h1, h2, h3, h4, h5, h6, h7, h8, hi, ones]

namespace TableRow

theorem resetFifos : Statement .resetFifos := requestWord_mask _ _ _ _ _ _
theorem setHostMode : Statement .setHostMode := requestWord_mask _ _ _ _ _ _
theorem setSpeed (khz : Word) : Statement (.setSpeed khz) := requestWord_mask _ _ _ _ _ _
theorem write (a : BitVec 7) (skip : Bool) (len : Word) : Statement (.write a skip len) := requestWord_mask _ _ _ _ _ _
theorem read (a : BitVec 7) (len : Word) : Statement (.read a len) := requestWord_mask _ _ _ _ _ _
theorem interruptAsserted (sel : BitVec 5) : Statement (.interruptAsserted sel) := requestWord_mask _ _ _ _ _ _
theorem clearInterrupt (sel : BitVec 5) : Statement (.clearInterrupt sel) := requestWord_mask _ _ _ _ _ _
theorem enableInterrupt (sel : BitVec 5) : Statement (.enableInterrupt sel) := requestWord_mask _ _ _ _ _ _
theorem disableInterrupt (sel : BitVec 5) : Statement (.disableInterrupt sel) := requestWord_mask _ _ _ _ _ _
theorem setHostThresholds (f r : Word) : Statement (.setHostThresholds f r) := requestWord_mask _ _ _ _ _ _
theorem statusTest (sel : BitVec 5) : Statement (.statusTest sel) := requestWord_mask _ _ _ _ _ _
theorem unassigned11 : Statement .unassigned11 := requestWord_mask _ _ _ _ _ _
theorem unassigned12 : Statement .unassigned12 := requestWord_mask _ _ _ _ _ _
theorem unassigned13 : Statement .unassigned13 := requestWord_mask _ _ _ _ _ _
theorem unassigned14 : Statement .unassigned14 := requestWord_mask _ _ _ _ _ _
theorem unassigned15 : Statement .unassigned15 := requestWord_mask _ _ _ _ _ _
theorem addrW (a : BitVec 7) : Statement (.addrW a) := by
  revert a; show ∀ a : BitVec 7, addressWord a false &&& 0x1F01#13 = 0x0100#13; decide +kernel
theorem addrR (a : BitVec 7) : Statement (.addrR a) := by
  revert a; show ∀ a : BitVec 7, addressWord a true &&& 0x1F01#13 = 0x0101#13; decide +kernel
theorem data (d : Byte) : Statement (.data d) := by
  revert d; show ∀ d : Byte, dataWord false d &&& 0x1F00#13 = 0x0000#13; decide +kernel
theorem dataStop (d : Byte) : Statement (.dataStop d) := by
  revert d; show ∀ d : Byte, dataWord true d &&& 0x1F00#13 = 0x0200#13; decide +kernel
theorem rdlen (n : Byte) : Statement (.rdlen n) := by
  revert n; show ∀ n : Byte, readLengthWord false n &&& 0x1F00#13 = 0x0400#13; decide +kernel
theorem rdlenStop (n : Byte) : Statement (.rdlenStop n) := by
  revert n; show ∀ n : Byte, readLengthWord true n &&& 0x1F00#13 = 0x0600#13; decide +kernel
theorem blockingPush (w : FmtWord) : Statement (.blockingPush w) := trivial

end TableRow

end Sys2Proof.Laws
end

