-- ==== Sys2Proof/Laws/Step.lean ====
section
/-!
SUPPORT. Everything one step of the machine can do (R11, R41, R200), agent by agent, and what the recording of values under
`monotone_stale` leaves alone.
-/

namespace Sys2Proof.Machine

section
variable (s t : State)

/-- Recording the values a step started from touches the history only (R36). -/
theorem remember_eq : ∃ h, remember s t = { t with view.hist := h } := by
  unfold remember
  split
  · exact ⟨_, rfl⟩
  · exact ⟨_, rfl⟩

@[simp] theorem remember_cfg : (remember s t).cfg = t.cfg := by obtain ⟨h, e⟩ := remember_eq s t; rw [e]
@[simp] theorem remember_seq : (remember s t).seq = t.seq := by obtain ⟨h, e⟩ := remember_eq s t; rw [e]
@[simp] theorem remember_dev : (remember s t).dev = t.dev := by obtain ⟨h, e⟩ := remember_eq s t; rw [e]
@[simp] theorem remember_mem : (remember s t).mem = t.mem := by obtain ⟨h, e⟩ := remember_eq s t; rw [e]
@[simp] theorem remember_port : (remember s t).port = t.port := by obtain ⟨h, e⟩ := remember_eq s t; rw [e]
@[simp] theorem remember_env : (remember s t).env = t.env := by obtain ⟨h, e⟩ := remember_eq s t; rw [e]
@[simp] theorem remember_log : (remember s t).log = t.log := by obtain ⟨h, e⟩ := remember_eq s t; rw [e]
@[simp] theorem remember_vis : (remember s t).view.vis = t.view.vis := by obtain ⟨h, e⟩ := remember_eq s t; rw [e]

/-- Under `exact` nothing is recorded. -/
theorem remember_exact (h : s.cfg.visibility = .exact) : remember s t = t := by simp [remember, h]

/-- The presentation of a request: no request, an accepted one, or a dropped one (R228). -/
theorem presentStep_next (h : presentStep s = .next t) :
    (s.port = [] ∧ t = s) ∨
    (∃ q rest, s.port = q :: rest ∧ s.seq.pc.accepting = true ∧
      exec (decodeRequest q.record) { s with port := rest, seq.buf := q.buf } = .next t) ∨
    (∃ q rest r, s.port = q :: rest ∧ t = dropRequest r { s with port := rest }) := by
  unfold presentStep at h
  split at h
  · cases h; exact .inl ⟨‹_›, rfl⟩
  · rename_i q rest hq
    dsimp only at h
    split at h
    · split at h
      · cases h; exact .inr (.inl ⟨q, rest, hq, ‹_›, ‹_›⟩)
      · cases h
      · cases h; exact .inr (.inr ⟨q, rest, _, hq, rfl⟩)
    · cases h; exact .inr (.inr ⟨q, rest, _, hq, rfl⟩)

/-- The device's step: the head of the format FIFO performed, or nothing (R203, R213). -/
theorem deviceExecStep_next (h : deviceExecStep s = .next t) :
    t = s ∨ ∃ w rest, hostMode s = true ∧ s.dev.fmtq = w :: rest ∧ t = performWord w { s with dev.fmtq := rest } := by
  unfold deviceExecStep at h
  split at h
  · split at h
    · cases h; exact .inl rfl
    · rename_i w rest hw
      rw [executeWord_eq] at h; cases h
      exact .inr ⟨w, rest, ‹_›, hw, rfl⟩
  · cases h; exact .inl rfl

/-- Everything the agent of a turn can do, in a state that has taken its turn. -/
theorem agentStep_next (u : Turn) (h : agentStep u s = .next t) :
    (u = .reset ∧ t = resetEvent s) ∨
    ((u = .present ∨ (u = .seq ∧ s.seq.pc.accepting = true)) ∧ presentStep s = .next t) ∨
    (u = .seq ∧ s.seq.pc.accepting = false ∧
      ((∃ i, s.seq.cur = some i ∧ exec i s = .next t) ∨
       (s.seq.cur = none ∧ exec (.blockingPush s.seq.x7) s = .next t))) ∨
    (u = .devExec ∧ deviceExecStep s = .next t) ∨
    (∃ v, u = .devFlag v ∧ t = deviceFlagStep v s) ∨
    (∃ r v, u = .devWord r v ∧ t = deviceWordStep r v s) := by
  cases u with
  | seq =>
    simp only [agentStep, sequencerStep] at h
    split at h
    · exact .inr (.inl ⟨.inr ⟨rfl, ‹_›⟩, h⟩)
    · rename_i ha
      have ha : s.seq.pc.accepting = false := by simpa using ha
      split at h
      · exact .inr (.inr (.inl ⟨rfl, ha, .inl ⟨_, ‹_›, h⟩⟩))
      · exact .inr (.inr (.inl ⟨rfl, ha, .inr ⟨‹_›, h⟩⟩))
  | present => exact .inr (.inl ⟨.inl rfl, h⟩)
  | devExec => exact .inr (.inr (.inr (.inl ⟨rfl, h⟩)))
  | devFlag v => cases h; exact .inr (.inr (.inr (.inr (.inl ⟨v, rfl, rfl⟩))))
  | devWord r v => cases h; exact .inr (.inr (.inr (.inr (.inr ⟨r, v, rfl, rfl⟩))))
  | reset => cases h; exact .inl ⟨rfl, rfl⟩

/-- Everything a step can do: the turn's agent moves, in `Faulted` only reset or a dropped request, and the values that the
step started from are recorded unless it is a reset. -/
theorem step_next (h : step s = .next t) :
    ((nextTurn s).1 = .reset ∧ t = resetEvent (nextTurn s).2) ∨
    ((nextTurn s).1 ≠ .reset ∧ ∃ u, t = remember (nextTurn s).2 u ∧
      (((∀ f, s.seq.pc ≠ .faulted f) ∧ agentStep (nextTurn s).1 (nextTurn s).2 = .next u) ∨
       ((∃ f, s.seq.pc = .faulted f) ∧ (nextTurn s).1 = .present ∧ presentStep (nextTurn s).2 = .next u))) := by
  have hseq : (nextTurn s).2.seq = s.seq := by unfold nextTurn; split <;> rfl
  generalize hu : (nextTurn s).1 = u at *
  generalize hs : (nextTurn s).2 = s0 at *
  have move : recordStep u s0 (match s0.seq.pc with | .faulted f => faultedStep f u s0 | _ => agentStep u s0) = .next t := by
    rw [step, turnStep, hu, hs] at h; exact h
  rw [hseq] at move
  by_cases hf : ∃ f, s.seq.pc = .faulted f
  · obtain ⟨f, hf⟩ := hf
    simp only [hf] at move
    cases u <;> simp only [faultedStep, recordStep, reduceCtorEq] at move
    case present =>
      split at move
      · cases move; exact .inr ⟨by simp, _, rfl, .inr ⟨⟨f, hf⟩, rfl, ‹_›⟩⟩
      · cases move
      · cases move
    case reset => cases move; exact .inl ⟨rfl, rfl⟩
  · have move : recordStep u s0 (agentStep u s0) = .next t := by
      revert move; cases hp : s.seq.pc <;> first | exact id | exact absurd ⟨_, hp⟩ hf
    have hf' : ∀ f, s.seq.pc ≠ .faulted f := fun f hp => hf ⟨f, hp⟩
    unfold recordStep at move
    split at move
    · rename_i v hv
      by_cases hr : u = .reset
      · subst hr; simp only [agentStep] at hv; cases hv; simp only [if_true] at move; cases move; exact .inl ⟨rfl, rfl⟩
      · rw [if_neg hr] at move; cases move
        exact .inr ⟨hr, v, rfl, .inl ⟨hf', hv⟩⟩
    · cases move
    · cases move

end

end Sys2Proof.Machine
end

