-- ==== Sys2Proof/Tests/Slice0.lean ====
section
/-!
SUPPORT. Tests: each is one step on a small state, its expected value from spec/95_test_vectors.md (the section in the
comment) or from the rule named; and for every obligation with hypotheses a witness that meets them.
-/

namespace Sys2Proof.Machine.Tests

-- One theorem after another: the kernel's answers here are short, and a thread for each at once is too many.
set_option Elab.async false

/-! ## The small states -/

/-- Reset, with inputs: an ACK, three bytes, draws of zero. -/
def base : State := { State.reset with env := ⟨[], [true], [0x0A, 0x0B, 0x0C], [0, 0, 0, 0, 0, 0], [0, 0], 0⟩ }

/-- `base` with an operation in progress at `p`. -/
def busy (p : Pc) (i : Instr) : State := { base with seq := { base.seq with pc := p, cur := some i } }

/-- `base` with the whole format FIFO but `free` words filled. -/
def filled (free : Nat) (s : State) : State := { s with dev.fmtq := List.replicate (64 - free) 0x00FF#13 }

/-- `base` under `monotone_stale`. -/
def stale (s : State) : State := { s with cfg := { s.cfg with visibility := .monotoneStale } }

/-- A `write` of two bytes in progress. -/
def writing (p : Pc) (x3 : Word) (word : FmtWord) : State :=
  { base with
    seq := { base.seq with pc := p, cur := some (.write 0x50#7 false 2#32), x0 := 0x50#7, x1 := 2#32, x3 := x3, x7 := word }
    mem := [(0, 0x10), (1, 0xAB)] }

/-- A `read` of `len` bytes in progress. -/
def reading (p : Pc) (len x3 x4 : Word) (chunk : Byte) (last : Bool) (word : FmtWord) : State :=
  { base with seq := { base.seq with
      pc := p, cur := some (.read 0x51#7 len), x0 := 0x51#7, x1 := len, x3 := x3, x4 := x4, x5 := chunk, x6 := last, x7 := word } }

/-- Something of the next state, if there is one. -/
def view {α : Type} (r : Res) (f : State → α) : Option α :=
  match r with
  | .next t => some (f t)
  | .fault _ => none
  | .refused _ => none

/-- There is a next state. -/
theorem next_of_view (r : Res) (h : view r (fun _ => ()) = some ()) : ∃ t, r = .next t := by
  cases r with
  | next t => exact ⟨t, rfl⟩
  | fault f => cases h
  | refused q => cases h

/-- The refusal, if there is one. -/
def refusal (r : Res) : Option Refusal :=
  match r with
  | .refused q => some q
  | .next _ => none
  | .fault _ => none

/-! ## WellFormed refuses what is ill formed -/

theorem test_wf_setSpeed : Instr.wf .default (.setSpeed 0) = false ∧ Instr.wf .default (.setSpeed 1) = true := by decide
theorem test_wf_interruptAsserted : Instr.wf .default (.interruptAsserted 20) = false := by decide
theorem test_wf_clearInterrupt : Instr.wf .default (.clearInterrupt 15) = false := by decide
theorem test_wf_enableInterrupt : Instr.wf .default (.enableInterrupt 31) = false := by decide
theorem test_wf_disableInterrupt : Instr.wf .default (.disableInterrupt 31) = false := by decide
theorem test_wf_statusTest : Instr.wf .default (.statusTest 11) = false ∧ Instr.wf .default (.statusTest 10) = true := by decide
theorem test_wf_unassigned :
    Instr.wf .default .unassigned11 = false ∧ Instr.wf .default .unassigned12 = false ∧
    Instr.wf .default .unassigned13 = false ∧ Instr.wf .default .unassigned14 = false ∧
    Instr.wf .default .unassigned15 = false := by decide
theorem test_wf_rdlen : Instr.wf .default (.rdlen 5) = false ∧ Instr.wf .default (.rdlen 255) = true := by decide
theorem test_wf_rdlenStop : Instr.wf .default (.rdlenStop 0) = false ∧ Instr.wf .default (.rdlenStop 45) = true := by decide
/-- The parameters' check: the thresholds must not overlap, the depths must not be zero (R7). -/
theorem test_wf_params :
    Params.default.wf = true ∧ ({ Params.default with rxThreshShift := 5 } : Params).wf = false ∧
    ({ Params.default with fmtDepth := 0 } : Params).wf = false ∧ ({ Params.default with base := 2 } : Params).wf = false := by decide

/-! ## Decoding: every constructor's word, from 95_test_vectors.md sections 3.1, 5 and 7 or written out by R100, R101 -/

theorem test_decode_resetFifos : decodeTableWord 88 0x000000000000000000000 = some .resetFifos := by decide
theorem test_decode_setHostMode : decodeTableWord 88 0x020000000000000000000 = some .setHostMode := by decide
theorem test_decode_setSpeed : decodeTableWord 88 0x04000000003E800000000 = some (.setSpeed 1000) := by decide
theorem test_decode_write : decodeTableWord 88 0x072000000000200000000 = some (.write 0x48 false 2) := by decide
theorem test_decode_read : decodeTableWord 88 0x094400000012C00000000 = some (.read 0x51 300) := by decide
theorem test_decode_interruptAsserted : decodeTableWord 88 0x0A0040000000000000000 = some (.interruptAsserted 4) := by decide
theorem test_decode_clearInterrupt : decodeTableWord 88 0x0C0040000000000000000 = some (.clearInterrupt 4) := by decide
theorem test_decode_enableInterrupt : decodeTableWord 88 0x0E0000000000000000000 = some (.enableInterrupt 0) := by decide
theorem test_decode_disableInterrupt : decodeTableWord 88 0x100000000000000000000 = some (.disableInterrupt 0) := by decide
/-- `op` 9 in bits 80:77, `arg0` 1 in bits 63:32, `arg1` 30 in bits 31:0. -/
theorem test_decode_setHostThresholds :
    decodeTableWord 88 0x12000000000010000001E = some (.setHostThresholds 1 30) := by decide
theorem test_decode_statusTest : decodeTableWord 88 0x140020000000000000000 = some (.statusTest 2) := by decide
theorem test_decode_unassigned :
    decodeTableWord 88 0x160000000000000000000 = some .unassigned11 ∧
    decodeTableWord 88 0x180000000000000000000 = some .unassigned12 ∧
    decodeTableWord 88 0x1A0000000000000000000 = some .unassigned13 ∧
    decodeTableWord 88 0x1C0000000000000000000 = some .unassigned14 ∧
    decodeTableWord 88 0x1E0000000000000000000 = some .unassigned15 := by decide
theorem test_decode_bits_above_record : decodeTableWord 88 0x200000000000000000000 = none := by decide
theorem test_decode_addrW : decodeTableWord 16 0x01FE = some (.addrW 0x7F) := by decide
theorem test_decode_addrR : decodeTableWord 16 0x0191 = some (.addrR 0x48) := by decide
theorem test_decode_data : decodeTableWord 16 0x0000 = some (.data 0) := by decide
theorem test_decode_dataStop : decodeTableWord 16 0x0200 = some (.dataStop 0) := by decide
theorem test_decode_rdlen : decodeTableWord 16 0x04FF = some (.rdlen 255) := by decide
theorem test_decode_rdlenStop : decodeTableWord 16 0x0601 = some (.rdlenStop 1) := by decide
/-- Never emitted (section 3.1, R110). -/
theorem test_decode_format_rejects :
    decodeFormat 0x0C05 = .error .rContSet ∧ decodeFormat 0x1155 = .error .nakOkSet ∧
    decodeFormat 0x0501 = .error .startWithReadB ∧ decodeFormat 0x0301 = .error .startWithStop := by decide
theorem test_decode_blockingPush : decodeTableWord 0 0 = some (.blockingPush 0) := by decide

/-! ## Fetching: the next step runs the placed instruction -/

theorem test_fetch_request :
    view (step (State.reset.withFetchWord 88 0x020000000000000000000)) (fun t => (t.seq.pc, t.seq.cur)) =
      some (.cfWr, some .setHostMode) := by decide +kernel
theorem test_fetch_format :
    view (step (base.withFetchWord 16 0x01A0)) (fun t => (t.dev.fmtq, t.log.buslog)) =
      some ([], [.start, .tx 0xA0 true]) := by decide +kernel
theorem test_fetch_internal :
    view (step (base.withFetchWord 0 0)) (fun t => (t.seq.pc, t.seq.x7)) = some (.wDataPush, 0) := by decide +kernel

/-! ## Configuration operations (section 4) -/

theorem test_resetFifos :
    view (exec .resetFifos { (busy .cfWr .resetFifos) with dev.fmtq := [0x0155], dev.rxq := [0x99] })
      (fun t => (t.dev.regs.fifoCtrl, t.dev.fmtq, t.dev.rxq)) = some (0x00000183, [], []) := by decide +kernel
theorem test_setHostMode :
    view (exec .setHostMode (busy .cfWr .setHostMode)) (fun t => (t.dev.regs.ctrl, t.seq.pc)) =
      some (0x00000001, .complete) := by decide +kernel
theorem test_setHostThresholds :
    view (exec (.setHostThresholds 0x1234 0xFFFF) (busy .cfWr (.setHostThresholds 0x1234 0xFFFF)))
      (fun t => t.dev.regs.hostFifoConfig) = some 0x02340FFF := by decide +kernel

/-! ## The Timing Calculator (section 2) -/

/-- 33333333 Hz, 100 kHz (section 2.4): both roundings, and the second clamp. -/
theorem test_setSpeed_counts :
    view (exec (.setSpeed 100) { (busy .tsCalc (.setSpeed 100)) with cfg := { base.cfg with clkHz := 33333333 } })
      (fun t => t.seq.tp) = some ⟨138, 163, 1, 5, 138, 163, 0, 9, 164, 138⟩ := by decide +kernel
/-- 50 MHz, 100 kHz (section 2.4): the last of the five writes. -/
theorem test_setSpeed_write :
    view (exec (.setSpeed 100) { (busy (.tsWr 4) (.setSpeed 100)) with
        seq.tp := ⟨200, 235, 1, 6, 200, 235, 0, 13, 236, 200⟩ })
      (fun t => (t.dev.regs.timing4, t.seq.pc)) = some (0x00EC00C8, .complete) := by decide +kernel
/-- Section 2.3, period 1: a quotient of 70000 is truncated. -/
theorem test_truncation : (BitVec.ofNat 16 (ceilDiv 70000 1) : Count) = 4464 ∧ ceilDiv 4700 29 = 163 ∧ ceilDiv 0 20 = 0 := by decide
/-- Section 2.5, second row: both clamps, each by exactly what is needed. -/
theorem test_clamp :
    ((clampCounts ⟨30, 65, 1, 6, 30, 30, 65, 5, 25, 30⟩).tLow, (clampCounts ⟨30, 65, 1, 6, 30, 30, 65, 5, 25, 30⟩).tBuf) =
      (66, 31) := by decide
/-- Section 2.6: no period at 0 Hz and above 1 GHz. -/
theorem test_zeroPeriod :
    noPeriod { Params.default with clkHz := 0 } = true ∧ noPeriod { Params.default with clkHz := 1000000001 } = true ∧
    noPeriod { Params.default with clkHz := 1000000000 } = false ∧ noPeriod { Params.default with clkHz := 1 } = false := by decide

/-! ## The engine (section 3, programs P1 and P2) -/

/-- The last byte of a `write` carries `STOP`. -/
theorem test_write_last :
    view (exec (.write 0x50 false 2) (writing .wDataPush 1 0)) (fun t => (t.dev.fmtq, t.seq.pc)) =
      some ([0x02AB], .complete) := by decide +kernel
theorem test_write_first :
    view (exec (.write 0x50 false 2) (writing .wDataPush 0 0)) (fun t => (t.dev.fmtq, t.seq.pc, t.seq.x3)) =
      some ([0x0010], .wDataPoll, 1) := by decide +kernel
/-- A 300-byte `read`: the first chunk's length word is `0x04FF`, the second's `0x062D`. -/
theorem test_read_chunks :
    view (exec (.read 0x51 300) (reading .rNakTest 300 0 300 0 false 0)) (fun t => (t.seq.x5, t.seq.x6, t.seq.x7)) =
      some (255, false, 0x04FF) ∧
    view (exec (.read 0x51 300) (reading .rNakTest 300 255 45 0 false 0)) (fun t => (t.seq.x5, t.seq.x6, t.seq.x7)) =
      some (45, true, 0x062D) := by decide +kernel
/-- The drain: the head of the receive FIFO goes to the buffer. -/
theorem test_read_drain :
    view (exec (.read 0x51 2) { (reading .rDrain 2 0 2 2 true 0) with dev.rxq := [0x12, 0x34] })
      (fun t => (t.mem, t.dev.rxq, t.seq.x8, t.seq.pc)) = some ([(0, 0x12)], [0x34], 1, .rDrain) := by decide +kernel
theorem test_blockingPush_poll_full :
    view (exec (.blockingPush 0x01A0) (filled 0 (writing .wStartPoll 0 0x01A0))) (fun t => t.seq.pc) =
      some .wStartPoll := by decide +kernel
theorem test_blockingPush_push :
    view (exec (.blockingPush 0x01A0) (writing .wStartPush 0 0x01A0)) (fun t => (t.dev.fmtq, t.seq.pc)) =
      some ([0x01A0], .wDataPoll) := by decide +kernel

/-! ## The accessor (section 5) -/

/-- Asserted and disabled tests true; the outcome keeps the result of the request (R271). -/
theorem test_interruptAsserted :
    view (exec (.interruptAsserted 4) { (busy .accRd (.interruptAsserted 4)) with dev.regs.intrState := 0x10 })
      (fun t => (t.seq.x9, t.seq.x10, t.log.outcomes)) = some (true, 0x10, [.completes (some true)]) ∧
    view (exec (.interruptAsserted 4) { (busy .accRd (.interruptAsserted 4)) with dev.regs.intrState := 0x01 })
      (fun t => t.seq.x9) = some false := by decide +kernel
theorem test_clearInterrupt_read :
    view (exec (.clearInterrupt 4) { (busy .accRd (.clearInterrupt 4)) with dev.regs.intrState := 0x91 })
      (fun t => (t.seq.x10, t.seq.pc)) = some (0x91, .accWr) := by decide +kernel
/-- The write is of the value read, whatever the register holds by then: the race of section 5. -/
theorem test_clearInterrupt_write :
    view (exec (.clearInterrupt 0) { (busy .accWr (.clearInterrupt 0)) with seq.x10 := 0x01, dev.regs.intrState := 0x11 })
      (fun t => t.dev.regs.intrState) = some 0x00 := by decide +kernel
theorem test_enableInterrupt :
    view (exec (.enableInterrupt 4) { (busy .accWr (.enableInterrupt 4)) with seq.x10 := 0x00 })
      (fun t => t.dev.regs.intrEnable) = some 0x10 := by decide +kernel
/-- Reserved enables survive a whole `enable_interrupt` (R177). -/
theorem test_enableInterrupt_reserved :
    view (execTimes (.enableInterrupt 4) 3 { base with dev.regs.intrEnable := 0xFFFF0001 })
      (fun t => t.dev.regs.intrEnable) = some 0xFFFF0011 := by decide +kernel
theorem test_disableInterrupt :
    view (exec (.disableInterrupt 4) { (busy .accWr (.disableInterrupt 4)) with seq.x10 := 0x11 })
      (fun t => t.dev.regs.intrEnable) = some 0x01 := by decide +kernel
/-- A read of the thresholds: the fields 0xFFF and 0x01E as stored, the reserved bits drawn (R109). -/
theorem test_read_hostFifoConfig :
    (regRead .hostFifoConfig { base with dev.regs.hostFifoConfig := 0x0FFF001E, env.noise := [0xF000A123] }).seq.x10 =
      0xFFFFA01E := by decide +kernel
/-- `STATUS` 0x2C: both FIFOs empty, host idle drawn. -/
theorem test_statusTest :
    view (exec (.statusTest 2) { (busy .accRd (.statusTest 2)) with env.noise := [0x08] })
      (fun t => (t.seq.x9, t.seq.x10)) = some (true, 0x2C) ∧
    view (exec (.statusTest 0) { (busy .accRd (.statusTest 0)) with env.noise := [0x08] })
      (fun t => t.seq.x9) = some false := by decide +kernel
theorem test_bad_requests :
    refusal (exec (.statusTest 11) base) = some .badRequest ∧ refusal (exec (.clearInterrupt 20) base) = some .badRequest := by
  decide +kernel
theorem test_unassigned13 : refusal (exec .unassigned13 base) = some .badRequest := by decide +kernel

/-! ## The device (section 6) -/

theorem test_addrW :
    view (exec (.addrW 0x50) base) (fun t => (t.log.buslog, t.dev.regs.intrState)) =
      some ([.start, .tx 0xA0 true], 0) := by decide +kernel
/-- A refused address byte sets `Nak`, bit 4. -/
theorem test_addrR :
    view (exec (.addrR 0x50) { base with env.acks := [false] }) (fun t => (t.log.buslog, t.dev.regs.intrState)) =
      some ([.start, .tx 0xA1 false], 0x10) := by decide +kernel
theorem test_data :
    view (exec (.data 0x10) base) (fun t => t.log.buslog) = some [.tx 0x10 true] := by decide +kernel
theorem test_dataStop :
    view (exec (.dataStop 0xAB) base) (fun t => t.log.buslog) = some [.tx 0xAB true, .stop] := by decide +kernel
/-- Into a FIFO with room for one: the second byte is dropped and `RxOverflow`, bit 3, is set (R207). -/
theorem test_rdlen :
    view (exec (.rdlen 2) { base with cfg := { base.cfg with rxDepth := 1 } })
      (fun t => (t.dev.rxq, t.dev.regs.intrState, t.log.buslog)) =
      some ([0x0A], 0x08, [.rx 0x0A, .rx 0x0B, .hostNak]) := by decide +kernel
theorem test_rdlenStop :
    view (exec (.rdlenStop 3) base) (fun t => (t.dev.rxq, t.log.buslog)) =
      some ([0x0A, 0x0B, 0x0C], [.rx 0x0A, .rx 0x0B, .rx 0x0C, .hostNak, .stop]) := by decide +kernel
/-- `NAkOk` suppresses `Nak`; the word is none of the six forms and is executed all the same. -/
theorem test_nakOk :
    view (deviceExecStep { base with dev.regs.ctrl := 1, dev.fmtq := [0x11A0], env.acks := [false] })
      (fun t => (t.dev.fmtq, t.dev.regs.intrState)) = some ([], 0) := by decide +kernel
/-- Bits 31:13 of a value written to `FDATA` are ignored. -/
theorem test_fdata_high_bits : fdataWord 0xFFFFE1A0 = 0x01A0 := by decide

/-! ## Witnesses: the hypotheses of every obligation can be met -/

theorem witness_RequestSelectCodes :
    ∀ op : BitVec 4, (requestWord op 0 false 0 0 0).extractLsb' 77 4 = op := by decide +kernel
theorem witness_RoundUpDivideIsLeast : 1 ≤ 20 ∧ 4700 ≤ 235 * 20 := by decide
theorem witness_BusModeBands :
    (100#32).toNat ≤ 100 ∧ 101 ≤ (101#32).toNat ∧ (400#32).toNat ≤ 400 ∧ 401 ≤ (401#32).toNat := by decide
theorem witness_BusModeBands_step :
    (busy .tsCalc (.setSpeed 401)).seq.pc = .tsCalc ∧ (busy .tsCalc (.setSpeed 401)).seq.cur = some (.setSpeed 401) ∧
    noPeriod base.cfg = false ∧ ∃ t, exec (.setSpeed 401) (busy .tsCalc (.setSpeed 401)) = .next t :=
  ⟨rfl, rfl, by decide, next_of_view _ (by decide +kernel)⟩
theorem witness_BusModeBands_same :
    base.seq.pc.accepting = true ∧ busMode 401 = busMode 1000 ∧ (∃ t, execTimes (.setSpeed 401) 7 base = .next t) ∧
    ∃ t, execTimes (.setSpeed 1000) 7 base = .next t :=
  ⟨rfl, by decide, next_of_view _ (by decide +kernel), next_of_view _ (by decide +kernel)⟩
theorem witness_PeriodIsUnderestimated : 0 < clkKhz .default := by decide
theorem witness_CountsMeetTheirMinimum :
    noPeriod .default = false ∧ nanoseconds .default 0 .thdDat = 0 ∧
    ceilDiv (nanoseconds .default 0 .tLow) (periodNs .default) ≤ 65535 ∧ nanoseconds .default 0 .tLow ≤ 235 * periodNs .default := by decide
theorem witness_ClampIsLeast : clampOverflows ⟨0, 0, 0, 0, 0, 0xFFFE, 0xFFFE, 0, 0, 0⟩ = false := by decide
theorem witness_SetSpeedSteps_accept :
    base.seq.pc.accepting = true ∧ (0 : Word) = 0#32 ∧ (1 : Word) ≠ 0#32 ∧ noPeriod base.cfg = false ∧
    noPeriod { base.cfg with clkHz := 0 } = true := by decide
/-- A table with `thdDat[0] = 65535` at a period of 1 ns (section 2.6), and the default one. -/
theorem witness_SetSpeedSteps_calc :
    noPeriod { base.cfg with clkHz := 1000000000, specNs := { base.cfg.specNs with thdDat := ⟨65535, 0, 0⟩ } } = false ∧
    clampOverflows (rawCounts { base.cfg with
      clkHz := 1000000000, specNs := { base.cfg.specNs with thdDat := ⟨65535, 0, 0⟩ } } (busMode 100)) = true ∧
    clampOverflows (rawCounts base.cfg (busMode 100)) = false := by decide +kernel
theorem witness_SetSpeedSteps_micro :
    ∀ j : Fin 5, (busy (.tsWr j) (.setSpeed 100)).seq.cur = some (.setSpeed 100) ∧ noPeriod (busy (.tsWr j) (.setSpeed 100)).cfg = false := by
  decide
theorem witness_SetSpeedWritesTimings :
    base.seq.pc.accepting = true ∧ (100 : Word) ≠ 0#32 ∧ noPeriod base.cfg = false ∧
    clampOverflows (rawCounts base.cfg (busMode 100)) = false := by decide +kernel
theorem witness_TimingsMeetOrExceed :
    base.cfg.pack = .d11 ∧ (∃ t, execTimes (.setSpeed 100) 7 base = .next t) ∧
    ∀ k ∈ [TpName.tHigh, .tLow, .tFall, .tRise, .thdSta, .tsuSta, .thdDat, .tsuDat, .tBuf, .tsuSto],
      cycles base.cfg (busMode 100) k ≤ 65535 := ⟨rfl, next_of_view _ (by decide +kernel), by decide +kernel⟩
theorem witness_ConfigurationSteps :
    base.seq.pc.accepting = true ∧ (busy .cfWr .resetFifos).seq.cur = some .resetFifos ∧
    (busy .cfWr .setHostMode).seq.cur = some .setHostMode ∧
    (busy .cfWr (.setHostThresholds 1 30)).seq.cur = some (.setHostThresholds 1 30) ∧
    (busy .cfWr .resetFifos).seq.pc = .cfWr := by decide
theorem witness_ThresholdFieldsSeparate :
    Params.default.wf = true ∧ ({ Params.default with fmtThreshShift := 20, rxThreshShift := 8 } : Params).wf = true ∧
    ¬ (Params.default.fmtThreshShift ≤ 15 ∧ 15 < Params.default.fmtThreshShift + 12) ∧
    ¬ (Params.default.rxThreshShift ≤ 15 ∧ 15 < Params.default.rxThreshShift + 12) := by decide
theorem witness_AccessorSteps :
    base.seq.pc.accepting = true ∧ validFlag base.cfg 14 = true ∧ validFlag base.cfg 15 = false ∧
    (busy .accRd (.interruptAsserted 4)).seq.cur = some (.interruptAsserted 4) ∧
    (busy .accWr (.clearInterrupt 4)).seq.cur = some (.clearInterrupt 4) ∧
    (busy .accWr (.enableInterrupt 4)).seq.cur = some (.enableInterrupt 4) ∧
    (busy .accWr (.disableInterrupt 4)).seq.cur = some (.disableInterrupt 4) ∧
    (busy .accRd (.statusTest 10)).seq.cur = some (.statusTest 10) ∧ (10#5).toNat ≤ 10 ∧ 10 < (11#5).toNat := by decide
theorem witness_ModifyingChangesOneFlag :
    base.seq.pc.accepting = true ∧ base.cfg.visibility = .exact ∧ validFlag base.cfg 4 = true ∧
    (4 : BitVec 5) ∈ base.cfg.flags.positions := by decide
/-- A flag that is set, and one that is clear among reserved enables that are set. -/
theorem witness_EnableDisableRestores :
    base.seq.pc.accepting = true ∧ validFlag base.cfg 4 = true ∧ base.cfg.visibility = .exact ∧
    (0x91#32).getLsbD (4#5).toNat = true ∧ (0xFFFF0081#32).getLsbD (4#5).toNat = false ∧
    base.dev.regs.intrState.getLsbD (4#5).toNat = false := by decide
theorem witness_BadRequestsAreRefused :
    base.seq.pc.accepting = true ∧ (15 : BitVec 5) ∉ base.cfg.flags.positions ∧ 10 < (11#5).toNat := by decide
theorem witness_BusyRequestsAreNotAccepted :
    (busy .accRd (.statusTest 2)).seq.pc.accepting = false ∧
    (busy .accRd (.statusTest 2)).seq.cur ≠ some (decodeRequest 0) ∧
    ({ (busy .accRd (.statusTest 2)) with port := [⟨0, ⟨0, 0⟩⟩], env.sched := [.present] } : State).env.sched = [.present] ∧
    (Pc.faulted .zeroPeriod).accepting = false := by decide
theorem witness_RefusedRequestsChangeNothing :
    base.seq.pc.accepting = true ∧
    exec (decodeRequest 0x040000000000000000000) { base with port := [], seq.buf := ⟨0, 0⟩ } = .refused .speedZero :=
  ⟨rfl, rfl⟩
theorem witness_BlockingPushSteps :
    (writing .wStartPoll 0 0).seq.pc = .wStartPoll ∧ (writing .rLenPush 0 0).seq.pc.pushing = true ∧
    (filled 1 base).dev.fmtq.length < base.cfg.fmtDepth ∧ ¬ (filled 0 base).dev.fmtq.length < base.cfg.fmtDepth := by
  decide +kernel
theorem witness_WriteSteps :
    base.seq.pc.accepting = true ∧ (writing .wDataPush 1 0).seq.cur = some (.write 0x50 false 2) ∧
    (writing .wDataPush 1 0).seq.x3.toNat < (writing .wDataPush 1 0).seq.buf.size ∧
    ¬ (writing .wDataPush 1 0).seq.x3.toNat < ({ (writing .wDataPush 1 0) with seq.buf := ⟨0, 1⟩ } : State).seq.buf.size ∧
    ¬ (filled 0 (writing .wDataPush 1 0)).dev.fmtq.length < (writing .wDataPush 1 0).cfg.fmtDepth ∧
    (filled 0 (writing .wStartPush 0 0)).seq.pc = .wStartPush := by decide +kernel
/-- Exactly enough room: 62 words queued, depth 64, one byte to write. -/
theorem witness_WriteCompletesWithRoom :
    base.seq.pc.accepting = true ∧ base.cfg.visibility = .exact ∧ (1 : Word) ≠ 0#32 ∧ (1#32).toNat ≤ base.seq.buf.size ∧
    (filled 2 base).dev.fmtq.length + (1#32).toNat + 1 ≤ base.cfg.fmtDepth := by decide +kernel
theorem witness_WriteEmitsExactlyItsWords :
    WriteProgress 0x50 false [0x10, 0xAB] [] (writing .wStartPoll 0 0x01A0) ∧ [(0x10 : Byte), 0xAB] ≠ [] ∧
    (writing .wStartPoll 0 0x01A0).env.sched.head? ≠ some .reset ∧ ∃ t, step (writing .wStartPoll 0 0x01A0) = .next t :=
  ⟨⟨⟨rfl, rfl, rfl⟩, rfl, by decide, by decide, ⟨by decide, rfl⟩⟩, by decide, by decide, _, rfl⟩
theorem witness_ReadSteps :
    base.seq.pc.accepting = true ∧ (reading .rDrain 300 255 45 45 true 0).seq.cur = some (.read 0x51 300) ∧
    (filled 1 base).dev.fmtq.length < base.cfg.fmtDepth ∧ ¬ (filled 0 base).dev.fmtq.length < base.cfg.fmtDepth ∧
    ((reading .rDrain 300 255 45 45 true 0).seq.x3 + (reading .rDrain 300 255 45 45 true 0).seq.x8.setWidth 32).toNat <
      (reading .rDrain 300 255 45 45 true 0).seq.buf.size ∧
    ¬ ((reading .rDrain 300 255 45 45 true 0).seq.x3 + (reading .rDrain 300 255 45 45 true 0).seq.x8.setWidth 32).toNat < 255 := by
  decide +kernel
/-- The three ways a drain step goes on: within the chunk, at the end of the last one, at the end of another one. -/
theorem witness_ReadSteps_drain :
    (reading .rDrain 2 0 2 2 true 0).seq.x8 + 1#8 ≠ (reading .rDrain 2 0 2 2 true 0).seq.x5 ∧
    (reading .rDrain 1 0 1 1 true 0).seq.x8 + 1#8 = (reading .rDrain 1 0 1 1 true 0).seq.x5 ∧
    ({ (reading .rDrain 300 0 300 255 false 0) with seq.x8 := 254 } : State).seq.x8 + 1#8 = 255#8 := by decide
theorem witness_ReadNakAborts :
    (reading .rNakTest 2 0 2 0 false 0).seq.pc = .rNakTest ∧
    (reading .rNakTest 2 0 2 0 false 0).seq.cur = some (.read 0x51 2) ∧ base.cfg.visibility = .exact ∧
    (0x18#32).getLsbD base.cfg.flags.nak.toNat = true := by decide
theorem witness_ReadEmitsItsChunks :
    ReadProgress 0x51 300 [] [] (reading .rStartPoll 300 0 300 0 false 0x01A3) ∧
    (reading .rStartPoll 300 0 300 0 false 0x01A3).env.sched.head? ≠ some .reset ∧
    ∃ t, step (reading .rStartPoll 300 0 300 0 false 0x01A3) = .next t :=
  ⟨⟨⟨⟨⟨rfl, by decide, by decide⟩, by decide⟩, rfl⟩, by decide, rfl, rfl, fun _ _ => rfl⟩, by decide, _, rfl⟩
theorem witness_ZeroLengthCompletes : base.seq.pc.accepting = true := rfl
theorem witness_ChunkSizes : (255 : Word) ≠ 0#32 ∧ chunkIsLast 255 = true ∧ chunkIsLast 256 = false := by decide
theorem witness_ReceiveForms :
    base.env.rxBytes = [0x0A, 0x0B] ++ [0x0C] ∧ [(0x0A : Byte), 0x0B].length = (2#8).toNat := by decide
theorem witness_DeviceExecutesAnyWord :
    base.dev.regs.ctrl ≠ base.cfg.ctrlHostValue ∧ base.dev.fmtq = [] ∧
    ({ base with dev.regs.ctrl := 1 } : State).dev.regs.ctrl = base.cfg.ctrlHostValue ∧
    (0x01A0#13).getLsbD 10 = false ∧ (0x0400#13).getLsbD 10 = true := by decide
theorem witness_NakIsSticky :
    (∃ t, step { base with dev.regs.intrState := 0x10 } = .next t) ∧ base.env.sched.head? ≠ some .reset ∧
    base.seq.pc ≠ .rNakClearWr ∧ (0x10#32).getLsbD base.cfg.flags.nak.toNat = true ∧
    ∀ sel, (busy .accWr (.enableInterrupt 4)).seq.cur ≠ some (.clearInterrupt sel) := ⟨⟨_, rfl⟩, by decide, by decide, by decide, by decide⟩
theorem witness_DeviceSparesSequencer :
    ∃ t, step { base with env.sched := [.devFlag 0x3FF] } = .next t := ⟨_, rfl⟩
theorem witness_RegisterMap : ¬ (4 = 4 ∧ 0x70 % 4 = 0 ∧ 0x70 ≤ 0x6C) ∧ ¬ (2 = 4 ∧ 0x14 % 4 = 0 ∧ 0x14 ≤ 0x6C) := by decide
theorem witness_RegisterReads :
    base.cfg.visibility = .exact ∧ (4 : BitVec 5) ∈ base.cfg.flags.positions ∧
    (base.cfg.fmtThreshShift ≤ 27 ∧ 27 < base.cfg.fmtThreshShift + 12) ∧
    (base.cfg.rxThreshShift ≤ 0 ∧ 0 < base.cfg.rxThreshShift + 12) ∧
    ({ base with dev.rxq := [0x12, 0x34] } : State).dev.rxq = 0x12 :: [0x34] ∧ base.dev.rxq = [] := by decide
theorem witness_StaleReadsAreMonotone :
    (stale base).cfg.visibility = .monotoneStale ∧ (stale base).view.vis ≤ (stale base).view.hist.length ∧
    ({ (stale base) with view := ⟨1, [⟨0x24, 0⟩, ⟨0x20, 0⟩]⟩ } : State).view.vis ≤ 2 := by decide
theorem witness_RegisterWrites :
    (filled 1 base).dev.fmtq.length < base.cfg.fmtDepth ∧ (filled 0 base).dev.fmtq.length = base.cfg.fmtDepth ∧
    (0x183 : Word) = base.cfg.fifoResetValue := by decide +kernel
theorem witness_Frames :
    (∃ t, exec .resetFifos base = .next t) ∧ (∃ t, exec .resetFifos (busy .cfWr .resetFifos) = .next t) ∧
    (∃ t, exec (.read 0x51 2) (reading .rDrain 2 0 2 2 true 0) = .next t) ∧
    (∃ t, exec (.rdlenStop 3) base = .next t) ∧ (∃ t, exec (.blockingPush 1) (writing .wStartPush 0 1) = .next t) :=
  ⟨⟨_, rfl⟩, ⟨_, rfl⟩, ⟨_, rfl⟩, ⟨_, rfl⟩, ⟨_, rfl⟩⟩
theorem witness_OnlyDrainStoresToMemory :
    Memory.wf (reading .rDrain 2 0 2 2 true 0).mem = true ∧ (reading .rDrain 2 0 2 2 true 0).seq.pc = .rDrain ∧
    ((reading .rDrain 2 0 2 2 true 0).seq.x3 + (reading .rDrain 2 0 2 2 true 0).seq.x8.setWidth 32).toNat <
      (reading .rDrain 2 0 2 2 true 0).seq.buf.size := by decide
theorem witness_StepRunsDecodedInstruction :
    (∃ t, exec (decodeRequest 0) { base with env.sched := [], port := [], seq.buf := ⟨0, 0⟩ } = .next t) ∧
    (∃ t, exec (.statusTest 2) { (busy .accRd (.statusTest 2)) with env.sched := [] } = .next t) ∧
    (hostMode { base with dev.regs.ctrl := 1, dev.fmtq := [0x01A0] } = true ∧ decodeFormat 0x01A0 = .ok (.addrW 0x50)) ∧
    ∃ t, exec (.blockingPush 1) { (writing .wStartPush 0 1) with seq := { (writing .wStartPush 0 1).seq with cur := none } } = .next t :=
  ⟨⟨_, rfl⟩, ⟨_, rfl⟩, by decide, ⟨_, rfl⟩⟩
theorem witness_FaultedStops :
    (faulted .zeroPeriod base).seq.pc = .faulted .zeroPeriod ∧ base.env.sched = [] ∧
    ∃ t, step { (faulted .zeroPeriod base) with env.sched := [.present] } = .next t := ⟨rfl, rfl, _, rfl⟩
theorem witness_ResetEvent : ({ base with env.sched := [.reset] } : State).env.sched = .reset :: [] := rfl
theorem witness_TerminalStatesAcceptAlike :
    Pc.idle.accepting = true ∧ Pc.complete.accepting = true ∧ Pc.nakAborted.accepting = true := by decide
/-- The invariant holds in the middle of a `write`, one step before a push into the last free place. -/
theorem inv_writing : State.Inv (filled 1 (writing .wStartPush 0 0x01A0)) where
  params := by decide
  memory := by decide
  fmtqFits := by decide +kernel
  rxqFits := by decide
  visible := by decide
  operation := ⟨⟨rfl, by decide⟩, by decide⟩
  room := by decide +kernel
  pushes := fun _ h => nomatch h
theorem witness_InvariantStatements :
    State.Inv (filled 1 (writing .wStartPush 0 0x01A0)) ∧ base.cfg.visibility = .exact ∧
    (∀ f, (filled 1 (writing .wStartPush 0 0x01A0)).seq.pc ≠ .faulted f) ∧
    ∃ t, step (filled 1 (writing .wStartPush 0 0x01A0)) = .next t :=
  ⟨inv_writing, rfl, (by intro f h; cases h), _, rfl⟩
theorem witness_RegistersWithoutEffect :
    RegName.unused .ovrd = true ∧ (∃ t, step base = .next t) ∧
    ∀ sel, base.seq.cur ≠ some (.enableInterrupt sel) ∧ base.seq.cur ≠ some (.disableInterrupt sel) :=
  ⟨rfl, ⟨_, rfl⟩, by decide⟩
/-- The address register is dead once the address word is built. -/
theorem witness_WorkingRegistersAreWrittenFirst :
    State.Inv (filled 1 (writing .wStartPush 0 0x01A0)) ∧
    Sequencer.sameLive (writing .wStartPush 0 0x01A0).seq { (writing .wStartPush 0 0x01A0).seq with x0 := 0x7F, x4 := 9 } ∧
    ∃ t, step (filled 1 (writing .wStartPush 0 0x01A0)) = .next t :=
  ⟨inv_writing, ⟨⟨rfl, rfl, rfl, rfl⟩, rfl, rfl, rfl⟩, _, rfl⟩

end Sys2Proof.Machine.Tests
end

section
/-!
The scope family (00_scope.md): the round-up divide of R10. `ceilDiv_le_iff_le_mul` says all there is to say about it, as one
equivalence; the two halves of "least sufficient quotient" are its two directions.
-/
namespace Sys2Proof.Machine

/-- R10 as one equivalence: the quotients that suffice are exactly those from the round-up divide on. -/
theorem ceilDiv_le_iff_le_mul {a b q : Nat} (hb : 1 ≤ b) : ceilDiv a b ≤ q ↔ a ≤ q * b := by
  rw [ceilDiv, Nat.div_le_iff_le_mul_add_pred hb, Nat.mul_comm b q]
  omega

theorem le_ceilDiv_mul {a b : Nat} (hb : 1 ≤ b) : a ≤ ceilDiv a b * b :=
  (ceilDiv_le_iff_le_mul hb).mp (Nat.le_refl _)

theorem ceilDiv_le_of_le_mul {a b q : Nat} (hb : 1 ≤ b) (h : a ≤ q * b) : ceilDiv a b ≤ q :=
  (ceilDiv_le_iff_le_mul hb).mpr h

/-- No quotient is needed for nothing: 0 already suffices. -/
theorem zero_ceilDiv {b : Nat} (hb : 1 ≤ b) : ceilDiv 0 b = 0 :=
  Nat.le_zero.mp (ceilDiv_le_of_le_mul hb (Nat.zero_le _))

/-- Settles O6: both halves of leastness are directions of `ceilDiv_le_iff_le_mul`, and the floor form is the definition. -/
theorem roundUpDivideIsLeast : Obligations.RoundUpDivideIsLeast := by
  intro a b hb
  exact ⟨le_ceilDiv_mul hb, fun _ => ceilDiv_le_of_le_mul hb, rfl, zero_ceilDiv hb⟩

end Sys2Proof.Machine
end

section
/-!
The encoding family (30_encoding.md): the word of `HOST_FIFO_CONFIG`, R105. The word is the union of two fields; one lemma gives
every bit of a field, and what a 12-bit window sees of it (its own operand, or nothing) follows from that.
-/
namespace Sys2Proof.Machine

/-- One operand of R105 at its place: masked to 12 bits, then shifted. -/
def thresholdField (n : Nat) (x : Word) : Word := (x &&& 0xFFF#32) <<< n

theorem thresholdWord_eq_fields (c : Params) (fmt rx : Word) :
    thresholdWord c fmt rx = thresholdField c.fmtThreshShift fmt ||| thresholdField c.rxThreshShift rx := rfl

/-- The mask of R105 keeps the low 12 bits. -/
theorem getLsbD_and_0xFFF (x : Word) (j : Nat) : (x &&& 0xFFF#32).getLsbD j = (decide (j < 12) && x.getLsbD j) := by
  have mask : 0xFFF#32 = (BitVec.allOnes 12).setWidth 32 := rfl
  rw [mask, BitVec.getLsbD_and, BitVec.getLsbD_setWidth, BitVec.getLsbD_allOnes, Bool.and_comm, Bool.eq_iff_iff]
  simp
  omega

/-- Every bit of a field. -/
theorem getLsbD_thresholdField (n : Nat) (x : Word) (k : Nat) :
    (thresholdField n x).getLsbD k = (decide (k < 32) && decide (n ≤ k ∧ k < n + 12) && x.getLsbD (k - n)) := by
  rw [thresholdField, BitVec.getLsbD_shiftLeft, getLsbD_and_0xFFF]
  by_cases above : n ≤ k
  · have width : k - n < 12 ↔ k < n + 12 := by omega
    simp [above, Nat.not_lt.mpr above, width, Bool.and_assoc]
  · simp [above, Nat.lt_of_not_le above]

theorem getLsbD_thresholdField_outside {n k : Nat} (x : Word) (h : ¬ (n ≤ k ∧ k < n + 12)) :
    (thresholdField n x).getLsbD k = false := by
  simp [getLsbD_thresholdField, h]

/-- A field that lies within the word shows the low 12 bits of its operand. -/
theorem extractLsb'_thresholdField_same {n : Nat} (x : Word) (h : n ≤ 20) :
    (thresholdField n x).extractLsb' n 12 = x.extractLsb' 0 12 := by
  ext i hi
  have inWord : n + i < 32 := by omega
  rw [BitVec.getElem_extractLsb', BitVec.getElem_extractLsb', getLsbD_thresholdField]
  simp [inWord, hi]

/-- Nothing of a field shows in a window beside it. -/
theorem extractLsb'_thresholdField_disjoint {m n : Nat} (x : Word) (h : m + 12 ≤ n ∨ n + 12 ≤ m) :
    (thresholdField n x).extractLsb' m 12 = 0#12 := by
  ext i hi
  rw [BitVec.getElem_extractLsb', getLsbD_thresholdField_outside x (by omega), BitVec.getElem_zero]

/-- R7, R192: what well-formed parameters say of the two shifts. -/
theorem thresholdShifts_of_wf {c : Params} (h : c.wf = true) :
    c.fmtThreshShift ≤ 20 ∧ c.rxThreshShift ≤ 20 ∧
      (c.fmtThreshShift + 12 ≤ c.rxThreshShift ∨ c.rxThreshShift + 12 ≤ c.fmtThreshShift) := by
  simp only [Params.wf, Bool.and_eq_true, decide_eq_true_eq] at h
  obtain ⟨⟨⟨-, hfmt⟩, hrx⟩, hapart⟩ := h
  exact ⟨hfmt, hrx, hapart⟩

/-- Settles O17: a window on the word is the union of the windows on its two fields, of which one is the operand and the other
is empty, because R7 keeps the fields within the word and apart. -/
theorem thresholdFieldsSeparate : Obligations.ThresholdFieldsSeparate := by
  intro c fmt rx hwf
  obtain ⟨hfmt, hrx, hapart⟩ := thresholdShifts_of_wf hwf
  rw [thresholdWord_eq_fields]
  refine ⟨?fmtField, ?rxField, fun k hkFmt hkRx => ?outside⟩
  case fmtField =>
    rw [BitVec.extractLsb'_or, extractLsb'_thresholdField_same fmt hfmt,
      extractLsb'_thresholdField_disjoint rx hapart, BitVec.or_zero]
  case rxField =>
    rw [BitVec.extractLsb'_or, extractLsb'_thresholdField_same rx hrx,
      extractLsb'_thresholdField_disjoint fmt hapart.symm, BitVec.zero_or]
  case outside =>
    rw [BitVec.getLsbD_or, getLsbD_thresholdField_outside fmt hkFmt, getLsbD_thresholdField_outside rx hkRx, Bool.or_false]

end Sys2Proof.Machine
end

section
/-!
The Timing Calculator family (40_timing_calculator.md): the bus mode of R122 and the clamp of R125. That nothing but the mode
of a speed matters is an agreement of two runs in lockstep: a micro-state of `set_speed` sees the speed through its mode only,
and acceptance leaves the speed itself in `cur` only, which no step of the operation stores in the device.
-/
namespace Sys2Proof.Machine

/-! ### The bands -/

theorem busMode_standard {khz : Word} (h : khz.toNat ≤ 100) : busMode khz = 0#2 := by
  have slow : ¬ khz.toNat > 100 := by omega
  have slower : ¬ khz.toNat > 400 := by omega
  simp [busMode, slow, slower]

theorem busMode_fast {khz : Word} (h : 101 ≤ khz.toNat) (h' : khz.toNat ≤ 400) : busMode khz = 1#2 := by
  have above : khz.toNat > 100 := by omega
  have below : ¬ khz.toNat > 400 := by omega
  simp [busMode, above, below]

theorem busMode_fastPlus {khz : Word} (h : 401 ≤ khz.toNat) : busMode khz = 2#2 := by
  have above : khz.toNat > 100 := by omega
  have fast : khz.toNat > 400 := by omega
  simp [busMode, above, fast]

/-! ### The steps of `set_speed` -/

section
variable {khz k1 k2 : Word} {s t t' : State} {c : Option Instr}

/-- R129, acceptance: what it answers when it does not refuse. -/
theorem acceptSetSpeed_next (h : acceptSetSpeed khz s = .next t) :
    khz ≠ 0#32 ∧ (noPeriod s.cfg = true ∧ t = faulted .zeroPeriod s ∨
      noPeriod s.cfg = false ∧ t = { s with seq := { s.seq with pc := .tsCalc, cur := some (.setSpeed khz) } }) := by
  rw [acceptSetSpeed] at h
  split at h
  · cases h
  next hzero =>
    split at h
    next hperiod => cases h; exact ⟨hzero, .inl ⟨hperiod, rfl⟩⟩
    next hperiod => cases h; exact ⟨hzero, .inr ⟨by simpa using hperiod, rfl⟩⟩

/-- R129: the micro-states of `set_speed`. -/
theorem microSetSpeed_next (h : microSetSpeed khz s = .next t) :
    (s.seq.pc = .tsCalc ∧ calculateTiming khz s = .next t) ∨ ∃ j, s.seq.pc = .tsWr j ∧ writeTiming j s = .next t := by
  rw [microSetSpeed] at h
  split at h
  next hpc => exact .inl ⟨hpc, h⟩
  next j hpc => exact .inr ⟨j, hpc, h⟩
  · cases h

/-- R122 to R126: what `TS_CALC` answers where the clock has a period. -/
theorem calculateTiming_next (hperiod : noPeriod s.cfg = false) (h : calculateTiming khz s = .next t) :
    (clampOverflows (rawCounts s.cfg (busMode khz)) = true ∧
      t = faulted .timingOverflow
        { s with seq := { s.seq with x11 := busMode khz, tp := rawCounts s.cfg (busMode khz) } }) ∨
    (clampOverflows (rawCounts s.cfg (busMode khz)) = false ∧
      t = { s with seq := { s.seq with
        pc := .tsWr 0, x11 := busMode khz, tp := clampCounts (rawCounts s.cfg (busMode khz)) } }) := by
  simp only [calculateTiming, hperiod, Bool.false_eq_true, if_false] at h
  split at h
  next hover => cases h; exact .inl ⟨hover, rfl⟩
  next hover => cases h; exact .inr ⟨by simpa using hover, rfl⟩

/-- R127, R128: `TS_WR<j>` never faults, because a timing register takes every word. -/
theorem writeTiming_eq (j : Fin 5) (s : State) :
    writeTiming j s =
      if h : j.val + 1 < 5 then goto (.tsWr ⟨j.val + 1, h⟩) (storeReg (timingReg j) (timingWord s.cfg s.seq.tp j) s)
      else .next (completed (storeReg (timingReg j) (timingWord s.cfg s.seq.tp j) s)) := by
  rw [writeTiming, withWrite_timing]

/-- R122: `TS_CALC` writes the mode to `x11`, whether or not the clamps fit. -/
theorem calculateTiming_x11 (hperiod : noPeriod s.cfg = false) (h : calculateTiming khz s = .next t) :
    t.seq.x11 = busMode khz := by
  obtain ⟨-, rfl⟩ | ⟨-, rfl⟩ := calculateTiming_next hperiod h
  · rfl
  · rfl

/-- In `TS_CALC` the request in progress computes. -/
theorem exec_setSpeed_tsCalc (hpc : s.seq.pc = .tsCalc) (hcur : s.seq.cur = some (.setSpeed khz)) :
    exec (.setSpeed khz) s = calculateTiming khz s := by
  have busy : s.seq.pc.accepting = false := by rw [hpc]; rfl
  calc exec (.setSpeed khz) s = microSetSpeed khz s := operation_micro _ _ _ s busy hcur
    _ = calculateTiming khz s := by rw [microSetSpeed, hpc]

/-! ### Two speeds of one band -/

/-- The micro-states see the speed through its mode only. -/
theorem microSetSpeed_congr (h : busMode k1 = busMode k2) : microSetSpeed k1 = microSetSpeed k2 := by
  funext s
  simp only [microSetSpeed, calculateTiming, h]

/-- The state with another request in progress. -/
def withCur (c : Option Instr) (s : State) : State := { s with seq.cur := c }

@[simp] theorem withCur_cfg (c : Option Instr) (s : State) : (withCur c s).cfg = s.cfg := rfl
@[simp] theorem withCur_pc (c : Option Instr) (s : State) : (withCur c s).seq.pc = s.seq.pc := rfl

/-- Two states that differ at most in the request in progress. -/
def AgreeButCur (s t : State) : Prop := ∃ c, t = withCur c s

theorem AgreeButCur.refl (s : State) : AgreeButCur s s := ⟨s.seq.cur, rfl⟩

theorem AgreeButCur.dev_eq (h : AgreeButCur s t) : s.dev = t.dev := by
  obtain ⟨c, rfl⟩ := h
  rfl

theorem calculateTiming_agree (h : calculateTiming khz s = .next t) (h' : calculateTiming khz (withCur c s) = .next t') :
    AgreeButCur t t' := by
  rw [calculateTiming] at h
  rw [calculateTiming, withCur_cfg] at h'
  split_ifs at h h'
  next noClock => cases h; cases h'; exact ⟨none, rfl⟩
  next overflow => cases h; cases h'; exact ⟨none, rfl⟩
  next fits => cases h; cases h'; exact ⟨c, rfl⟩

theorem writeTiming_agree {j : Fin 5} (h : writeTiming j s = .next t) (h' : writeTiming j (withCur c s) = .next t') :
    AgreeButCur t t' := by
  rw [writeTiming_eq] at h h'
  split_ifs at h h'
  next more => cases h; cases h'; exact ⟨c, rfl⟩
  next last => cases h; cases h'; exact ⟨none, rfl⟩

/-- The micro-states neither read nor, but for ending the operation, write the request in progress. -/
theorem microSetSpeed_agree (h : microSetSpeed khz s = .next t) (h' : microSetSpeed khz (withCur c s) = .next t') :
    AgreeButCur t t' := by
  obtain ⟨hpc, h⟩ | ⟨j, hpc, h⟩ := microSetSpeed_next h
  · rw [microSetSpeed, withCur_pc, hpc] at h'
    exact calculateTiming_agree h h'
  · rw [microSetSpeed, withCur_pc, hpc] at h'
    exact writeTiming_agree h h'

/-- Acceptance looks at the speed only to refuse 0, and leaves it in `cur` only. -/
theorem acceptSetSpeed_agree (h : acceptSetSpeed k1 s = .next t) (h' : acceptSetSpeed k2 (withCur c s) = .next t') :
    AgreeButCur t t' := by
  obtain ⟨-, ⟨hp, rfl⟩ | ⟨hp, rfl⟩⟩ := acceptSetSpeed_next h <;>
    obtain ⟨-, ⟨hp', rfl⟩ | ⟨hp', rfl⟩⟩ := acceptSetSpeed_next h'
  · exact ⟨none, rfl⟩
  · exact absurd (hp.symm.trans hp') (by decide)
  · exact absurd (hp.symm.trans hp') (by decide)
  · exact ⟨some (.setSpeed k2), rfl⟩

end

/-- One step of `set_speed` with either of two speeds of one band keeps two states in agreement. -/
theorem exec_setSpeed_agree {k1 k2 : Word} {s s' t t' : State} (hmode : busMode k1 = busMode k2) (hs : AgreeButCur s s')
    (h : exec (.setSpeed k1) s = .next t) (h' : exec (.setSpeed k2) s' = .next t') : AgreeButCur t t' := by
  obtain ⟨c, rfl⟩ := hs
  obtain ⟨hacc, h⟩ | ⟨hacc, -, h⟩ := operation_next _ _ _ _ _ h <;>
    obtain ⟨hacc', h'⟩ | ⟨hacc', -, h'⟩ := operation_next _ _ _ _ _ h'
  · exact acceptSetSpeed_agree h h'
  · exact absurd (hacc.symm.trans hacc') (by decide)
  · exact absurd (hacc.symm.trans hacc') (by decide)
  · rw [← microSetSpeed_congr hmode] at h'
    exact microSetSpeed_agree h h'

/-- A run that answers a state took a first step that answers one. -/
theorem execTimes_succ_next {i : Instr} {n : Nat} {s t : State} (h : execTimes i (n + 1) s = .next t) :
    ∃ u, exec i s = .next u ∧ execTimes i n u = .next t := by
  cases hstep : exec i s with
  | next u => exact ⟨u, rfl, by rwa [execTimes_succ i n s u hstep] at h⟩
  | fault f => simp [execTimes, hstep] at h
  | refused r => simp [execTimes, hstep] at h

/-- Any number of steps keeps the agreement, where both runs answer a state. -/
theorem execTimes_setSpeed_agree {k1 k2 : Word} (hmode : busMode k1 = busMode k2) (n : Nat) :
    ∀ {s s' t t' : State}, AgreeButCur s s' → execTimes (.setSpeed k1) n s = .next t →
      execTimes (.setSpeed k2) n s' = .next t' → AgreeButCur t t' := by
  induction n with
  | zero =>
    intro s s' t t' hs h h'
    cases h
    cases h'
    exact hs
  | succ n ih =>
    intro s s' t t' hs h h'
    obtain ⟨u, hu, h⟩ := execTimes_succ_next h
    obtain ⟨u', hu', h'⟩ := execTimes_succ_next h'
    exact ih (exec_setSpeed_agree hmode hs hu hu') h h'

/-- Settles O7: the bands by the two comparisons, `x11` by what `TS_CALC` answers, and the one device by lockstep agreement. -/
theorem busModeBands : Obligations.BusModeBands := by
  refine ⟨fun khz => ⟨busMode_standard, busMode_fast, busMode_fastPlus⟩, ?mode, ?sameDevice⟩
  case mode =>
    intro khz s t hpc hcur hperiod h
    rw [exec_setSpeed_tsCalc hpc hcur] at h
    exact calculateTiming_x11 hperiod h
  case sameDevice =>
    intro k1 k2 s t1 t2 _ hmode h1 h2
    exact (execTimes_setSpeed_agree hmode 7 (.refl s) h1 h2).dev_eq

/-! ### The clamp -/

/-- R126: the clamps fit where neither lower bound is the largest count. -/
theorem clampOverflows_eq_false {tp : TpFile} :
    clampOverflows tp = false ↔ tp.thdDat ≠ 0xFFFF#16 ∧ tp.tsuSta ≠ 0xFFFF#16 := by
  simp [clampOverflows]

/-- R125: below the largest count the successor does not wrap, so the clamp is a maximum. -/
theorem toNat_clampAbove (a : Count) {b : Count} (h : b ≠ 0xFFFF#16) :
    (clampAbove a b).toNat = max a.toNat (b.toNat + 1) := by
  have fits : b.toNat + 1 < 2 ^ 16 := by bv_omega
  rw [clampAbove]
  split
  next raised => rw [BitVec.toNat_ofNat, Nat.mod_eq_of_lt fits, Nat.max_eq_right (Nat.le_of_lt raised)]
  next kept => rw [Nat.max_eq_left (Nat.le_of_not_lt kept)]

/-- Settles O10: each clamp is a maximum because neither overflows, and `clampCounts` replaces these two fields only. -/
theorem clampIsLeast : Obligations.ClampIsLeast := by
  intro tp h
  obtain ⟨hdat, hsta⟩ := clampOverflows_eq_false.mp h
  exact ⟨toNat_clampAbove tp.tLow hdat, toNat_clampAbove tp.tBuf hsta, rfl⟩

end Sys2Proof.Machine
end

section
/-!
The transaction engine family (41_fifo_transaction_engine.md): the zero-length `write` and `read` of R156. Acceptance latches the
operands and ends the operation at once; that the ending keeps device, memory, visibility, draws and `PUSHES` is what the
lemmas about `completed` and `completedWith` say.
-/
namespace Sys2Proof.Machine

section
variable {a : BitVec 7} {s : State}

theorem completed_done : State.done (completed s) = true := rfl

theorem completedWith_done (r : Bool) : State.done (completedWith r s) = true := rfl

theorem completedWith_result (r : Bool) : State.result (completedWith r s) = r := rfl

/-- R156 for `write`: the operands are latched and the operation has ended. -/
theorem exec_write_zero_length {skip : Bool} (hacc : s.seq.pc.accepting = true) :
    exec (.write a skip 0#32) s = .next (completed { s with seq := { s.seq with x0 := a, x1 := 0#32, x2 := skip } }) :=
  calc exec (.write a skip 0#32) s = acceptWrite a skip 0#32 s := operation_accept _ _ _ s hacc
    _ = _ := by rw [acceptWrite, if_pos rfl]

/-- R156 for `read`: the operands and the counters are latched and the operation has ended with result 1. -/
theorem exec_read_zero_length (hacc : s.seq.pc.accepting = true) :
    exec (.read a 0#32) s =
      .next (completedWith true { s with seq := { s.seq with x0 := a, x1 := 0#32, x3 := 0#32, x4 := 0#32 } }) :=
  calc exec (.read a 0#32) s = acceptRead a 0#32 s := operation_accept _ _ _ s hacc
    _ = _ := by rw [acceptRead, if_pos rfl]

end

/-- Settles O36: the one step is acceptance, and latching operands and ending an operation touch the sequencer and the
outcomes only. -/
theorem zeroLengthCompletes : Obligations.ZeroLengthCompletes := by
  intro a skip s hacc
  refine ⟨⟨_, exec_write_zero_length hacc, ?write⟩, ⟨_, exec_read_zero_length hacc, ?read⟩⟩
  case write => simp [completed_done]
  case read => simp [completedWith_done, completedWith_result]

end Sys2Proof.Machine
end

section
/-!
The accessor family (42_interrupt_status_accessor.md): the operations on interrupt flags. They differ only in the register, the
operand check and what is done with the value read, so each step is said once for all of them (R179) and an obligation names
its register and its bit.
-/
namespace Sys2Proof.Machine

section
variable {i : Instr} {r : RegName} {s : State} {accept micro : State → Res}
  {test : Word → Bool} {modify : Word → Word}

/-! ### Acceptance (R179, R227) -/

/-- A valid operand enters `ACC_RD`. -/
theorem operation_acceptAccess_valid (valid : State → Bool) (hacc : s.seq.pc.accepting = true) (hvalid : valid s = true) :
    operation i (fun t => acceptAccess i (valid t) t) micro s =
      .next { s with seq := { s.seq with pc := .accRd, cur := some i } } := by
  rw [operation_accept _ _ _ _ hacc, acceptAccess, if_pos hvalid, enter]

/-- An invalid operand is refused. -/
theorem operation_acceptAccess_invalid (valid : State → Bool) (hacc : s.seq.pc.accepting = true) (hvalid : valid s = false) :
    operation i (fun t => acceptAccess i (valid t) t) micro s = .refused .badRequest := by
  have invalid : ¬ valid s = true := by simp [hvalid]
  rw [operation_accept _ _ _ _ hacc, acceptAccess, if_neg invalid]

/-! ### The micro-states -/

theorem accRd_not_accepting (hpc : s.seq.pc = .accRd) : s.seq.pc.accepting = false := by rw [hpc]; rfl

theorem accWr_not_accepting (hpc : s.seq.pc = .accWr) : s.seq.pc.accepting = false := by rw [hpc]; rfl

/-- `ACC_RD` of a testing operation: the one read, whose value decides the result (R171, R175). -/
theorem operation_testMicro_accRd (hpc : s.seq.pc = .accRd) (hcur : s.seq.cur = some i) :
    operation i accept (testMicro r test) s =
      .next (completedWith (test (regRead r s).seq.x10) (regRead r s)) := by
  rw [operation_micro _ _ _ _ (accRd_not_accepting hpc) hcur, testMicro, hpc]

/-- `ACC_RD` of a modifying operation: the read, and on to `ACC_WR` (R172 to R174). -/
theorem operation_modifyMicro_accRd (hpc : s.seq.pc = .accRd) (hcur : s.seq.cur = some i) :
    operation i accept (modifyMicro r modify) s = .next { regRead r s with seq.pc := .accWr } := by
  rw [operation_micro _ _ _ _ (accRd_not_accepting hpc) hcur, modifyMicro, hpc, goto, withPc]

/-- `ACC_WR` of a modifying operation whose register takes every word: the modified `x10` is stored, whatever the register
holds (R172 to R174). -/
theorem operation_modifyMicro_accWr (stores : ∀ v t k, withWrite r v t k = k (storeReg r v t)) (hpc : s.seq.pc = .accWr)
    (hcur : s.seq.cur = some i) :
    operation i accept (modifyMicro r modify) s = .next (completed (storeReg r (modify s.seq.x10) s)) := by
  rw [operation_micro _ _ _ _ (accWr_not_accepting hpc) hcur, modifyMicro, hpc]
  exact stores _ _ _

/-! ### The registers by offset (R22, R23) -/

theorem memReadReg_intrState : memReadReg 0x00 4 s = .next (regRead .intrState s) := rfl

theorem memReadReg_intrEnable : memReadReg 0x04 4 s = .next (regRead .intrEnable s) := rfl

theorem regRead_intrState_dev : (regRead .intrState s).dev = s.dev := regRead_dev .intrState s (by decide)

theorem regRead_intrEnable_dev : (regRead .intrEnable s).dev = s.dev := by rw [regRead_intrEnable]

end

/-- Settles O19: the shared steps of a testing operation, for `INTR_STATE` and the flag's bit. -/
theorem interruptAssertedTestsState : Obligations.InterruptAssertedTestsState := by
  intro sel s
  refine ⟨?valid, ?invalid, ?read⟩
  case valid => exact operation_acceptAccess_valid fun t => validFlag t.cfg sel
  case invalid => exact operation_acceptAccess_invalid fun t => validFlag t.cfg sel
  case read =>
    intro hpc hcur
    exact ⟨_, memReadReg_intrState, regRead_intrState_dev, operation_testMicro_accRd hpc hcur⟩

/-- Settles O20: the shared steps of a modifying operation, for `INTR_STATE`, which stores every word. -/
theorem clearInterruptClearsFlag : Obligations.ClearInterruptClearsFlag := by
  intro sel s
  refine ⟨?valid, ?invalid, ?read, ?write⟩
  case valid => exact operation_acceptAccess_valid fun t => validFlag t.cfg sel
  case invalid => exact operation_acceptAccess_invalid fun t => validFlag t.cfg sel
  case read =>
    intro hpc hcur
    exact ⟨_, memReadReg_intrState, regRead_intrState_dev, operation_modifyMicro_accRd hpc hcur⟩
  case write =>
    intro hpc hcur
    exact operation_modifyMicro_accWr withWrite_intrState hpc hcur

/-- Settles O22: the shared steps of a modifying operation, for `INTR_ENABLE`, which stores every word. -/
theorem disableInterruptClearsFlag : Obligations.DisableInterruptClearsFlag := by
  intro sel s
  refine ⟨?valid, ?invalid, ?read, ?write⟩
  case valid => exact operation_acceptAccess_valid fun t => validFlag t.cfg sel
  case invalid => exact operation_acceptAccess_invalid fun t => validFlag t.cfg sel
  case read =>
    intro hpc hcur
    exact ⟨_, memReadReg_intrEnable, regRead_intrEnable_dev, operation_modifyMicro_accRd hpc hcur⟩
  case write =>
    intro hpc hcur
    exact operation_modifyMicro_accWr withWrite_intrEnable hpc hcur

end Sys2Proof.Machine
end

section
/-!
The configuration family (43_configuration_ops.md): one register write in `CF_WR` after acceptance (R190 to R192). What the write
makes of the device is one function of the parameters and the device, and that function is idempotent (R195).
-/
namespace Sys2Proof.Machine

section
variable {i : Instr} {r : RegName} {v fmt rx : Word} {s t : State} {micro : State → Res}

/-! ### The two steps -/

/-- Acceptance of a configuration operation enters `CF_WR`. -/
theorem operation_enter_cfWr (hacc : s.seq.pc.accepting = true) :
    operation i (enter i .cfWr) micro s = .next { s with seq := { s.seq with pc := .cfWr, cur := some i } } := by
  rw [operation_accept _ _ _ _ hacc, enter]

/-- `CF_WR` is not a terminal state: the operation in progress takes its step there. -/
theorem operation_cfWr {accept : State → Res} (hpc : s.seq.pc = .cfWr) (hcur : s.seq.cur = some i) :
    operation i accept micro s = micro s :=
  operation_micro _ _ _ _ (by rw [hpc]; rfl) hcur

theorem configure_cfWr (hpc : s.seq.pc = .cfWr) :
    configure r v s = withWrite r v s fun t => .next (completed t) := by
  rw [configure, hpc]

/-- R190: the write of `reset_fifos` stores the word and empties both queues. -/
theorem exec_resetFifos_cfWr (hpc : s.seq.pc = .cfWr) (hcur : s.seq.cur = some .resetFifos) :
    exec .resetFifos s =
      .next (completed { s with
        dev := { regs := { s.dev.regs with fifoCtrl := s.cfg.fifoResetValue }, fmtq := [], rxq := [] } }) :=
  calc exec .resetFifos s = configure .fifoCtrl s.cfg.fifoResetValue s := operation_cfWr hpc hcur
    _ = withWrite .fifoCtrl s.cfg.fifoResetValue s fun t => .next (completed t) := configure_cfWr hpc
    _ = _ := withWrite_fifoReset _ _

/-- R191: the write of `set_host_mode`. -/
theorem exec_setHostMode_cfWr (hpc : s.seq.pc = .cfWr) (hcur : s.seq.cur = some .setHostMode) :
    exec .setHostMode s = .next (completed { s with dev.regs.ctrl := s.cfg.ctrlHostValue }) :=
  calc exec .setHostMode s = configure .ctrl s.cfg.ctrlHostValue s := operation_cfWr hpc hcur
    _ = withWrite .ctrl s.cfg.ctrlHostValue s fun t => .next (completed t) := configure_cfWr hpc
    _ = _ := withWrite_ctrl _ _ _

/-- R192: the write of `set_host_thresholds`, whose word is left in `x10`. -/
theorem exec_setHostThresholds_cfWr (hpc : s.seq.pc = .cfWr) (hcur : s.seq.cur = some (.setHostThresholds fmt rx)) :
    exec (.setHostThresholds fmt rx) s =
      .next (completed { s with
        seq.x10 := thresholdWord s.cfg fmt rx, dev.regs.hostFifoConfig := thresholdWord s.cfg fmt rx }) :=
  calc exec (.setHostThresholds fmt rx) s = microSetHostThresholds fmt rx s := operation_cfWr hpc hcur
    _ = withWrite .hostFifoConfig (thresholdWord s.cfg fmt rx) { s with seq.x10 := thresholdWord s.cfg fmt rx }
          fun t => .next (completed t) := configure_cfWr hpc
    _ = _ := withWrite_hostFifoConfig _ _ _

/-! ### Twice as once -/

/-- The operations of 43_configuration_ops.md. -/
def ConfigurationOp (i : Instr) : Prop :=
  i = .resetFifos ∨ i = .setHostMode ∨ ∃ fmt rx, i = .setHostThresholds fmt rx

/-- What the write of a configuration operation makes of the device. -/
def configuredDevice (i : Instr) (c : Params) (d : Device) : Device :=
  match i with
  | .resetFifos => { regs := { d.regs with fifoCtrl := c.fifoResetValue }, fmtq := [], rxq := [] }
  | .setHostMode => { d with regs.ctrl := c.ctrlHostValue }
  | .setHostThresholds fmt rx => { d with regs.hostFifoConfig := thresholdWord c fmt rx }
  | _ => d

theorem configuredDevice_idem (i : Instr) (c : Params) (d : Device) :
    configuredDevice i c (configuredDevice i c d) = configuredDevice i c d := by
  cases i <;> rfl

theorem exec_configurationOp_accept (hi : ConfigurationOp i) (hacc : s.seq.pc.accepting = true) :
    exec i s = .next { s with seq := { s.seq with pc := .cfWr, cur := some i } } := by
  obtain rfl | rfl | ⟨fmt, rx, rfl⟩ := hi
  · exact operation_enter_cfWr hacc
  · exact operation_enter_cfWr hacc
  · exact operation_enter_cfWr hacc

theorem exec_configurationOp_cfWr (hi : ConfigurationOp i) (hpc : s.seq.pc = .cfWr) (hcur : s.seq.cur = some i) :
    ∃ t, exec i s = .next t ∧ t.seq.pc = .complete ∧ t.cfg = s.cfg ∧ t.dev = configuredDevice i s.cfg s.dev := by
  obtain rfl | rfl | ⟨fmt, rx, rfl⟩ := hi
  · exact ⟨_, exec_resetFifos_cfWr hpc hcur, rfl, rfl, rfl⟩
  · exact ⟨_, exec_setHostMode_cfWr hpc hcur, rfl, rfl, rfl⟩
  · exact ⟨_, exec_setHostThresholds_cfWr hpc hcur, rfl, rfl, rfl⟩

/-- A whole request of a configuration operation: acceptance and `CF_WR`. -/
theorem execTimes_configurationOp (hi : ConfigurationOp i) (hacc : s.seq.pc.accepting = true) :
    ∃ t, execTimes i 2 s = .next t ∧ t.seq.pc = .complete ∧ t.cfg = s.cfg ∧ t.dev = configuredDevice i s.cfg s.dev := by
  obtain ⟨t, ht, hpc, hcfg, hdev⟩ :=
    exec_configurationOp_cfWr (s := { s with seq := { s.seq with pc := .cfWr, cur := some i } }) hi rfl rfl
  refine ⟨t, ?_, hpc, hcfg, hdev⟩
  rw [execTimes_succ _ _ _ _ (exec_configurationOp_accept hi hacc), execTimes_succ _ _ _ _ ht, execTimes]

end

/-- Settles O18: two requests apply `configuredDevice` twice with the same parameters, and it is idempotent. -/
theorem configurationIsIdempotent : Obligations.ConfigurationIsIdempotent := by
  intro i s hacc hi
  obtain ⟨t, ht, htpc, htcfg, htdev⟩ := execTimes_configurationOp hi hacc
  obtain ⟨u, hu, hupc, -, hudev⟩ := execTimes_configurationOp (s := t) hi (by rw [htpc]; rfl)
  refine ⟨t, u, ht, htpc, hu, hupc, ?_⟩
  rw [hudev, htcfg, htdev, configuredDevice_idem]

/-- Settles O14: the write changes `FIFO_CTRL` and the queues, so `INTR_STATE` with its `Nak` stays. -/
theorem resetFifosEmptiesQueues : Obligations.ResetFifosEmptiesQueues :=
  fun _ => ⟨operation_enter_cfWr, exec_resetFifos_cfWr⟩

/-- Settles O15: host mode is the equality of `CTRL` with the word just written (R213). -/
theorem setHostModeStoresControl : Obligations.SetHostModeStoresControl :=
  fun _ => ⟨operation_enter_cfWr, fun hpc hcur => ⟨exec_setHostMode_cfWr hpc hcur, decide_eq_true rfl⟩⟩

/-- Settles O16: the word is `thresholdWord`, which is the expression of R192 by definition. -/
theorem setHostThresholdsStoresConfig : Obligations.SetHostThresholdsStoresConfig :=
  fun _ _ _ => ⟨operation_enter_cfWr, exec_setHostThresholds_cfWr⟩

end Sys2Proof.Machine
end

section
/-!
What a step may change (R40, R68, R79): every instruction's step makes at most one register access, and of the sequencer it
changes what its rule's State written line names. `StepEffect` says so for one step; each operation is shown to meet it by its
acceptance and its micro-states, and both frame statements are read off from it.
-/
namespace Sys2Proof.Machine

/-! ### The effect of one step -/

/-- The sequencer `q` in which the registers that the rule of `i` names have the values of `q'`. -/
def writtenSeq (i : Instr) (q q' : Sequencer) : Sequencer :=
  match i with
  | .resetFifos | .setHostMode => { q with pc := q'.pc, cur := q'.cur }
  | .setHostThresholds _ _ | .clearInterrupt _ | .enableInterrupt _ | .disableInterrupt _ =>
    { q with pc := q'.pc, cur := q'.cur, x10 := q'.x10 }
  | .setSpeed _ => { q with pc := q'.pc, cur := q'.cur, x11 := q'.x11, tp := q'.tp }
  | .interruptAsserted _ | .statusTest _ => { q with pc := q'.pc, cur := q'.cur, x9 := q'.x9, x10 := q'.x10 }
  | .write _ _ _ =>
    { q with pc := q'.pc, cur := q'.cur, x0 := q'.x0, x1 := q'.x1, x2 := q'.x2, x3 := q'.x3, x7 := q'.x7, x10 := q'.x10 }
  | .read _ _ =>
    { q with pc := q'.pc, cur := q'.cur, x0 := q'.x0, x1 := q'.x1, x3 := q'.x3, x4 := q'.x4, x5 := q'.x5, x6 := q'.x6,
             x7 := q'.x7, x8 := q'.x8, x9 := q'.x9, x10 := q'.x10 }
  | .blockingPush _ => { q with pc := q'.pc, cur := q'.cur, x7 := q'.x7, x10 := q'.x10 }
  | .addrW _ | .addrR _ | .data _ | .dataStop _ | .rdlen _ | .rdlenStop _ => q
  | .unassigned11 | .unassigned12 | .unassigned13 | .unassigned14 | .unassigned15 => q

/-- The instructions that write `FDATA`. -/
def PushesWords (i : Instr) : Prop :=
  (∃ a b c, i = .write a b c) ∨ (∃ a b, i = .read a b) ∨ ∃ v, i = .blockingPush v

/-- What one step of `i` may make of the device `d` and of the words `p` that `PUSHES` records: one access of the block, or the
device's execution of a format word. -/
inductive DeviceEffect (i : Instr) (d d' : Device) (p p' : List FmtWord) : Prop
  /-- No access, or one that leaves no trace. -/
  | same (dev : d' = d)
  /-- A register of the row of R79 takes a word. -/
  | store (r : RegName) (v : Word) (listed : r ∈ writtenRegs i) (dev : d' = { d with regs := RegFile.set d.regs r v })
  /-- A word enters the format FIFO (R201). -/
  | push (w : FmtWord) (pushes : PushesWords i) (dev : d' = { d with fmtq := d.fmtq ++ [w] }) (log : p' = p ++ [w])
  /-- A byte is read from the receive FIFO (R208). -/
  | pop (reads : ∃ a n, i = .read a n) (dev : d' = { d with rxq := d.rxq.tail })
  /-- A receive word puts bytes in the receive FIFO and may set `RxOverflow` (R206, R207). -/
  | receive (v : Word) (bs : List Byte) (receives : ∃ n, i = .rdlen n ∨ i = .rdlenStop n)
      (dev : d' = { d with regs := RegFile.set d.regs .intrState v, rxq := d.rxq ++ bs })
  /-- `FIFO_CTRL` is written and both queues are emptied (R190, R212). -/
  | flush (v : Word) (resets : i = .resetFifos)
      (dev : d' = { regs := RegFile.set d.regs .fifoCtrl v, fmtq := [], rxq := [] })

/-- Everything that one step of `i` may change, but for the draws, the visibility pointer, the caller's memory and the
observation lists. -/
structure StepEffect (i : Instr) (s t : State) : Prop where
  cfg : t.cfg = s.cfg
  port : t.port = s.port
  hist : t.view.hist = s.view.hist
  seq : t.seq = writtenSeq i s.seq t.seq
  dev : DeviceEffect i s.dev t.dev s.log.pushes t.log.pushes

/-- A step, or the rest of one, that makes no access: of the machine only registers that the rule of `i` names change, but for
the draws, the visibility pointer, the caller's memory and the observation lists other than `PUSHES`. -/
structure SeqChange (i : Instr) (s t : State) : Prop where
  cfg : t.cfg = s.cfg
  port : t.port = s.port
  hist : t.view.hist = s.view.hist
  seq : t.seq = writtenSeq i s.seq t.seq
  dev : t.dev = s.dev
  pushes : t.log.pushes = s.log.pushes

section
variable {i : Instr} {r : RegName} {v : Word} {s t u : State} {accept micro : State → Res}

theorem writtenSeq_self (i : Instr) (q : Sequencer) : writtenSeq i q q = q := by cases i <;> rfl

theorem writtenSeq_writtenSeq (i : Instr) (q q' q'' : Sequencer) :
    writtenSeq i (writtenSeq i q q') q'' = writtenSeq i q q'' := by cases i <;> rfl

/-- A step may go on after its access, as long as it makes no other. -/
theorem StepEffect.trans (h : StepEffect i s t) (h' : SeqChange i t u) : StepEffect i s u where
  cfg := h'.cfg.trans h.cfg
  port := h'.port.trans h.port
  hist := h'.hist.trans h.hist
  seq :=
    calc u.seq = writtenSeq i t.seq u.seq := h'.seq
      _ = writtenSeq i (writtenSeq i s.seq t.seq) u.seq := by rw [← h.seq]
      _ = writtenSeq i s.seq u.seq := writtenSeq_writtenSeq _ _ _ _
  dev := by rw [h'.dev, h'.pushes]; exact h.dev

/-- A request's step is its acceptance or a micro-state. -/
theorem operation_stepEffect (haccept : accept s = .next t → StepEffect i s t) (hmicro : micro s = .next t → StepEffect i s t)
    (h : operation i accept micro s = .next t) : StepEffect i s t := by
  obtain ⟨-, h⟩ | ⟨-, -, h⟩ := operation_next _ _ _ _ _ h
  · exact haccept h
  · exact hmicro h

/-! ### The shared operations -/

/-- A register read in an instruction whose rule names `x10`; only `read` reads `RDATA` (R68, R80). -/
theorem regRead_stepEffect (hr : r = .rdata → ∃ a n, i = .read a n)
    (hnamed : ∀ (q : Sequencer) (x10 : Word), { q with x10 := x10 } = writtenSeq i q { q with x10 := x10 }) :
    StepEffect i s (regRead r s) := by
  obtain ⟨v, e, j, hread, -⟩ := regRead_effect r s
  rw [hread]
  refine ⟨rfl, rfl, rfl, hnamed s.seq v, ?_⟩
  by_cases hrdata : r = .rdata
  · exact .pop (hr hrdata) (by simp [hrdata])
  · exact .same (by simp [hrdata])

/-- The write of a register in the row of R79. -/
theorem storeReg_stepEffect (hlisted : r ∈ writtenRegs i) : StepEffect i s (storeReg r v s) :=
  ⟨rfl, rfl, rfl, (writtenSeq_self i s.seq).symm, .store r v hlisted rfl⟩

theorem bufWrite_seqChange {k : Nat} {b : Byte} (h : bufWrite k b s = .ok t) : SeqChange i s t := by
  obtain ⟨-, hw⟩ | ⟨-, hw⟩ := bufWrite_cases k b s
  · rw [hw] at h
    cases h
    exact ⟨rfl, rfl, rfl, (writtenSeq_self i s.seq).symm, rfl, rfl⟩
  · rw [hw] at h
    cases h

/-- A step of `blocking_push` in an operation that pushes words and whose rule names `x7` and `x10`. -/
theorem blockingPushStep_stepEffect {w : FmtWord} {also : State → State} (hpush : PushesWords i)
    (hnamed : ∀ (q : Sequencer) (p : Pc) (c : Option Instr) (x7 : FmtWord) (x10 : Word),
      let q' := { q with pc := p, cur := c, x7 := x7, x10 := x10 }
      q' = writtenSeq i q q')
    (h : blockingPushStep w also s = .next t) (halso : ∀ u, SeqChange i u (also u)) : StepEffect i s t := by
  have returned : ∀ p u, SeqChange i u (returnTo p u) := by
    intro p u
    rw [returnTo]
    split
    · exact ⟨rfl, rfl, rfl, hnamed u.seq .complete none u.seq.x7 u.seq.x10, rfl, rfl⟩
    · exact ⟨rfl, rfl, rfl, hnamed u.seq p u.seq.cur u.seq.x7 u.seq.x10, rfl, rfl⟩
  obtain ⟨next, v, e, j, -, -, -, rfl⟩ | ⟨-, -, rfl⟩ | ⟨-, -, rfl⟩ := blockingPushStep_next w also s t h
  case inl => exact ⟨rfl, rfl, rfl, hnamed s.seq _ s.seq.cur w v, .same rfl⟩
  case inr.inl =>
    have pushed : StepEffect i s { s with
        seq := { s.seq with x7 := w }, dev.fmtq := s.dev.fmtq ++ [w], log.pushes := s.log.pushes ++ [w] } :=
      ⟨rfl, rfl, rfl, hnamed s.seq s.seq.pc s.seq.cur w s.seq.x10, .push w hpush rfl rfl⟩
    exact (pushed.trans (returned _ _)).trans (halso _)
  case inr.inr => exact ⟨rfl, rfl, rfl, hnamed s.seq _ none w s.seq.x10, .same rfl⟩

end

section
variable {i : Instr} {r : RegName} {v khz len : Word} {fmt rx : Word} {a : BitVec 7} {skip : Bool} {s t : State}

/-! ### Configuration -/

/-- R190 to R192: a configuration operation writes in `CF_WR` only. -/
theorem configure_next_pc (h : configure r v s = .next t) : s.seq.pc = .cfWr := by
  rw [configure] at h
  split at h
  next hpc => exact hpc
  · cases h

/-- R190: both steps of `reset_fifos`. -/
theorem exec_resetFifos_next (h : exec .resetFifos s = .next t) :
    (s.seq.pc ≠ .cfWr ∧ t = { s with seq := { s.seq with pc := .cfWr, cur := some .resetFifos } }) ∨
    (s.seq.pc = .cfWr ∧ t = completed { s with
      dev := { regs := { s.dev.regs with fifoCtrl := s.cfg.fifoResetValue }, fmtq := [], rxq := [] } }) := by
  obtain ⟨hacc, h⟩ | ⟨-, hcur, hmicro⟩ := operation_next _ _ _ _ _ h
  · cases h
    exact .inl ⟨fun hpc => absurd hacc (by rw [hpc]; decide), rfl⟩
  · have hpc := configure_next_pc hmicro
    rw [exec_resetFifos_cfWr hpc hcur] at h
    cases h
    exact .inr ⟨hpc, rfl⟩

theorem exec_resetFifos_stepEffect (h : exec .resetFifos s = .next t) : StepEffect .resetFifos s t := by
  obtain ⟨-, rfl⟩ | ⟨-, rfl⟩ := exec_resetFifos_next h
  · exact ⟨rfl, rfl, rfl, rfl, .same rfl⟩
  · exact ⟨rfl, rfl, rfl, rfl, .flush s.cfg.fifoResetValue rfl rfl⟩

theorem exec_setHostMode_stepEffect (h : exec .setHostMode s = .next t) : StepEffect .setHostMode s t := by
  obtain ⟨-, h⟩ | ⟨-, hcur, hmicro⟩ := operation_next _ _ _ _ _ h
  · cases h
    exact ⟨rfl, rfl, rfl, rfl, .same rfl⟩
  · rw [exec_setHostMode_cfWr (configure_next_pc hmicro) hcur] at h
    cases h
    exact ⟨rfl, rfl, rfl, rfl, .store .ctrl s.cfg.ctrlHostValue (by decide) rfl⟩

theorem exec_setHostThresholds_stepEffect (h : exec (.setHostThresholds fmt rx) s = .next t) :
    StepEffect (.setHostThresholds fmt rx) s t := by
  obtain ⟨-, h⟩ | ⟨-, hcur, hmicro⟩ := operation_next _ _ _ _ _ h
  · cases h
    exact ⟨rfl, rfl, rfl, rfl, .same rfl⟩
  · have hpc : s.seq.pc = .cfWr := configure_next_pc (s := { s with seq.x10 := thresholdWord s.cfg fmt rx }) hmicro
    rw [exec_setHostThresholds_cfWr hpc hcur] at h
    cases h
    exact ⟨rfl, rfl, rfl, rfl, .store .hostFifoConfig (thresholdWord s.cfg fmt rx) (List.mem_singleton.mpr rfl) rfl⟩

/-! ### The Timing Calculator -/

theorem acceptSetSpeed_stepEffect (h : acceptSetSpeed khz s = .next t) : StepEffect (.setSpeed khz) s t := by
  obtain ⟨-, ⟨-, rfl⟩ | ⟨-, rfl⟩⟩ := acceptSetSpeed_next h
  · exact ⟨rfl, rfl, rfl, rfl, .same rfl⟩
  · exact ⟨rfl, rfl, rfl, rfl, .same rfl⟩

theorem calculateTiming_stepEffect (h : calculateTiming khz s = .next t) : StepEffect (.setSpeed khz) s t := by
  rw [calculateTiming] at h
  split_ifs at h
  next noClock => cases h; exact ⟨rfl, rfl, rfl, rfl, .same rfl⟩
  next overflow => cases h; exact ⟨rfl, rfl, rfl, rfl, .same rfl⟩
  next fits => cases h; exact ⟨rfl, rfl, rfl, rfl, .same rfl⟩

theorem timingReg_mem_writtenRegs (j : Fin 5) (khz : Word) : timingReg j ∈ writtenRegs (.setSpeed khz) := by
  fin_cases j <;> simp [timingReg, writtenRegs]

theorem writeTiming_stepEffect {j : Fin 5} (h : writeTiming j s = .next t) : StepEffect (.setSpeed khz) s t := by
  have stored := timingReg_mem_writtenRegs j khz
  rw [writeTiming_eq] at h
  split_ifs at h
  next more => cases h; exact (storeReg_stepEffect stored).trans ⟨rfl, rfl, rfl, rfl, rfl, rfl⟩
  next last => cases h; exact (storeReg_stepEffect stored).trans ⟨rfl, rfl, rfl, rfl, rfl, rfl⟩

theorem exec_setSpeed_stepEffect (h : exec (.setSpeed khz) s = .next t) : StepEffect (.setSpeed khz) s t := by
  refine operation_stepEffect acceptSetSpeed_stepEffect (fun hmicro => ?_) h
  obtain ⟨-, hcalc⟩ | ⟨j, -, hwrite⟩ := microSetSpeed_next hmicro
  · exact calculateTiming_stepEffect hcalc
  · exact writeTiming_stepEffect hwrite

/-! ### The accessor -/

theorem acceptAccess_next {valid : Bool} (h : acceptAccess i valid s = .next t) :
    t = { s with seq := { s.seq with pc := .accRd, cur := some i } } := by
  rw [acceptAccess] at h
  split at h
  · cases h; rfl
  · cases h

/-- A testing operation reads its register into `x10` and answers in `x9`. -/
theorem operation_testMicro_stepEffect {valid : State → Bool} {test : Word → Bool} (hr : r ≠ .rdata)
    (hnamed : ∀ (q : Sequencer) (p : Pc) (c : Option Instr) (x9 : Bool) (x10 : Word),
      let q' := { q with pc := p, cur := c, x9 := x9, x10 := x10 }
      q' = writtenSeq i q q')
    (h : operation i (fun u => acceptAccess i (valid u) u) (testMicro r test) s = .next t) : StepEffect i s t := by
  refine operation_stepEffect (fun haccept => ?accept) (fun hmicro => ?micro) h
  case accept =>
    obtain rfl := acceptAccess_next haccept
    exact ⟨rfl, rfl, rfl, hnamed s.seq _ (some i) s.seq.x9 s.seq.x10, .same rfl⟩
  case micro =>
    have read : StepEffect i s (regRead r s) :=
      regRead_stepEffect (absurd · hr) fun q x10 => hnamed q q.pc q.cur q.x9 x10
    rw [testMicro] at hmicro
    split at hmicro
    · cases hmicro
      exact read.trans ⟨rfl, rfl, rfl, hnamed (regRead r s).seq _ none (test _) _, rfl, rfl⟩
    · cases hmicro

/-- A modifying operation reads its register into `x10` and stores a word in it. -/
theorem operation_modifyMicro_stepEffect {valid : State → Bool} {modify : Word → Word} (hr : r ≠ .rdata)
    (hlisted : r ∈ writtenRegs i) (stores : ∀ v t k, withWrite r v t k = k (storeReg r v t))
    (hnamed : ∀ (q : Sequencer) (p : Pc) (c : Option Instr) (x10 : Word),
      let q' := { q with pc := p, cur := c, x10 := x10 }
      q' = writtenSeq i q q')
    (h : operation i (fun u => acceptAccess i (valid u) u) (modifyMicro r modify) s = .next t) : StepEffect i s t := by
  refine operation_stepEffect (fun haccept => ?accept) (fun hmicro => ?micro) h
  case accept =>
    obtain rfl := acceptAccess_next haccept
    exact ⟨rfl, rfl, rfl, hnamed s.seq _ (some i) s.seq.x10, .same rfl⟩
  case micro =>
    have read : StepEffect i s (regRead r s) :=
      regRead_stepEffect (absurd · hr) fun q x10 => hnamed q q.pc q.cur x10
    rw [modifyMicro, stores] at hmicro
    split at hmicro
    · cases hmicro
      exact read.trans ⟨rfl, rfl, rfl, hnamed _ _ (regRead r s).seq.cur (regRead r s).seq.x10, rfl, rfl⟩
    · cases hmicro
      exact (storeReg_stepEffect hlisted).trans ⟨rfl, rfl, rfl, hnamed _ _ none s.seq.x10, rfl, rfl⟩
    · cases hmicro

/-! ### `write` -/

theorem acceptWrite_stepEffect (h : acceptWrite a skip len s = .next t) : StepEffect (.write a skip len) s t := by
  rw [acceptWrite] at h
  split_ifs at h
  next empty => cases h; exact ⟨rfl, rfl, rfl, rfl, .same rfl⟩
  next nonempty => cases h; exact ⟨rfl, rfl, rfl, rfl, .same rfl⟩

theorem blockingPushStep_write_stepEffect {w : FmtWord} {also : State → State}
    (h : blockingPushStep w also s = .next t) (halso : ∀ u, SeqChange (.write a skip len) u (also u)) :
    StepEffect (.write a skip len) s t :=
  blockingPushStep_stepEffect (.inl ⟨a, skip, len, rfl⟩) (fun _ _ _ _ _ => rfl) h halso

theorem pushData_stepEffect (h : pushData s = .next t) : StepEffect (.write a skip len) s t := by
  rw [pushData] at h
  split at h
  · cases h
    exact ⟨rfl, rfl, rfl, rfl, .same rfl⟩
  · exact blockingPushStep_write_stepEffect h fun _ => ⟨rfl, rfl, rfl, rfl, rfl, rfl⟩

theorem exec_write_stepEffect (h : exec (.write a skip len) s = .next t) : StepEffect (.write a skip len) s t := by
  refine operation_stepEffect acceptWrite_stepEffect (fun hmicro => ?_) h
  rw [microWrite] at hmicro
  split at hmicro
  next startPoll => exact blockingPushStep_write_stepEffect hmicro fun _ => ⟨rfl, rfl, rfl, rfl, rfl, rfl⟩
  next startPush => exact blockingPushStep_write_stepEffect hmicro fun _ => ⟨rfl, rfl, rfl, rfl, rfl, rfl⟩
  next dataPoll => exact blockingPushStep_write_stepEffect hmicro fun _ => ⟨rfl, rfl, rfl, rfl, rfl, rfl⟩
  next dataPush => exact pushData_stepEffect hmicro
  · cases hmicro

/-! ### `read` -/

theorem acceptRead_stepEffect (h : acceptRead a len s = .next t) : StepEffect (.read a len) s t := by
  rw [acceptRead] at h
  split_ifs at h
  next empty => cases h; exact ⟨rfl, rfl, rfl, rfl, .same rfl⟩
  next nonempty => cases h; exact ⟨rfl, rfl, rfl, rfl, .same rfl⟩

theorem regRead_read_stepEffect : StepEffect (.read a len) s (regRead r s) :=
  regRead_stepEffect (fun _ => ⟨a, len, rfl⟩) fun _ _ => rfl

theorem pollEmpty_stepEffect {stay next : Pc} (h : pollEmpty stay next s = .next t) : StepEffect (.read a len) s t := by
  cases h
  exact regRead_read_stepEffect.trans ⟨rfl, rfl, rfl, rfl, rfl, rfl⟩

theorem nakTest_stepEffect (h : nakTest s = .next t) : StepEffect (.read a len) s t := by
  rw [nakTest] at h
  split_ifs at h
  next nak => cases h; exact regRead_read_stepEffect.trans ⟨rfl, rfl, rfl, rfl, rfl, rfl⟩
  next ack => cases h; exact regRead_read_stepEffect.trans ⟨rfl, rfl, rfl, rfl, rfl, rfl⟩

theorem nakClear_stepEffect (h : nakClear s = .next t) : StepEffect (.read a len) s t := by
  rw [nakClear, withWrite_intrState] at h
  cases h
  exact (storeReg_stepEffect (List.mem_singleton.mpr rfl)).trans ⟨rfl, rfl, rfl, rfl, rfl, rfl⟩

theorem dataWait_stepEffect (h : dataWait s = .next t) : StepEffect (.read a len) s t := by
  rw [dataWait] at h
  split_ifs at h
  next sent => cases h; exact regRead_read_stepEffect.trans ⟨rfl, rfl, rfl, rfl, rfl, rfl⟩
  next pending => cases h; exact regRead_read_stepEffect.trans ⟨rfl, rfl, rfl, rfl, rfl, rfl⟩

/-- The end of a chunk changes the counters and, after the last chunk, ends the operation; it makes no access (R154). -/
theorem chunkDone_seqChange : SeqChange (.read a len) s (chunkDone s) := by
  rw [chunkDone]
  split
  next last => exact ⟨rfl, rfl, rfl, rfl, rfl, rfl⟩
  next more => exact ⟨rfl, rfl, rfl, rfl, rfl, rfl⟩

/-- The one access of `R_DRAIN` is the read of `RDATA`; the byte goes to the caller's memory (R152, R154). -/
theorem drain_stepEffect (h : drain s = .next t) : StepEffect (.read a len) s t := by
  rw [drain] at h
  split at h
  next f outOfBounds =>
    cases h
    exact regRead_read_stepEffect.trans ⟨rfl, rfl, rfl, rfl, rfl, rfl⟩
  next u stored =>
    have advanced : StepEffect (.read a len) s { u with seq.x8 := u.seq.x8 + 1#8 } :=
      (regRead_read_stepEffect.trans (bufWrite_seqChange stored)).trans ⟨rfl, rfl, rfl, rfl, rfl, rfl⟩
    dsimp only at h
    split_ifs at h
    next chunkEnds => cases h; exact advanced.trans chunkDone_seqChange
    next chunkGoesOn => cases h; exact advanced

theorem blockingPushStep_read_stepEffect {w : FmtWord} (h : blockingPushStep w id s = .next t) :
    StepEffect (.read a len) s t :=
  blockingPushStep_stepEffect (.inr (.inl ⟨a, len, rfl⟩)) (fun _ _ _ _ _ => rfl) h
    fun _ => ⟨rfl, rfl, rfl, rfl, rfl, rfl⟩

theorem exec_read_stepEffect (h : exec (.read a len) s = .next t) : StepEffect (.read a len) s t := by
  refine operation_stepEffect acceptRead_stepEffect (fun hmicro => ?_) h
  rw [microRead] at hmicro
  split at hmicro
  iterate 4 exact blockingPushStep_read_stepEffect hmicro
  next addrWait => exact pollEmpty_stepEffect hmicro
  next nakTest => exact nakTest_stepEffect hmicro
  next nakClearRd => cases hmicro; exact regRead_read_stepEffect.trans ⟨rfl, rfl, rfl, rfl, rfl, rfl⟩
  next nakClearWr => exact nakClear_stepEffect hmicro
  next dataWait => exact dataWait_stepEffect hmicro
  next drain => exact drain_stepEffect hmicro
  · cases hmicro

theorem exec_blockingPush_stepEffect {w : FmtWord} (h : exec (.blockingPush w) s = .next t) :
    StepEffect (.blockingPush w) s t :=
  blockingPushStep_stepEffect (.inr (.inr ⟨w, rfl⟩)) (fun _ _ _ _ _ => rfl) h
    fun _ => ⟨rfl, rfl, rfl, rfl, rfl, rfl⟩

/-! ### Format words and unassigned select codes -/

/-- A transmit word may set `Nak` (R204, R205). -/
theorem performWord_transmit_stepEffect {w : FmtWord} (hw : w.readb = false) (hlisted : .intrState ∈ writtenRegs i)
    (hnamed : ∀ q q', writtenSeq i q q' = q) : StepEffect i s (performWord w s) := by
  obtain ⟨e, he⟩ := drawAck_effect s
  rw [performWord_transmit w s hw, he]
  exact ⟨rfl, rfl, rfl, (hnamed _ _).symm, .store .intrState _ hlisted rfl⟩

/-- A receive word may set `RxOverflow` and stores bytes (R206, R207). -/
theorem performWord_receive_stepEffect {w : FmtWord} (hw : w.readb = true)
    (hreceives : ∃ n, i = .rdlen n ∨ i = .rdlenStop n) (hnamed : ∀ q q', writtenSeq i q q' = q) :
    StepEffect i s (performWord w s) := by
  obtain ⟨bs, e, -, -, -, hperform⟩ := performWord_receive w s hw
  rw [hperform]
  exact ⟨rfl, rfl, rfl, (hnamed _ _).symm, .receive _ _ hreceives rfl⟩

/-- R108: an unassigned select code answers no next state. -/
theorem refuseSelectCode_ne_next : refuseSelectCode s ≠ .next t := by
  rw [refuseSelectCode]
  split
  · exact nofun
  · exact nofun

/-! ### Every instruction -/

/-- One step of any instruction makes at most one access of its row and changes the registers that its rule names. -/
theorem exec_stepEffect (h : exec i s = .next t) : StepEffect i s t := by
  cases i with
  | resetFifos => exact exec_resetFifos_stepEffect h
  | setHostMode => exact exec_setHostMode_stepEffect h
  | setSpeed khz => exact exec_setSpeed_stepEffect h
  | write a skip len => exact exec_write_stepEffect h
  | read a len => exact exec_read_stepEffect h
  | interruptAsserted sel =>
    exact operation_testMicro_stepEffect (valid := fun u => validFlag u.cfg sel) (by decide) (fun _ _ _ _ _ => rfl) h
  | statusTest sel =>
    exact operation_testMicro_stepEffect (valid := fun _ => validStatusIndex sel) (by decide) (fun _ _ _ _ _ => rfl) h
  | clearInterrupt sel =>
    exact operation_modifyMicro_stepEffect (valid := fun u => validFlag u.cfg sel) (by decide) (List.mem_singleton.mpr rfl)
      withWrite_intrState (fun _ _ _ _ => rfl) h
  | enableInterrupt sel =>
    exact operation_modifyMicro_stepEffect (valid := fun u => validFlag u.cfg sel) (by decide) (List.mem_singleton.mpr rfl)
      withWrite_intrEnable (fun _ _ _ _ => rfl) h
  | disableInterrupt sel =>
    exact operation_modifyMicro_stepEffect (valid := fun u => validFlag u.cfg sel) (by decide) (List.mem_singleton.mpr rfl)
      withWrite_intrEnable (fun _ _ _ _ => rfl) h
  | setHostThresholds fmt rx => exact exec_setHostThresholds_stepEffect h
  | unassigned11 | unassigned12 | unassigned13 | unassigned14 | unassigned15 => exact absurd h refuseSelectCode_ne_next
  | addrW a | addrR a =>
    obtain ⟨-, -, transmits, -⟩ := addressWord_flags a _
    cases h
    exact performWord_transmit_stepEffect transmits (List.mem_singleton.mpr rfl) fun _ _ => rfl
  | data d | dataStop d =>
    obtain ⟨-, -, transmits, -⟩ := dataWord_flags d _
    cases h
    exact performWord_transmit_stepEffect transmits (List.mem_singleton.mpr rfl) fun _ _ => rfl
  | rdlen n =>
    obtain ⟨-, -, receives, -⟩ := readLengthWord_flags n false
    cases h
    exact performWord_receive_stepEffect receives ⟨n, .inl rfl⟩ fun _ _ => rfl
  | rdlenStop n =>
    obtain ⟨-, -, receives, -⟩ := readLengthWord_flags n true
    cases h
    exact performWord_receive_stepEffect receives ⟨n, .inr rfl⟩ fun _ _ => rfl
  | blockingPush w => exact exec_blockingPush_stepEffect h

end

/-! ### The frames -/

section
variable {i : Instr} {d d' : Device} {p p' : List FmtWord}

/-- R79: a register outside the row keeps its word. -/
theorem DeviceEffect.get_regs (h : DeviceEffect i d d' p p') {r : RegName} (hr : r ∉ writtenRegs i) :
    RegFile.get d'.regs r = RegFile.get d.regs r := by
  have other : ∀ q v, q ∈ writtenRegs i → RegFile.get (RegFile.set d.regs q v) r = RegFile.get d.regs r := by
    intro q v hq
    exact RegFile.get_set_other _ _ _ _ fun hrq => hr (hrq ▸ hq)
  cases h with
  | same dev => rw [dev]
  | store q v listed dev => rw [dev]; exact other q v listed
  | push w pushes dev log => rw [dev]
  | pop reads dev => rw [dev]
  | receive v bs receives dev =>
    obtain ⟨n, rfl | rfl⟩ := receives
    · rw [dev]; exact other .intrState v (List.mem_singleton.mpr rfl)
    · rw [dev]; exact other .intrState v (List.mem_singleton.mpr rfl)
  | flush v resets dev => subst resets; rw [dev]; exact other .fifoCtrl v (List.mem_singleton.mpr rfl)

/-- R68: the format FIFO gains at most one word, which `PUSHES` records. -/
theorem DeviceEffect.fmtq (h : DeviceEffect i d d' p p') (hi : i ≠ .resetFifos) :
    d'.fmtq = d.fmtq ∨ ∃ w, d'.fmtq = d.fmtq ++ [w] ∧ p' = p ++ [w] ∧ PushesWords i := by
  cases h with
  | same dev => exact .inl (by rw [dev])
  | store q v listed dev => exact .inl (by rw [dev])
  | push w pushes dev log => exact .inr ⟨w, by rw [dev], log, pushes⟩
  | pop reads dev => exact .inl (by rw [dev])
  | receive v bs receives dev => exact .inl (by rw [dev])
  | flush v resets dev => exact absurd resets hi

/-- R68: the receive FIFO loses its head to a `read` or gains bytes from a receive word. -/
theorem DeviceEffect.rxq (h : DeviceEffect i d d' p p') (hi : i ≠ .resetFifos) :
    d'.rxq = d.rxq ∨ (d'.rxq = d.rxq.tail ∧ ∃ a n, i = .read a n) ∨
      ((∃ bs, d'.rxq = d.rxq ++ bs) ∧ ∃ n, i = .rdlen n ∨ i = .rdlenStop n) := by
  cases h with
  | same dev => exact .inl (by rw [dev])
  | store q v listed dev => exact .inl (by rw [dev])
  | push w pushes dev log => exact .inl (by rw [dev])
  | pop reads dev => exact .inr (.inl ⟨by rw [dev], reads⟩)
  | receive v bs receives dev => exact .inr (.inr ⟨⟨bs, by rw [dev]⟩, receives⟩)
  | flush v resets dev => exact absurd resets hi

/-- R190: `reset_fifos` empties the queues in `CF_WR` and leaves them in its acceptance. -/
theorem exec_resetFifos_queues {s t : State} (h : exec .resetFifos s = .next t) :
    if s.seq.pc = .cfWr then t.dev.fmtq = [] ∧ t.dev.rxq = [] else t.dev.fmtq = s.dev.fmtq ∧ t.dev.rxq = s.dev.rxq := by
  obtain ⟨hpc, rfl⟩ | ⟨hpc, rfl⟩ := exec_resetFifos_next h
  · rw [if_neg hpc]
    exact ⟨rfl, rfl⟩
  · rw [if_pos hpc]
    exact ⟨rfl, rfl⟩

end

/-- Settles O48: the sequencer's part of `exec_stepEffect`, whose `writtenSeq` is the frame of each rule. -/
theorem workingRegisterFrames : Obligations.WorkingRegisterFrames := by
  intro i s t h
  obtain ⟨hcfg, hport, hhist, hseq, -⟩ := exec_stepEffect h
  refine ⟨hcfg, hport, hhist, ?_⟩
  cases i
  case unassigned11 | unassigned12 | unassigned13 | unassigned14 | unassigned15 => exact refuseSelectCode_ne_next h
  all_goals exact hseq

/-- Settles O49: the device's part of `exec_stepEffect`, access by access. -/
theorem registerAndQueueFrames : Obligations.RegisterAndQueueFrames := by
  intro i s t h
  obtain ⟨-, -, -, -, hdev⟩ := exec_stepEffect h
  refine ⟨fun r hr => hdev.get_regs hr, hdev.fmtq, hdev.rxq, ?_⟩
  rintro rfl
  exact exec_resetFifos_queues h

end Sys2Proof.Machine
end

section
/-!
The device family (45_device_environment.md): the `DEV_FLAG` step and the register writes. The new `INTR_STATE` of a flag step is
a merge under the mask of `Nak`, so its bits are those of `withDraw`; the register writes are read off from `regWrite_store` and one
lemma per effect of the two registers, `FDATA` and `FIFO_CTRL`, whose write also moves a queue.
-/
namespace Sys2Proof.Machine

section
variable {v : Word} {s : State}

/-! ### The flag step (R210) -/

/-- Bit `k` of `INTR_STATE` after a flag step is the chosen one, but for `Nak`'s. -/
theorem getLsbD_deviceFlagStep {k : Nat} (hk : k < 32) :
    (deviceFlagStep v s).dev.regs.intrState.getLsbD k =
      if k = s.cfg.flags.nak.toNat then s.dev.regs.intrState.getLsbD k else v.getLsbD k := by
  have merged : (deviceFlagStep v s).dev.regs.intrState =
      withDraw (flagBit s.cfg.flags.nak) s.dev.regs.intrState v := rfl
  rw [merged, getLsbD_withDraw, flagBit, getLsbD_flagBit]
  simp [hk]

/-! ### `FDATA` (R201, R202) -/

/-- The word that a write of `FDATA` appends is the low 13 bits of its value. -/
theorem fdataWord_eq_extractLsb' (v : Word) : fdataWord v = v.extractLsb' 0 13 := by
  rw [fdataWord, BitVec.setWidth_eq_extractLsb' (by omega)]

theorem regWrite_fdata_of_room (h : s.dev.fmtq.length < s.cfg.fmtDepth) :
    regWrite .fdata v s = .ok { s with
      dev.fmtq := s.dev.fmtq ++ [v.extractLsb' 0 13], log.pushes := s.log.pushes ++ [v.extractLsb' 0 13] } := by
  rw [← fdataWord_eq_extractLsb']
  exact if_pos h

theorem regWrite_fdata_of_full (h : s.dev.fmtq.length = s.cfg.fmtDepth) :
    regWrite .fdata v s = .error .pushWhenFull :=
  if_neg (by omega)

/-! ### `FIFO_CTRL` (R212) -/

theorem writeFifoCtrl_regs : (writeFifoCtrl v s).dev.regs = { s.dev.regs with fifoCtrl := v } := by
  unfold writeFifoCtrl
  split <;> rfl

theorem writeFifoCtrl_resetValue_queues (h : v = s.cfg.fifoResetValue) :
    (writeFifoCtrl v s).dev.fmtq = [] ∧ (writeFifoCtrl v s).dev.rxq = [] := by
  rw [writeFifoCtrl, if_pos h]
  exact ⟨rfl, rfl⟩

/-- For a value that does not reset, the two low bits of one draw decide over the two queues. -/
theorem writeFifoCtrl_other_queues (h : v ≠ s.cfg.fifoResetValue) :
    (writeFifoCtrl v s).dev.fmtq = (if (drawWord s).1.getLsbD 0 then [] else s.dev.fmtq) ∧
      (writeFifoCtrl v s).dev.rxq = (if (drawWord s).1.getLsbD 1 then [] else s.dev.rxq) := by
  rw [writeFifoCtrl, if_neg h]
  exact ⟨rfl, rfl⟩

/-- Whatever the value, each queue is kept whole or emptied. -/
theorem writeFifoCtrl_queues_kept_or_emptied :
    ((writeFifoCtrl v s).dev.fmtq = s.dev.fmtq ∨ (writeFifoCtrl v s).dev.fmtq = []) ∧
      ((writeFifoCtrl v s).dev.rxq = s.dev.rxq ∨ (writeFifoCtrl v s).dev.rxq = []) := by
  by_cases h : v = s.cfg.fifoResetValue
  · obtain ⟨hfmtq, hrxq⟩ := writeFifoCtrl_resetValue_queues h
    exact ⟨.inr hfmtq, .inr hrxq⟩
  · obtain ⟨hfmtq, hrxq⟩ := writeFifoCtrl_other_queues h
    rw [hfmtq, hrxq]
    exact ⟨(ite_eq_or_eq _ _ _).symm, (ite_eq_or_eq _ _ _).symm⟩

end

/-- Settles O41: the step stores one word in `INTR_STATE`, whose bits `getLsbD_deviceFlagStep` gives. -/
theorem flagStepSparesNak : Obligations.FlagStepSparesNak :=
  fun _ _ => ⟨rfl, fun _ => getLsbD_deviceFlagStep⟩

/-- Settles O47: the two registers with a queue by their own lemmas, the others by `regWrite_store`. -/
theorem registerWrites : Obligations.RegisterWrites := by
  intro v s
  have store (r : RegName) (hfdata : r ≠ .fdata := by decide) (hfifoCtrl : r ≠ .fifoCtrl := by decide)
      (hused : r.unused = false := by rfl) : regWrite r v s = .ok (storeReg r v s) :=
    regWrite_store r v s hfdata hfifoCtrl hused
  exact ⟨regWrite_fdata_of_room, regWrite_fdata_of_full,
    ⟨writeFifoCtrl v s, rfl, writeFifoCtrl_regs, writeFifoCtrl_resetValue_queues, writeFifoCtrl_queues_kept_or_emptied⟩,
    store .ctrl, store .timing0, store .timing1, store .timing2, store .timing3, store .timing4,
    store .hostFifoConfig, store .intrEnable, store .intrState⟩

end Sys2Proof.Machine
end

section
/-!
The exceptions family (60_exceptions.md): the requests that R227 refuses, and every step of `set_speed` with its refusal of the
speed 0 and its two faults (R129, R222 to R224). Each check is said where it is made: the two of acceptance in `acceptSetSpeed`,
the third in `TS_CALC`; the five writes are one lemma over `TS_WR<j>`.
-/
namespace Sys2Proof.Machine

/-! ### Bad requests (R227) -/

section
variable {sel : BitVec 5} {c : Params} {s : State}

theorem refuseSelectCode_of_accepting (hacc : s.seq.pc.accepting = true) : refuseSelectCode s = .refused .badRequest :=
  if_pos hacc

theorem validFlag_eq_false_iff : validFlag c sel = false ↔ sel ∉ c.flags.positions := by
  simp [validFlag]

theorem validStatusIndex_eq_false_iff : validStatusIndex sel = false ↔ 10 < sel.toNat := by
  simp [validStatusIndex]

end

/-- Settles O26: a select code by `refuseSelectCode`, an operand by the shared acceptance of the accessor (R179). -/
theorem badRequestsAreRefused : Obligations.BadRequestsAreRefused := by
  intro sel s hacc
  have code : refuseSelectCode s = .refused .badRequest := refuseSelectCode_of_accepting hacc
  refine ⟨⟨code, code, code, code, code⟩, ?flag, ?status⟩
  case flag =>
    intro hsel
    have refused (i : Instr) (micro : State → Res) :
        operation i (fun t => acceptAccess i (validFlag t.cfg sel) t) micro s = .refused .badRequest :=
      operation_acceptAccess_invalid (fun t => validFlag t.cfg sel) hacc (validFlag_eq_false_iff.mpr hsel)
    exact ⟨refused _ _, refused _ _, refused _ _, refused _ _⟩
  case status =>
    intro hsel
    exact operation_acceptAccess_invalid (fun _ => validStatusIndex sel) hacc (validStatusIndex_eq_false_iff.mpr hsel)

/-! ### The steps of `set_speed` (R129) -/

section
variable {khz : Word} {s : State}

theorem exec_setSpeed_accept (hacc : s.seq.pc.accepting = true) : exec (.setSpeed khz) s = acceptSetSpeed khz s :=
  operation_accept _ _ _ s hacc

/-- R223: a speed of 0 is refused before the clock is looked at. -/
theorem acceptSetSpeed_zero : acceptSetSpeed 0#32 s = .refused .speedZero :=
  if_pos rfl

/-- R222: a clock without a period faults on acceptance. -/
theorem acceptSetSpeed_of_noPeriod (hkhz : khz ≠ 0#32) (hperiod : noPeriod s.cfg = true) :
    acceptSetSpeed khz s = .next (faulted .zeroPeriod s) := by
  rw [acceptSetSpeed, if_neg hkhz, if_pos hperiod, raise]

theorem acceptSetSpeed_of_period (hkhz : khz ≠ 0#32) (hperiod : noPeriod s.cfg = false) :
    acceptSetSpeed khz s = .next { s with seq := { s.seq with pc := .tsCalc, cur := some (.setSpeed khz) } } := by
  rw [acceptSetSpeed, if_neg hkhz, if_neg (ne_true_of_eq_false hperiod), enter]

/-- R126, R224: the raw counts stay in `TP` and no register is written. -/
theorem calculateTiming_of_overflow (hperiod : noPeriod s.cfg = false)
    (hover : clampOverflows (rawCounts s.cfg (busMode khz)) = true) :
    calculateTiming khz s =
      .next (faulted .timingOverflow
        { s with seq := { s.seq with x11 := busMode khz, tp := rawCounts s.cfg (busMode khz) } }) := by
  simp [calculateTiming, hperiod, hover, raise]

/-- R122 to R125: the clamped counts, and on to the first write. -/
theorem calculateTiming_of_fits (hperiod : noPeriod s.cfg = false)
    (hfits : clampOverflows (rawCounts s.cfg (busMode khz)) = false) :
    calculateTiming khz s =
      .next { s with seq := { s.seq with
        pc := .tsWr 0, x11 := busMode khz, tp := clampCounts (rawCounts s.cfg (busMode khz)) } } := by
  simp [calculateTiming, hperiod, hfits, goto, withPc]

/-- In `TS_WR<j>` the request in progress writes. -/
theorem exec_setSpeed_tsWr {j : Fin 5} (hpc : s.seq.pc = .tsWr j) (hcur : s.seq.cur = some (.setSpeed khz)) :
    exec (.setSpeed khz) s = writeTiming j s := by
  have busy : s.seq.pc.accepting = false := by rw [hpc]; rfl
  calc exec (.setSpeed khz) s = microSetSpeed khz s := operation_micro _ _ _ s busy hcur
    _ = writeTiming j s := by rw [microSetSpeed, hpc]

/-- R127, R128: a write before the last one moves on to the next timing register. -/
theorem exec_setSpeed_tsWr_succ {j : Fin 5} (h : j.val + 1 < 5) (hcur : s.seq.cur = some (.setSpeed khz))
    (hpc : s.seq.pc = .tsWr j) :
    exec (.setSpeed khz) s =
      .next (withPc (.tsWr ⟨j.val + 1, h⟩) (storeReg (timingReg j) (timingWord s.cfg s.seq.tp j) s)) := by
  rw [exec_setSpeed_tsWr hpc hcur, writeTiming_eq, dif_pos h, goto]

/-- R127, R128: the last write completes the operation. -/
theorem exec_setSpeed_tsWr_last (hcur : s.seq.cur = some (.setSpeed khz)) (hpc : s.seq.pc = .tsWr 4) :
    exec (.setSpeed khz) s = .next (completed (storeReg .timing4 (timingWord s.cfg s.seq.tp 4) s)) := by
  rw [exec_setSpeed_tsWr hpc hcur, writeTiming_eq, dif_neg (by decide), timingReg]

end

/-- Settles O11: the outcomes of acceptance, of `TS_CALC` and of `TS_WR<j>`, each by its lemma; `TIMING<j>` is `timingReg j` by
definition. -/
theorem setSpeedSteps : Obligations.SetSpeedSteps := by
  intro khz s
  refine ⟨?accept, ?micro⟩
  case accept =>
    intro hacc
    rw [exec_setSpeed_accept hacc]
    exact ⟨fun hzero => hzero ▸ acceptSetSpeed_zero, acceptSetSpeed_of_noPeriod, acceptSetSpeed_of_period⟩
  case micro =>
    intro hcur hperiod
    exact ⟨
      fun hpc hover => (exec_setSpeed_tsCalc hpc hcur).trans (calculateTiming_of_overflow hperiod hover),
      fun hpc hfits => (exec_setSpeed_tsCalc hpc hcur).trans (calculateTiming_of_fits hperiod hfits),
      exec_setSpeed_tsWr_succ (j := 0) (by decide) hcur, exec_setSpeed_tsWr_succ (j := 1) (by decide) hcur,
      exec_setSpeed_tsWr_succ (j := 2) (by decide) hcur, exec_setSpeed_tsWr_succ (j := 3) (by decide) hcur,
      exec_setSpeed_tsWr_last hcur⟩

end Sys2Proof.Machine
end

section
/-!
The encodings (30_encoding.md sections 2 and 5): the fields of a packed record and of the three kinds of format word, and from
them that decoding undoes encoding. With `encode_of_decodeFormat` for the other direction, the format decoder accepts exactly the
encodings.
-/
namespace Sys2Proof.Machine

/-! ### The fields of a request record (R101) -/

section
variable (op : BitVec 4) (a : BitVec 7) (skip : Bool) (sel : BitVec 5) (u v : Word)

/-- A bit of a record is a bit of the field that its position lies in. -/
theorem getLsbD_requestWord (k : Nat) :
    (requestWord op a skip sel u v).getLsbD k =
      if k < 32 then v.getLsbD k else if k - 32 < 32 then u.getLsbD (k - 32)
      else if k - 64 < 5 then sel.getLsbD (k - 64) else if k - 69 < 1 then (BitVec.ofBool skip).getLsbD (k - 69)
      else if k - 70 < 7 then a.getLsbD (k - 70) else op.getLsbD (k - 77) := by
  rw [requestWord]
  iterate 5 rw [BitVec.getLsbD_append]
  simp only [Nat.sub_sub, Nat.reduceAdd]

@[simp] theorem requestWord_op : (requestWord op a skip sel u v).op = op := by
  ext k hk
  rw [ReqWord.op, BitVec.getElem_extractLsb', getLsbD_requestWord]
  grind

@[simp] theorem requestWord_addr7 : (requestWord op a skip sel u v).addr7 = a := by
  ext k hk
  rw [ReqWord.addr7, BitVec.getElem_extractLsb', getLsbD_requestWord]
  grind

@[simp] theorem requestWord_skip : (requestWord op a skip sel u v).skip = skip := by
  rw [ReqWord.skip, getLsbD_requestWord]
  simp

@[simp] theorem requestWord_sel : (requestWord op a skip sel u v).sel = sel := by
  ext k hk
  rw [ReqWord.sel, BitVec.getElem_extractLsb', getLsbD_requestWord]
  grind

@[simp] theorem requestWord_arg0 : (requestWord op a skip sel u v).arg0 = u := by
  ext k hk
  rw [ReqWord.arg0, BitVec.getElem_extractLsb', getLsbD_requestWord]
  grind

@[simp] theorem requestWord_arg1 : (requestWord op a skip sel u v).arg1 = v := by
  ext k hk
  rw [ReqWord.arg1, BitVec.getElem_extractLsb', getLsbD_requestWord]
  grind

end

/-! ### The five flags of a format word (R92) -/

/-- Bits 12:8 of a format word are its flags, `NAKOK` first. -/
theorem extractLsb'_flags (w : FmtWord) :
    w.extractLsb' 8 5 = BitVec.ofBool w.nakok ++ BitVec.ofBool w.rcont ++ BitVec.ofBool w.readb ++ BitVec.ofBool w.stop ++
      BitVec.ofBool w.start := by
  ext k hk
  rw [BitVec.getElem_extractLsb', ← BitVec.getLsbD_eq_getElem]
  iterate 4 rw [BitVec.getLsbD_append]
  obtain rfl | rfl | rfl | rfl | rfl : k = 0 ∨ k = 1 ∨ k = 2 ∨ k = 3 ∨ k = 4 := by omega
  all_goals simp [FmtWord.nakok, FmtWord.rcont, FmtWord.readb, FmtWord.stop, FmtWord.start]

/-! ### Decoding an encoding -/

/-- The two parts of the byte of an address word (R93). -/
theorem addressWord_parts (a : BitVec 7) (rw : Bool) :
    (addressWord a rw).extractLsb' 1 7 = a ∧ (addressWord a rw).getLsbD 0 = rw := by
  revert a rw
  decide +kernel

theorem decodeFormat_addressWord (a : BitVec 7) (rw : Bool) :
    decodeFormat (addressWord a rw) = .ok (if rw then .addrR a else .addrW a) := by
  obtain ⟨start, stop, readb, nakok, -, rcont⟩ := addressWord_flags a rw
  obtain ⟨address, direction⟩ := addressWord_parts a rw
  cases rw <;> simp only [decodeFormat, start, stop, readb, nakok, rcont, address, direction] <;> rfl

theorem decodeFormat_dataWord (d : Byte) (stop : Bool) :
    decodeFormat (dataWord stop d) = .ok (if stop then .dataStop d else .data d) := by
  obtain ⟨start, hstop, readb, nakok, byte, rcont⟩ := dataWord_flags d stop
  cases stop <;> simp [decodeFormat, start, hstop, readb, nakok, rcont, byte]

theorem decodeFormat_readLengthWord (n : Byte) (last : Bool) :
    decodeFormat (readLengthWord last n) = .ok (if last then .rdlenStop n else .rdlen n) := by
  obtain ⟨start, stop, readb, rcont, byte, nakok⟩ := readLengthWord_flags n last
  cases last <;> simp [decodeFormat, start, stop, readb, nakok, rcont, byte]

/-- Settles O3: a request by the fields of its record, a format word by its flags and its byte. -/
theorem decodeEncodeAgree : Obligations.DecodeEncodeAgree := by
  intro i
  cases i
  case addrW | addrR => exact decodeFormat_addressWord _ _
  case data | dataStop => exact decodeFormat_dataWord _ _
  case rdlen | rdlenStop => exact decodeFormat_readLengthWord _ _
  case blockingPush => rfl
  all_goals simp [encode, decode, decodeRequest]

/-- Settles O4: a decoded word is the encoding of its instruction, and the encoding decodes to it. -/
theorem formatDecodingExact : Obligations.FormatDecodingExact := by
  intro w i
  refine ⟨encode_of_decodeFormat, fun hw => ?_⟩
  calc decodeFormat w = decode (encode i) := by rw [hw, decode]
    _ = .ok i := decodeEncodeAgree i

/-- Settles O1: each word is one number, decoded by evaluation. -/
theorem specWordsDecode : Obligations.SpecWordsDecode := by
  unfold Obligations.SpecWordsDecode
  decide

/-- Settles O2: the decoder is one match on the select code, whose arms take the fields of R101. -/
theorem requestSelectCodes : Obligations.RequestSelectCodes := by
  intro w
  refine ⟨?_, ?_, ?_, ?_, ?_, ?_, ?_, ?_, ?_, ?_, ?_, ?_, ?_, ?_, ?_, ?_⟩
  all_goals
    intro hop
    rw [decodeRequest, ReqWord.op, hop]
    rfl

/-- Settles O5: the flags are those of the three kinds of word, the byte stands in bits 7:0. -/
theorem formatWordLayout : Obligations.FormatWordLayout := by
  refine ⟨fun a rw => ?address, fun stop d => ?data, fun last n => ?readLength⟩
  case address =>
    obtain ⟨start, stop, readb, nakok, byte, rcont⟩ := addressWord_flags a rw
    refine ⟨byte, by rw [extractLsb'_flags, start, stop, readb, nakok, rcont]; rfl, ?range⟩
    case range =>
      revert a rw
      decide +kernel
  case data =>
    obtain ⟨start, hstop, readb, nakok, byte, rcont⟩ := dataWord_flags d stop
    refine ⟨byte, ?_⟩
    rw [extractLsb'_flags, start, hstop, readb, nakok, rcont]
    cases stop <;> rfl
  case readLength =>
    obtain ⟨start, stop, readb, rcont, byte, nakok⟩ := readLengthWord_flags n last
    refine ⟨byte, ?_⟩
    rw [extractLsb'_flags, start, stop, readb, nakok, rcont]
    cases last <;> rfl

end Sys2Proof.Machine
end

section
/-!
The Timing Calculator (40_timing_calculator.md sections 2 and 5): the period of R121, the counts of R124, and a whole `set_speed`
(R127 to R134). The five timing words are read back half by half, so that what R131 and R132 say of the registers is what
`clampIsLeast` and the counts say of `TP`.
-/
namespace Sys2Proof.Machine

/-! ### The period (R121, R222) -/

section
variable (c : Params)

theorem clkHz_le_clkKhz : c.clkHz ≤ 1000 * clkKhz c := by
  rw [Nat.mul_comm]
  exact le_ceilDiv_mul (by decide)

theorem clkKhz_lt : 1000 * clkKhz c < c.clkHz + 1000 := by
  rw [clkKhz, ceilDiv]
  omega

theorem periodNs_mul_clkKhz_le : periodNs c * clkKhz c ≤ 1000000 := Nat.div_mul_le_self _ _

/-- The period and the frequency err on the same side. -/
theorem periodNs_mul_clkHz_le : periodNs c * c.clkHz ≤ 1000000000 :=
  calc periodNs c * c.clkHz ≤ periodNs c * (1000 * clkKhz c) := Nat.mul_le_mul_left _ (clkHz_le_clkKhz c)
    _ = 1000 * (periodNs c * clkKhz c) := by ring
    _ ≤ 1000000000 := Nat.mul_le_mul_left 1000 (periodNs_mul_clkKhz_le c)

/-- R222: the two causes of `ZeroPeriod`, in kHz. -/
theorem noPeriod_iff_clkKhz : noPeriod c = true ↔ clkKhz c = 0 ∨ 1000000 < clkKhz c := by
  simp only [noPeriod, periodNs, Bool.or_eq_true, decide_eq_true_eq, Nat.div_eq_zero_iff]
  omega

theorem noPeriod_iff_clkHz : noPeriod c = true ↔ c.clkHz = 0 ∨ 1000000000 < c.clkHz := by
  rw [noPeriod_iff_clkKhz, clkKhz, ceilDiv]
  omega

theorem periodNs_pos (h : noPeriod c = false) : 1 ≤ periodNs c := by
  simp only [noPeriod, Bool.or_eq_false_iff, decide_eq_false_iff_not] at h
  omega

end

/-- Settles O8: both roundings are those of `ceilDiv` and of the division, and the last clause counts in kHz. -/
theorem periodIsUnderestimated : Obligations.PeriodIsUnderestimated := by
  intro c
  refine ⟨clkHz_le_clkKhz c, clkKhz_lt c, fun hkhz => ⟨periodNs_mul_clkKhz_le c, ?above⟩, periodNs_mul_clkHz_le c,
    noPeriod_iff_clkHz c⟩
  case above =>
    rw [Nat.mul_comm]
    exact Nat.lt_mul_div_succ 1000000 hkhz

/-! ### The counts (R123, R124) -/

theorem get_rawCounts (c : Params) (mode : BitVec 2) (k : TpName) :
    TpFile.get (rawCounts c mode) k = cycleCount c mode k := by
  cases k <;> rfl

theorem toNat_cycleCount (c : Params) (mode : BitVec 2) (k : TpName) :
    (cycleCount c mode k).toNat = cycles c mode k % 65536 := BitVec.toNat_ofNat _ _

theorem toNat_cycleCount_of_fits {c : Params} {mode : BitVec 2} {k : TpName} (h : cycles c mode k ≤ 65535) :
    (cycleCount c mode k).toNat = cycles c mode k := by
  rw [toNat_cycleCount, Nat.mod_eq_of_lt (by omega)]

/-- Settles O9: a count is its quotient cut to 16 bits, and a quotient is least by R10. -/
theorem countsMeetTheirMinimum : Obligations.CountsMeetTheirMinimum := by
  intro c mode k hperiod
  have pos := periodNs_pos c hperiod
  rw [get_rawCounts]
  refine ⟨rfl, rfl, toNat_cycleCount c mode k, fun hzero => ?zero, fun hfits => ?fits⟩
  case zero => rw [cycleCount, cycles, hzero, zero_ceilDiv pos]
  case fits =>
    rw [toNat_cycleCount_of_fits hfits]
    exact ⟨le_ceilDiv_mul pos, fun n => ceilDiv_le_of_le_mul pos⟩

/-! ### A whole `set_speed` (R127, R128, R134) -/

section
variable {khz : Word} {s t : State}

/-- The five writes, from the first to the completion. -/
theorem execTimes_setSpeed_tsWr (hcur : s.seq.cur = some (.setSpeed khz)) (hpc : s.seq.pc = .tsWr 0) :
    execTimes (.setSpeed khz) 5 s = .next (completed { s with dev.regs := { s.dev.regs with
      timing0 := timingWord s.cfg s.seq.tp 0, timing1 := timingWord s.cfg s.seq.tp 1
      timing2 := timingWord s.cfg s.seq.tp 2, timing3 := timingWord s.cfg s.seq.tp 3
      timing4 := timingWord s.cfg s.seq.tp 4 } }) := by
  refine (execTimes_succ _ _ _ _ (exec_setSpeed_tsWr_succ (j := 0) (by decide) hcur hpc)).trans ?_
  refine (execTimes_succ _ _ _ _ (exec_setSpeed_tsWr_succ (j := 1) (by decide) (by exact hcur) (by rfl))).trans ?_
  refine (execTimes_succ _ _ _ _ (exec_setSpeed_tsWr_succ (j := 2) (by decide) (by exact hcur) (by rfl))).trans ?_
  refine (execTimes_succ _ _ _ _ (exec_setSpeed_tsWr_succ (j := 3) (by decide) (by exact hcur) (by rfl))).trans ?_
  refine (execTimes_succ _ _ _ _ (exec_setSpeed_tsWr_last (by exact hcur) (by rfl))).trans ?_
  simp only [execTimes, withPc, storeReg, timingReg, RegFile.set]
  rfl

/-- Acceptance, `TS_CALC` and the five writes. -/
theorem execTimes_setSpeed (hacc : s.seq.pc.accepting = true) (hkhz : khz ≠ 0#32) (hperiod : noPeriod s.cfg = false)
    (hfits : clampOverflows (rawCounts s.cfg (busMode khz)) = false) :
    let tp := clampCounts (rawCounts s.cfg (busMode khz))
    execTimes (.setSpeed khz) 7 s = .next (completed { s with
      seq := { s.seq with x11 := busMode khz, tp := tp }
      dev.regs := { s.dev.regs with
        timing0 := timingWord s.cfg tp 0, timing1 := timingWord s.cfg tp 1, timing2 := timingWord s.cfg tp 2
        timing3 := timingWord s.cfg tp 3, timing4 := timingWord s.cfg tp 4 } }) := by
  have accept := (exec_setSpeed_accept hacc).trans (acceptSetSpeed_of_period hkhz hperiod)
  have calculate := calculateTiming_of_fits (khz := khz)
    (s := { s with seq := { s.seq with pc := .tsCalc, cur := some (.setSpeed khz) } }) hperiod hfits
  refine (execTimes_succ _ _ _ _ accept).trans ?_
  refine (execTimes_succ _ _ _ _ ((exec_setSpeed_tsCalc rfl rfl).trans calculate)).trans ?_
  exact execTimes_setSpeed_tsWr rfl rfl

end

/-- Settles O12: the words of `execTimes_setSpeed` are those of R104 by definition. -/
theorem setSpeedWritesTimings : Obligations.SetSpeedWritesTimings :=
  fun _ _ hacc hkhz hperiod hfits => execTimes_setSpeed hacc hkhz hperiod hfits

/-! ### The timings read back (R104, R131, R132) -/

theorem packCounts_eq_append (first second : Count) : packCounts first second = first ++ second :=
  calc packCounts first second = (first ++ second).setWidth 32 := BitVec.setWidth_append_eq_shiftLeft_setWidth_or.symm
    _ = first ++ second := BitVec.setWidth_eq _

theorem packCounts_hi (first second : Count) : (packCounts first second).extractLsb' 16 16 = first := by
  rw [packCounts_eq_append]
  exact BitVec.extractLsb'_append_eq_left

theorem packCounts_lo (first second : Count) : (packCounts first second).extractLsb' 0 16 = second := by
  rw [packCounts_eq_append]
  exact BitVec.extractLsb'_append_eq_right

/-- Settles O13: each half of a timing word is a count of `TP` after the clamp, which raises `tLow` and `tBuf` only (R125). -/
theorem timingsMeetOrExceed : Obligations.TimingsMeetOrExceed := by
  intro khz s t hacc hpack hkhz hperiod hfits hrun
  have run := execTimes_setSpeed hacc hkhz hperiod hfits
  dsimp only at run
  rw [run] at hrun
  cases hrun
  obtain ⟨hLow, hBuf, -⟩ := clampIsLeast _ hfits
  simp only [completed_dev, timingWord, hpack, packCounts_hi, packCounts_lo, packPair, Pack.d11, TpFile.get]
  refine ⟨by rw [hLow]; exact lt_of_lt_of_le (Nat.lt_succ_self _) (le_max_right _ _),
    by rw [hBuf]; exact lt_of_lt_of_le (Nat.lt_succ_self _) (le_max_right _ _), fun hq => ?_⟩
  have count := fun k => toNat_cycleCount_of_fits (hq k)
  refine ⟨count .tHigh, ?_, count .tFall, count .tRise, count .thdSta, count .tsuSta, count .thdDat, count .tsuDat, ?_,
    count .tsuSto⟩
  · rw [hLow, ← count .tLow]; exact le_max_left _ _
  · rw [hBuf, ← count .tBuf]; exact le_max_left _ _

end Sys2Proof.Machine
end

section
/-!
The accessor's whole operations (42_interrupt_status_accessor.md sections 2 to 4). Clearing, enabling and disabling are one
operation with two parameters, the register and the change of its word (`ModifyingOp`); three steps of it, with nobody in between,
put the changed word in the register and touch no other state of the device. The laws of R177 are laws of the two changes.
-/
namespace Sys2Proof.Machine

/-- Settles O21: the shared steps of a modifying operation, for `INTR_ENABLE` and the flag's mask. -/
theorem enableInterruptSetsFlag : Obligations.EnableInterruptSetsFlag := by
  intro sel s
  refine ⟨?valid, ?invalid, ?read, ?write⟩
  case valid => exact operation_acceptAccess_valid fun t => validFlag t.cfg sel
  case invalid => exact operation_acceptAccess_invalid fun t => validFlag t.cfg sel
  case read =>
    intro hpc hcur
    exact ⟨_, memReadReg_intrEnable, regRead_intrEnable_dev, operation_modifyMicro_accRd hpc hcur⟩
  case write =>
    intro hpc hcur
    exact operation_modifyMicro_accWr withWrite_intrEnable hpc hcur

theorem memReadReg_status {s : State} : memReadReg 0x14 4 s = .next (regRead .status s) := rfl

theorem regRead_status_dev {s : State} : (regRead .status s).dev = s.dev := regRead_dev .status s (by decide)

/-- Settles O23: the shared steps of a testing operation, for `STATUS` and the bit of the index. -/
theorem statusTestTestsBit : Obligations.StatusTestTestsBit := by
  intro sel s
  refine ⟨fun hacc hsel => ?valid, fun hacc hsel => ?invalid, fun hpc hcur => ?read⟩
  case valid => exact operation_acceptAccess_valid (fun _ => validStatusIndex sel) hacc (decide_eq_true hsel)
  case invalid =>
    exact operation_acceptAccess_invalid (fun _ => validStatusIndex sel) hacc (validStatusIndex_eq_false_iff.mpr hsel)
  case read => exact ⟨_, memReadReg_status, regRead_status_dev, operation_testMicro_accRd hpc hcur⟩

/-! ### Setting and clearing a flag (R106, R177) -/

section
variable (w : Word) (sel : BitVec 5)

theorem getLsbD_setFlag (k : Nat) : (setFlag w sel).getLsbD k = (w.getLsbD k || decide (k = sel.toNat)) := by
  rw [setFlag, flagBit, BitVec.getLsbD_or, getLsbD_flagBit]

theorem getLsbD_clearFlag (k : Nat) : (clearFlag w sel).getLsbD k = (w.getLsbD k && decide (k ≠ sel.toNat)) := by
  by_cases hk : k < 32
  · rw [clearFlag, flagBit, BitVec.getLsbD_and, BitVec.getLsbD_not, getLsbD_flagBit]
    simp [hk]
  · simp [BitVec.getLsbD_of_ge _ k (Nat.le_of_not_lt hk)]

theorem setFlag_setFlag : setFlag (setFlag w sel) sel = setFlag w sel := by
  rw [setFlag, setFlag, BitVec.or_assoc, BitVec.or_self]

theorem clearFlag_clearFlag : clearFlag (clearFlag w sel) sel = clearFlag w sel := by
  rw [clearFlag, clearFlag, BitVec.and_assoc, BitVec.and_self]

theorem clearFlag_setFlag : clearFlag (setFlag w sel) sel = clearFlag w sel := by
  refine BitVec.eq_of_getLsbD_eq fun k _ => ?_
  rw [getLsbD_clearFlag, getLsbD_clearFlag, getLsbD_setFlag]
  by_cases hk : k = sel.toNat <;> simp [hk]

theorem setFlag_clearFlag : setFlag (clearFlag w sel) sel = setFlag w sel := by
  refine BitVec.eq_of_getLsbD_eq fun k _ => ?_
  rw [getLsbD_setFlag, getLsbD_setFlag, getLsbD_clearFlag]
  by_cases hk : k = sel.toNat <;> simp [hk]

/-- Clearing leaves a word alone exactly when the flag was clear. -/
theorem clearFlag_eq_self_iff : clearFlag w sel = w ↔ w.getLsbD sel.toNat = false := by
  constructor
  · intro h
    rw [← h, getLsbD_clearFlag]
    simp
  · intro h
    refine BitVec.eq_of_getLsbD_eq fun k _ => ?_
    rw [getLsbD_clearFlag]
    by_cases hk : k = sel.toNat
    · rw [hk, h]; rfl
    · simp [hk]

/-- Setting leaves a word alone exactly when the flag was set. -/
theorem setFlag_eq_self_iff : setFlag w sel = w ↔ w.getLsbD sel.toNat = true := by
  constructor
  · intro h
    rw [← h, getLsbD_setFlag]
    simp
  · intro h
    refine BitVec.eq_of_getLsbD_eq fun k _ => ?_
    rw [getLsbD_setFlag]
    by_cases hk : k = sel.toNat
    · rw [hk, h]; rfl
    · simp [hk]

end

/-! ### A whole modifying operation (R172 to R174, R179) -/

/-- `i` reads the register `r`, which takes every word, and writes the modified word back. -/
structure ModifyingOp (i : Instr) (valid : State → Bool) (r : RegName) (modify : Word → Word) : Prop where
  exec_eq : ∀ s, exec i s = operation i (fun t => acceptAccess i (valid t) t) (modifyMicro r modify) s
  stores : ∀ v t k, withWrite r v t k = k (storeReg r v t)
  noQueue : r ≠ .rdata

section
variable {i : Instr} {valid : State → Bool} {r : RegName} {modify : Word → Word} {sel : BitVec 5} {s : State}

theorem modifyingOp_clearInterrupt (sel : BitVec 5) :
    ModifyingOp (.clearInterrupt sel) (fun t => validFlag t.cfg sel) .intrState (fun w => clearFlag w sel) :=
  ⟨fun _ => rfl, withWrite_intrState, by decide⟩

theorem modifyingOp_enableInterrupt (sel : BitVec 5) :
    ModifyingOp (.enableInterrupt sel) (fun t => validFlag t.cfg sel) .intrEnable (fun w => setFlag w sel) :=
  ⟨fun _ => rfl, withWrite_intrEnable, by decide⟩

theorem modifyingOp_disableInterrupt (sel : BitVec 5) :
    ModifyingOp (.disableInterrupt sel) (fun t => validFlag t.cfg sel) .intrEnable (fun w => clearFlag w sel) :=
  ⟨fun _ => rfl, withWrite_intrEnable, by decide⟩

/-- Acceptance, `ACC_RD` and `ACC_WR`: the register holds the modified value of the one read. -/
theorem ModifyingOp.execTimes (h : ModifyingOp i valid r modify) (hacc : s.seq.pc.accepting = true)
    (hvalid : valid s = true) :
    let seen := (regRead r { s with seq := { s.seq with pc := .accRd, cur := some i } }).seq.x10
    ∃ t, execTimes i 3 s = .next t ∧ t.seq.pc = .complete ∧ t.cfg = s.cfg ∧
      t.dev = { s.dev with regs := RegFile.set s.dev.regs r (modify seen) } := by
  have accept := (h.exec_eq s).trans (operation_acceptAccess_valid valid hacc hvalid)
  have read := (h.exec_eq { s with seq := { s.seq with pc := .accRd, cur := some i } }).trans
    (operation_modifyMicro_accRd rfl rfl)
  have write := (h.exec_eq _).trans (operation_modifyMicro_accWr
    (s := { regRead r { s with seq := { s.seq with pc := .accRd, cur := some i } } with seq.pc := .accWr })
    h.stores rfl (regRead_cur _ _))
  have run := (execTimes_succ i 2 _ _ accept).trans ((execTimes_succ i 1 _ _ read).trans (execTimes_succ i 0 _ _ write))
  exact ⟨_, run, rfl, regRead_cfg _ _, by simp [regRead_dev _ _ h.noQueue]⟩

theorem execTimes_enableInterrupt (hacc : s.seq.pc.accepting = true) (hvalid : validFlag s.cfg sel = true) :
    ∃ t, execTimes (.enableInterrupt sel) 3 s = .next t ∧ t.seq.pc = .complete ∧ t.cfg = s.cfg ∧
      t.dev = { s.dev with regs.intrEnable := setFlag s.dev.regs.intrEnable sel } :=
  (modifyingOp_enableInterrupt sel).execTimes hacc hvalid

theorem execTimes_disableInterrupt (hacc : s.seq.pc.accepting = true) (hvalid : validFlag s.cfg sel = true) :
    ∃ t, execTimes (.disableInterrupt sel) 3 s = .next t ∧ t.seq.pc = .complete ∧ t.cfg = s.cfg ∧
      t.dev = { s.dev with regs.intrEnable := clearFlag s.dev.regs.intrEnable sel } :=
  (modifyingOp_disableInterrupt sel).execTimes hacc hvalid

/-- Under `exact` the flags read are the stored ones (R74). -/
theorem readIntrState_flag_exact (hvis : s.cfg.visibility = .exact) {p : BitVec 5} (hp : p ∈ s.cfg.flags.positions) :
    (regRead .intrState s).seq.x10.getLsbD p.toNat = s.dev.regs.intrState.getLsbD p.toNat := by
  rw [readIntrState_flag s p hp, visible_exact s hvis]
  rfl

/-- Two positions are the same bit only if they are the same position. -/
theorem toNat_ne_iff {p q : BitVec 5} : p.toNat ≠ q.toNat ↔ p ≠ q := not_congr BitVec.toNat_inj

theorem execTimes_clearInterrupt (hacc : s.seq.pc.accepting = true) (hvalid : validFlag s.cfg sel = true)
    (hvis : s.cfg.visibility = .exact) :
    ∃ t, execTimes (.clearInterrupt sel) 3 s = .next t ∧ t.seq.pc = .complete ∧ t.cfg = s.cfg ∧
      t.dev = { s.dev with regs.intrState := t.dev.regs.intrState } ∧
      ∀ p ∈ s.cfg.flags.positions,
        t.dev.regs.intrState.getLsbD p.toNat = (s.dev.regs.intrState.getLsbD p.toNat && decide (p ≠ sel)) := by
  obtain ⟨t, hrun, hpc, hcfg, hdev⟩ := (modifyingOp_clearInterrupt sel).execTimes hacc hvalid
  refine ⟨t, hrun, hpc, hcfg, by rw [hdev]; rfl, fun p hp => ?_⟩
  have read := readIntrState_flag_exact
    (s := { s with seq := { s.seq with pc := .accRd, cur := some (.clearInterrupt sel) } }) hvis hp
  rw [hdev]
  simp only [RegFile.set, getLsbD_clearFlag, read, toNat_ne_iff]

end

/-- Settles O24: the three whole operations, and the bits of `setFlag` and `clearFlag`. -/
theorem modifyingChangesOneFlag : Obligations.ModifyingChangesOneFlag := by
  intro sel s hacc hvalid
  refine ⟨fun hvis => ?clear, ?enable, ?disable⟩
  case clear =>
    obtain ⟨t, hrun, hpc, -, hdev, hbits⟩ := execTimes_clearInterrupt hacc hvalid hvis
    exact ⟨t, hrun, hpc, hdev, hbits⟩
  case enable =>
    obtain ⟨t, hrun, hpc, -, hdev⟩ := execTimes_enableInterrupt hacc hvalid
    exact ⟨t, hrun, hpc, hdev, fun k _ => by rw [hdev]; exact getLsbD_setFlag _ _ _⟩
  case disable =>
    obtain ⟨t, hrun, hpc, -, hdev⟩ := execTimes_disableInterrupt hacc hvalid
    exact ⟨t, hrun, hpc, hdev, fun k _ => by rw [hdev]; exact getLsbD_clearFlag _ _ _⟩

/-! ### Two operations in a row (R177) -/

/-- `i` is an operation that puts `f` of `INTR_ENABLE` in `INTR_ENABLE`, whole and from every accepting state. -/
def ChangesEnables (i : Instr) (sel : BitVec 5) (f : Word → Word) : Prop :=
  ∀ s : State, s.seq.pc.accepting = true → validFlag s.cfg sel = true →
    ∃ t, execTimes i 3 s = .next t ∧ t.seq.pc = .complete ∧ t.cfg = s.cfg ∧
      t.dev = { s.dev with regs.intrEnable := f s.dev.regs.intrEnable }

theorem ChangesEnables.twice {i j : Instr} {sel : BitVec 5} {f g : Word → Word} {e : Word} {s : State}
    (hi : ChangesEnables i sel f) (hj : ChangesEnables j sel g) (hacc : s.seq.pc.accepting = true)
    (hvalid : validFlag s.cfg sel = true) (he : g (f s.dev.regs.intrEnable) = e) :
    ∃ t u, execTimes i 3 s = .next t ∧ execTimes j 3 t = .next u ∧ u.dev = { s.dev with regs.intrEnable := e } := by
  obtain ⟨t, ht, htpc, htcfg, htdev⟩ := hi s hacc hvalid
  obtain ⟨u, hu, -, -, hudev⟩ := hj t (by rw [htpc]; rfl) (by rw [htcfg]; exact hvalid)
  exact ⟨t, u, ht, hu, by rw [hudev, htdev, ← he]⟩

/-- Settles O25: the laws of `setFlag` and `clearFlag` on `INTR_ENABLE`, and for `INTR_STATE` the bits of two clearings. -/
theorem enableDisableRestores : Obligations.EnableDisableRestores := by
  intro sel s hacc hvalid
  have enable : ChangesEnables (.enableInterrupt sel) sel (setFlag · sel) := fun _ => execTimes_enableInterrupt
  have disable : ChangesEnables (.disableInterrupt sel) sel (clearFlag · sel) := fun _ => execTimes_disableInterrupt
  refine ⟨enable.twice enable hacc hvalid (setFlag_setFlag _ _), disable.twice disable hacc hvalid (clearFlag_clearFlag _ _),
    enable.twice disable hacc hvalid (clearFlag_setFlag _ _), clearFlag_eq_self_iff _ _,
    disable.twice enable hacc hvalid (setFlag_clearFlag _ _), setFlag_eq_self_iff _ _, fun hvis => ?clear⟩
  case clear =>
    obtain ⟨t, ht, htpc, htcfg, htdev, htbits⟩ := execTimes_clearInterrupt hacc hvalid hvis
    obtain ⟨u, hu, -, -, hudev, hubits⟩ := execTimes_clearInterrupt (s := t) (sel := sel) (by rw [htpc]; rfl)
      (by rw [htcfg]; exact hvalid) (by rw [htcfg]; exact hvis)
    refine ⟨t, u, ht, hu, by rw [hudev, htdev], fun p hp => ?again, fun hclear p hp => ?unset⟩
    case again =>
      rw [hubits p (by rw [htcfg]; exact hp), htbits p hp, Bool.and_assoc, Bool.and_self]
    case unset =>
      rw [htbits p hp]
      by_cases hpsel : p = sel
      · rw [hpsel, hclear]; rfl
      · simp [hpsel]

end Sys2Proof.Machine
end

section
/-!
Turns and requests (10_state.md section 6, 60_exceptions.md, 70_reset_and_hazards.md section 1). A step is the turn's agent moving
in a state without that turn, one lemma per kind of turn; an instruction that can be requested has an acceptance, which is all it
does in a terminal state, and is refused as busy during another operation.
-/
namespace Sys2Proof.Machine

/-! ### The step of a given turn -/

section
variable {s t : State} {u : Turn} {turns : List Turn} {q : Request} {rest : List Request} {i : Instr}

theorem nextTurn_cons (h : s.env.sched = u :: turns) : nextTurn s = (u, { s with env.sched := turns }) := by
  rw [nextTurn, h]

theorem nextTurn_nil (h : s.env.sched = []) : nextTurn s = (.seq, s) := by
  rw [nextTurn, h]

theorem turnStep_agent (hpc : ∀ f, s.seq.pc ≠ .faulted f) : turnStep u s = recordStep u s (agentStep u s) := by
  rw [turnStep]
  split
  next f hf => exact absurd hf (hpc f)
  · rfl

theorem turnStep_faulted {f : Fault} (hpc : s.seq.pc = .faulted f) : turnStep u s = recordStep u s (faultedStep f u s) := by
  rw [turnStep, hpc]

theorem step_agent (h : s.env.sched = u :: turns) (hpc : ∀ f, s.seq.pc ≠ .faulted f) :
    step s = recordStep u { s with env.sched := turns } (agentStep u { s with env.sched := turns }) := by
  rw [step, nextTurn_cons h]
  exact turnStep_agent hpc

/-- A presented request is looked at whatever the sequencer is doing, also in `Faulted` (R228). -/
theorem step_present (h : s.env.sched = .present :: turns) :
    step s = recordStep .present { s with env.sched := turns } (presentStep { s with env.sched := turns }) := by
  by_cases hpc : ∃ f, s.seq.pc = .faulted f
  · obtain ⟨f, hpc⟩ := hpc
    rw [step, nextTurn_cons h]
    exact turnStep_faulted hpc
  · exact step_agent h fun f hf => hpc ⟨f, hf⟩

/-- Reset is taken whatever the sequencer is doing (R250). -/
theorem step_reset (h : s.env.sched = .reset :: turns) : step s = .next (resetEvent { s with env.sched := turns }) := by
  by_cases hpc : ∃ f, s.seq.pc = .faulted f
  · obtain ⟨f, hpc⟩ := hpc
    rw [step, nextTurn_cons h]
    exact turnStep_faulted hpc
  · exact step_agent h fun f hf => hpc ⟨f, hf⟩

theorem recordStep_next (hu : u ≠ .reset) : recordStep u s (.next t) = .next (remember s t) := by
  rw [recordStep, if_neg hu]

theorem step_agent_next (h : s.env.sched = u :: turns) (hpc : ∀ f, s.seq.pc ≠ .faulted f) (hu : u ≠ .reset)
    (run : agentStep u { s with env.sched := turns } = .next t) :
    step s = .next (remember { s with env.sched := turns } t) := by
  rw [step_agent h hpc, run, recordStep_next hu]

theorem step_present_next (h : s.env.sched = .present :: turns) (run : presentStep { s with env.sched := turns } = .next t) :
    step s = .next (remember { s with env.sched := turns } t) := by
  rw [step_present h, run]
  exact recordStep_next nofun

theorem not_faulted_of_accepting (hacc : s.seq.pc.accepting = true) (f : Fault) : s.seq.pc ≠ .faulted f := by
  intro hf
  rw [hf] at hacc
  cases hacc

/-- Taking the turn changes the interleaving only. -/
theorem nextTurn_state (s : State) : ∃ e, (nextTurn s).2 = { s with env := e } := by
  rw [nextTurn]
  split
  · exact ⟨s.env, rfl⟩
  · exact ⟨_, rfl⟩

/-- Everything a step does: a reset event if the interleaving begins with it, or another turn's agent, whose step is
recorded. -/
theorem step_cases (h : step s = .next t) :
    (s.env.sched.head? = some .reset ∧ ∃ e, t = resetEvent { s with env := e }) ∨
    ∃ v e u, v ≠ .reset ∧ (v = .present ∨ ∀ f, s.seq.pc ≠ .faulted f) ∧ agentStep v { s with env := e } = .next u ∧
      t = remember { s with env := e } u := by
  obtain ⟨e, taken⟩ := nextTurn_state s
  have h := step_next s t h
  rw [taken] at h
  obtain ⟨hturn, rfl⟩ | ⟨hturn, u, rfl, ⟨hpc, hagent⟩ | ⟨-, hpresent, hagent⟩⟩ := h
  · refine .inl ⟨?_, e, rfl⟩
    rw [nextTurn] at hturn
    split at hturn
    · cases hturn
    next sched =>
      cases hturn
      rw [sched, List.head?_cons]
  · exact .inr ⟨_, e, u, hturn, .inr hpc, hagent, rfl⟩
  · exact .inr ⟨.present, e, u, nofun, .inl rfl, hagent, rfl⟩

theorem sequencerStep_accepting (hacc : s.seq.pc.accepting = true) : sequencerStep s = presentStep s := if_pos hacc

theorem sequencerStep_micro (hacc : s.seq.pc.accepting = false) (hcur : s.seq.cur = some i) :
    sequencerStep s = exec i s := by
  rw [sequencerStep, if_neg (ne_true_of_eq_false hacc), hcur]

theorem sequencerStep_primitive (hacc : s.seq.pc.accepting = false) (hcur : s.seq.cur = none) :
    sequencerStep s = exec (.blockingPush s.seq.x7) s := by
  rw [sequencerStep, if_neg (ne_true_of_eq_false hacc), hcur]

theorem presentStep_nothing (hport : s.port = []) : presentStep s = .next s := by
  rw [presentStep, hport]

theorem presentStep_accepted (hport : s.port = q :: rest) (hacc : s.seq.pc.accepting = true)
    (hexec : exec (decodeRequest q.record) { s with port := rest, seq.buf := q.buf } = .next t) :
    presentStep s = .next t := by
  rw [presentStep, hport]
  dsimp only
  rw [if_pos hacc, hexec]

theorem presentStep_refused {r : Refusal} (hport : s.port = q :: rest) (hacc : s.seq.pc.accepting = true)
    (hexec : exec (decodeRequest q.record) { s with port := rest, seq.buf := q.buf } = .refused r) :
    presentStep s = .next (dropRequest r { s with port := rest }) := by
  rw [presentStep, hport]
  dsimp only
  rw [if_pos hacc, hexec]

theorem presentStep_busy (hport : s.port = q :: rest) (hacc : s.seq.pc.accepting = false) :
    presentStep s = .next (dropRequest .busy { s with port := rest }) := by
  rw [presentStep, hport]
  dsimp only
  rw [if_neg (ne_true_of_eq_false hacc)]

/-- In host mode the device takes the head of the format FIFO (R203). -/
theorem deviceExecStep_word {w : FmtWord} {words : List FmtWord} (hhost : hostMode s = true) (hfmtq : s.dev.fmtq = w :: words) :
    deviceExecStep s = executeWord w { s with dev.fmtq := words } := by
  rw [deviceExecStep, if_pos hhost, hfmtq]

end

/-- Settles O51: the agent of each turn by its own lemma. -/
theorem stepRunsDecodedInstruction : Obligations.StepRunsDecodedInstruction := by
  intro s turns
  refine ⟨?request, ?micro, ?device, ?primitive⟩
  case request =>
    intro q rest t hsched hacc hport hexec
    refine step_agent_next hsched (not_faulted_of_accepting hacc) nofun ?_
    exact (sequencerStep_accepting (s := { s with env.sched := turns }) hacc).trans (presentStep_accepted hport hacc hexec)
  case micro =>
    intro i t hsched hacc hpc hcur hexec
    refine step_agent_next hsched hpc nofun ?_
    exact (sequencerStep_micro (s := { s with env.sched := turns }) hacc hcur).trans hexec
  case device =>
    intro i w rest t hsched hpc hhost hfmtq hdecode hexec
    refine step_agent_next hsched hpc nofun ?_
    exact (deviceExecStep_word (s := { s with env.sched := turns }) hhost hfmtq).trans (by rw [executeWord, hdecode, ← hexec])
  case primitive =>
    intro t hsched hacc hpc hcur hexec
    refine step_agent_next hsched hpc nofun ?_
    exact (sequencerStep_primitive (s := { s with env.sched := turns }) hacc hcur).trans hexec

/-- Settles O53: a reset event draws registers and queues, and cuts the queues to their depths. -/
theorem resetEvent_leaves : Obligations.ResetEvent := by
  intro s turns hsched
  exact ⟨_, step_reset hsched, rfl, rfl, rfl, List.length_take_le _ _, List.length_take_le _ _, rfl, rfl, rfl, rfl, rfl⟩

/-- Settles O55: no operation is in progress at reset, and the queues, the memory and `PUSHES` are empty. -/
theorem invariantHoldsAtReset : Obligations.InvariantHoldsAtReset where
  params := by decide
  memory := rfl
  fmtqFits := Nat.zero_le _
  rxqFits := Nat.zero_le _
  visible := Nat.zero_le _
  operation := rfl
  room := fun _ hpushing => nomatch hpushing
  pushes := fun _ hw => nomatch hw

/-- Settles O52: in `Faulted` the sequencer and the device answer the fault, and a presented request is dropped. -/
theorem faultedStops : Obligations.FaultedStops := by
  intro f s turns hpc
  refine ⟨?stop, fun hsched => ⟨_, step_reset hsched, rfl⟩, fun hsched t ht => ?present⟩
  case stop =>
    have stop (u : Turn) (hsched : s.env.sched = u :: turns)
        (hu : faultedStep f u { s with env.sched := turns } = .fault f) : step s = .fault f := by
      rw [step, nextTurn_cons hsched, turnStep_faulted (s := { s with env.sched := turns }) hpc, hu, recordStep]
    rintro (hsched | hsched | hsched | ⟨v, hsched⟩ | ⟨r, v, hsched⟩)
    · rw [step, nextTurn_nil hsched, turnStep_faulted hpc]
      rfl
    all_goals exact stop _ hsched rfl
  case present =>
    have busy : s.seq.pc.accepting = false := by rw [hpc]; rfl
    rcases hport : s.port with _ | ⟨q, rest⟩
    · have idle := presentStep_nothing (s := { s with env.sched := turns }) hport
      rw [step_present_next hsched idle] at ht
      cases ht
      simp
    · have dropped := presentStep_busy (s := { s with env.sched := turns }) hport busy
      rw [step_present_next hsched dropped] at ht
      cases ht
      simp [dropRequest]

/-! ### Requests (R41, R227, R228, R237) -/

/-- The instructions that a request record selects (R100, R108). -/
def Requestable : Instr → Bool
  | .addrW _ | .addrR _ | .data _ | .dataStop _ | .rdlen _ | .rdlenStop _ | .blockingPush _ => false
  | _ => true

theorem requestable_decodeRequest (w : ReqWord) : Requestable (decodeRequest w) = true := by
  rw [decodeRequest]
  split <;> rfl

/-- What a request does in an accepting state (R179, R190 to R192, R227 and the acceptances of R129, R146, R154). -/
def acceptance (i : Instr) (s : State) : Res :=
  match i with
  | .resetFifos | .setHostMode | .setHostThresholds _ _ => enter i .cfWr s
  | .setSpeed khz => acceptSetSpeed khz s
  | .write a skip len => acceptWrite a skip len s
  | .read a len => acceptRead a len s
  | .interruptAsserted sel | .clearInterrupt sel | .enableInterrupt sel | .disableInterrupt sel =>
    acceptAccess i (validFlag s.cfg sel) s
  | .statusTest sel => acceptAccess i (validStatusIndex sel) s
  | _ => .refused .badRequest

section
variable {i : Instr} {s : State}

theorem exec_eq_acceptance (hi : Requestable i = true) (hacc : s.seq.pc.accepting = true) : exec i s = acceptance i s := by
  cases i
  case unassigned11 | unassigned12 | unassigned13 | unassigned14 | unassigned15 => exact refuseSelectCode_of_accepting hacc
  case addrW | addrR | data | dataStop | rdlen | rdlenStop | blockingPush => cases hi
  all_goals exact operation_accept _ _ _ s hacc

theorem exec_busy (hi : Requestable i = true) (hacc : s.seq.pc.accepting = false) (hcur : s.seq.cur ≠ some i) :
    exec i s = .refused .busy := by
  cases i
  case unassigned11 | unassigned12 | unassigned13 | unassigned14 | unassigned15 =>
    exact if_neg (ne_true_of_eq_false hacc)
  case addrW | addrR | data | dataStop | rdlen | rdlenStop | blockingPush => cases hi
  all_goals exact operation_busy _ _ _ s hacc hcur

/-- A presented request that is accepted (R41). -/
theorem presentStep_acceptance {q : Request} {rest : List Request} {t : State} (hport : s.port = q :: rest)
    (hacc : s.seq.pc.accepting = true)
    (h : acceptance (decodeRequest q.record) { s with port := rest, seq.buf := q.buf } = .next t) : presentStep s = .next t :=
  presentStep_accepted hport hacc ((exec_eq_acceptance (requestable_decodeRequest q.record) (by exact hacc)).trans h)

/-- A presented request that is refused (R227). -/
theorem presentStep_refusal {q : Request} {rest : List Request} {r : Refusal} (hport : s.port = q :: rest)
    (hacc : s.seq.pc.accepting = true)
    (h : acceptance (decodeRequest q.record) { s with port := rest, seq.buf := q.buf } = .refused r) :
    presentStep s = .next (dropRequest r { s with port := rest }) :=
  presentStep_refused hport hacc ((exec_eq_acceptance (requestable_decodeRequest q.record) (by exact hacc)).trans h)

/-- No acceptance looks at the terminal state it starts from (R157, R237). -/
theorem acceptance_withPc (p : Pc) : acceptance i (withPc p s) = acceptance i s := by
  cases i
  case setSpeed khz =>
    simp only [acceptance, acceptSetSpeed]
    rfl
  case write a skip len =>
    simp only [acceptance, acceptWrite]
    rfl
  case read a len =>
    simp only [acceptance, acceptRead]
    rfl
  all_goals rfl

end

/-- Settles O54: in an accepting state a request is its acceptance, which overwrites `pc` without reading it. -/
theorem terminalStatesAcceptAlike : Obligations.TerminalStatesAcceptAlike := by
  intro w p q s hp hq
  have accept (p : Pc) (hp : p.accepting = true) : exec (decodeRequest w) (withPc p s) = acceptance (decodeRequest w) s :=
    (exec_eq_acceptance (s := withPc p s) (requestable_decodeRequest w) hp).trans (acceptance_withPc p)
  exact (accept p hp).trans (accept q hq).symm

/-- Settles O27: the frame of a request refuses it, and the step that presents it drops it. -/
theorem busyRequestsAreNotAccepted : Obligations.BusyRequestsAreNotAccepted := by
  refine ⟨fun w s hacc hcur => exec_busy (requestable_decodeRequest w) hacc hcur, ?_⟩
  intro s q rest turns hacc hport hsched
  obtain ⟨h, recorded⟩ := remember_eq { s with env.sched := turns }
    (dropRequest .busy { s with port := rest, env.sched := turns })
  refine ⟨h, (step_present_next hsched (presentStep_busy (s := { s with env.sched := turns }) hport hacc)).trans ?_⟩
  rw [recorded]
  rfl

/-- Settles O28: in an accepting state the sequencer's step is the presentation, which drops what its operation refuses. -/
theorem refusedRequestsChangeNothing : Obligations.RefusedRequestsChangeNothing := by
  intro s q rest r hacc hport hexec
  rw [sequencerStep_accepting hacc, presentStep_refused hport hacc hexec]
  rfl

end Sys2Proof.Machine
end

section
/-!
Register accesses (10_state.md sections 1 to 3, 20_memory.md). The map is a bijection of the 28 names with the aligned offsets up
to 0x6C; a read under `exact` changes `x10`, the draws and, for `RDATA`, the head of the queue; a read under `monotone_stale` sees
the history at the index drawn, and every admissible index is drawn by some pick.
-/
namespace Sys2Proof.Machine

/-! ### The map (R20, R61, R65) -/

theorem regAt_offset (r : RegName) : regAt (RegName.offset r) 4 = some r := by
  cases r <;> rfl

/-- D7: no register lies at a misaligned, sub-word or outside access. -/
theorem regAt_outside {off width : Nat} (h : ¬ (width = 4 ∧ off % 4 = 0 ∧ off ≤ 0x6C)) : regAt off width = none := by
  rw [regAt]
  split
  next aligned =>
    obtain ⟨hwidth, halign⟩ := aligned
    have beyond : allRegs.length ≤ off / 4 := by
      rw [show allRegs.length = 28 from rfl]
      omega
    exact List.getElem?_eq_none beyond
  · rfl

section
variable {r : RegName} {off width : Nat} {v : Word} {s : State}

theorem memReadReg_of_regAt (h : regAt off width = some r) : memReadReg off width s = .next (regRead r s) := by
  rw [memReadReg, h]

theorem memWriteReg_of_regAt (h : regAt off width = some r) : memWriteReg off width v s = withWrite r v s .next := by
  rw [memWriteReg, h]

theorem memAccess_outside (h : regAt off width = none) :
    memReadReg off width s = .refused .registerAccess ∧ memWriteReg off width v s = .refused .registerAccess := by
  rw [memReadReg, memWriteReg, h]
  exact ⟨rfl, rfl⟩

end

/-- Settles O44: the register at an offset is the one of that offset, and there is none elsewhere. -/
theorem registerMap : Obligations.RegisterMap := by
  refine ⟨rfl, fun r c s => ⟨rfl, memReadReg_of_regAt (regAt_offset r), fun v => ?write⟩,
    fun off width v s h => memAccess_outside (regAt_outside h)⟩
  case write => exact memWriteReg_of_regAt (regAt_offset r)

/-! ### Reads under `exact` (R74, R208, R209) -/

section
variable {s : State}

/-- Under `exact` a read changes `x10`, the draws and, for `RDATA`, the receive FIFO. -/
theorem regRead_exact (r : RegName) (hvis : s.cfg.visibility = .exact) :
    regRead r s =
      { s with seq.x10 := (regRead r s).seq.x10, env := (regRead r s).env, dev.rxq := (regRead r s).dev.rxq } := by
  obtain ⟨e, drawn⟩ := drawWord_effect s
  have view : (regRead r s).view = s.view := by
    cases r
    case status => simp only [regRead, readStatus, visible_exact s hvis, drawn]
    case intrState => simp only [regRead, readIntrState, visible_exact s hvis, drawn]
    case rdata =>
      simp only [regRead, readRdata, drawn]
      split <;> rfl
    case hostFifoConfig => simp only [regRead, readHostFifoConfig, drawn]
    case intrEnable => rfl
    all_goals simp [regRead, RegName.unused, RegFile.get, drawn]
  obtain ⟨v, e, j, effect, -⟩ := regRead_effect r s
  have vis : j = s.view.vis := by
    rw [effect] at view
    exact congrArg View.vis view
  rw [effect, vis]

/-- A read of a register without a queue, under `exact`. -/
theorem regRead_exact_of_ne_rdata {r : RegName} (hr : r ≠ .rdata) (hvis : s.cfg.visibility = .exact) :
    regRead r s = { s with seq.x10 := (regRead r s).seq.x10, env := (regRead r s).env } := by
  have dev := regRead_dev r s hr
  have effect := regRead_exact r hvis
  rw [dev] at effect
  exact effect

/-- The four queue bits of `STATUS` are those of the queues now. -/
theorem statusBit_read_exact (hvis : s.cfg.visibility = .exact) {k : Nat} (hk : statusFifoMask.getLsbD k = true) :
    (regRead .status s).seq.x10.getLsbD k = statusBit (fifoStatus s.cfg s.dev.fmtq.length s.dev.rxq.length) k := by
  have seen := statusBit_read s k hk
  rw [visible_exact s hvis] at seen
  exact seen

/-- A read of `HOST_FIFO_CONFIG` gives the threshold fields as stored; beyond the word both sides are 0. -/
theorem readHostFifoConfig_threshold {k : Nat}
    (hk : (s.cfg.fmtThreshShift ≤ k ∧ k < s.cfg.fmtThreshShift + 12) ∨
      (s.cfg.rxThreshShift ≤ k ∧ k < s.cfg.rxThreshShift + 12)) :
    (regRead .hostFifoConfig s).seq.x10.getLsbD k = s.dev.regs.hostFifoConfig.getLsbD k := by
  by_cases inWord : k < 32
  · refine readHostFifoConfig_field s k ?_
    rw [getLsbD_thresholdMask]
    rcases hk with hk | hk <;> simp [inWord, hk]
  · rw [BitVec.getLsbD_of_ge _ _ (Nat.le_of_not_lt inWord), BitVec.getLsbD_of_ge _ _ (Nat.le_of_not_lt inWord)]

/-- Bits 7:0 of a value read from `RDATA` are the byte, whatever the draw. -/
theorem setWidth_rdataValue (b : Byte) (draw : Word) : (rdataValue b draw).setWidth 8 = b := by
  ext k hk
  have masked : (0xFFFFFF00#32).getLsbD k = false := by interval_cases k <;> rfl
  rw [BitVec.getElem_setWidth, rdataValue, BitVec.getLsbD_or, BitVec.getLsbD_and, masked, BitVec.getLsbD_setWidth]
  simp [hk, show k < 32 by omega]

theorem regRead_rdata_cons {b : Byte} {rest : List Byte} (hrxq : s.dev.rxq = b :: rest) :
    (regRead .rdata s).seq.x10 = rdataValue b (drawWord s).1 := by
  simp only [regRead, readRdata, hrxq]

theorem regRead_rdata_rest {b : Byte} {rest : List Byte} (hrxq : s.dev.rxq = b :: rest) :
    (regRead .rdata s).dev.rxq = rest := by
  rw [regRead_rdata_rxq, hrxq, List.tail_cons]

theorem regRead_rdata_empty (hrxq : s.dev.rxq = []) : (regRead .rdata s).dev.rxq = s.dev.rxq := by
  rw [regRead_rdata_rxq, hrxq, List.tail_nil]

end

/-- Settles O45: the frame of a read under `exact`, the queue bits by R209, the other values by the read's own lemma. -/
theorem registerReads : Obligations.RegisterReads := by
  intro s hvis
  refine ⟨?status, ?intrState, rfl, ?hostFifoConfig, ?rdata⟩
  case status =>
    refine ⟨?_, ?_, ?_, ?_, regRead_exact_of_ne_rdata (by decide) hvis⟩
    · rw [statusBit_read_exact hvis (by decide), fifoStatus_fmtFull]
    · rw [statusBit_read_exact hvis (by decide), fifoStatus_rxFull]
    · rw [statusBit_read_exact hvis (by decide), fifoStatus_fmtEmpty]
      simp
    · rw [statusBit_read_exact hvis (by decide), fifoStatus_rxEmpty]
      simp
  case intrState => exact ⟨fun p => readIntrState_flag_exact hvis, regRead_exact_of_ne_rdata (by decide) hvis⟩
  case hostFifoConfig => exact ⟨fun k => readHostFifoConfig_threshold, regRead_exact_of_ne_rdata (by decide) hvis⟩
  case rdata =>
    have effect := regRead_exact .rdata hvis
    refine ⟨fun b rest hrxq => ⟨?value, ?head⟩, fun hrxq => ?empty⟩
    case value => rw [regRead_rdata_cons hrxq, setWidth_rdataValue]
    case head =>
      rw [regRead_rdata_rest hrxq] at effect
      exact effect
    case empty =>
      rw [regRead_rdata_empty hrxq] at effect
      exact effect

/-! ### Reads under `monotone_stale` (R36, R74) -/

section
variable {s : State}

/-- The index of the history that a stale read sees. -/
def seenIndex (s : State) : Nat := staleIndex s.view.vis s.view.hist.length (drawPick s).1

theorem visible_stale (hvis : s.cfg.visibility = .monotoneStale) :
    (visible s).1 = s.view.hist.getD (seenIndex s) (snap s) ∧ (visible s).2.view = { s.view with vis := seenIndex s } := by
  obtain ⟨e, drawn⟩ := drawPick_effect s
  rw [visible, hvis]
  simp [seenIndex, drawn]

/-- The draw of the other bits leaves the visibility pointer where the visible values put it. -/
theorem regRead_view (r : RegName) (hr : r = .status ∨ r = .intrState) : (regRead r s).view = (visible s).2.view := by
  obtain ⟨e, drawn⟩ := drawWord_effect (visible s).2
  obtain rfl | rfl := hr
  · simp only [regRead, readStatus, drawn]
  · simp only [regRead, readIntrState, drawn]

theorem regRead_view_stale {r : RegName} (hr : r = .status ∨ r = .intrState) (hvis : s.cfg.visibility = .monotoneStale) :
    (regRead r s).view = { s.view with vis := seenIndex s } :=
  (regRead_view r hr).trans (visible_stale hvis).2

/-- The pick `j - vis` is the one that sees `j`. -/
theorem staleIndex_pick {vis now j : Nat} (hj : vis ≤ j) (hnow : j ≤ now) : staleIndex vis now (j - vis) = j := by
  rw [staleIndex, if_pos (by omega), Nat.mod_eq_of_lt (by omega)]
  omega

end

/-- Settles O46: the index drawn lies between `vis` and now, and its distance from `vis` is a pick that draws it. -/
theorem staleReadsAreMonotone : Obligations.StaleReadsAreMonotone := by
  intro s hvis hwithin
  obtain ⟨hseen, -⟩ := visible_stale hvis
  obtain ⟨hfrom, hto⟩ := staleIndex_range s.view.vis s.view.hist.length (drawPick s).1 hwithin
  refine ⟨⟨seenIndex s, hfrom, hto, regRead_view_stale (.inl rfl) hvis, fun k hk => ?status⟩,
    ⟨seenIndex s, hfrom, hto, regRead_view_stale (.inr rfl) hvis, fun p hp => ?intrState⟩,
    fun j hj hnow => ⟨[j - s.view.vis], ?pick⟩⟩
  case status =>
    have queueBit : statusFifoMask.getLsbD k = true := by
      revert k
      decide
    rw [← hseen]
    exact statusBit_read s k queueBit
  case intrState =>
    rw [← hseen]
    exact readIntrState_flag s p hp
  case pick =>
    have seen : seenIndex { s with env.picks := [j - s.view.vis] } = j := staleIndex_pick hj hnow
    have vis (r : RegName) (hr : r = .status ∨ r = .intrState) :
        (regRead r { s with env.picks := [j - s.view.vis] }).view.vis = j := by
      rw [regRead_view_stale (s := { s with env.picks := [j - s.view.vis] }) hr hvis, seen]
    exact ⟨vis .status (.inl rfl), vis .intrState (.inr rfl)⟩

/-! ### Chunks (R150) -/

section
variable {r : Word}

theorem toNat_chunkSize : (chunkSize r).toNat = min 255 r.toNat := by
  rw [chunkSize, BitVec.toNat_ofNat, chunkMax]
  omega

theorem chunkIsLast_iff : chunkIsLast r = true ↔ r.toNat ≤ 255 := by
  rw [chunkIsLast, decide_eq_true_eq, ← BitVec.toNat_inj, BitVec.toNat_setWidth, toNat_chunkSize]
  omega

theorem chunkIsLast_eq_false_iff : chunkIsLast r = false ↔ 255 < r.toNat := by
  rw [Bool.eq_false_iff, ne_eq, chunkIsLast_iff, Nat.not_le]

theorem toNat_ne_zero (h : r ≠ 0#32) : r.toNat ≠ 0 := fun hr => h (BitVec.eq_of_toNat_eq hr)

theorem toNat_sub_chunkSize : (r - (chunkSize r).setWidth 32).toNat = r.toNat - min 255 r.toNat := by
  have width : ((chunkSize r).setWidth 32).toNat = min 255 r.toNat := by
    rw [BitVec.toNat_setWidth, toNat_chunkSize]
    omega
  rw [BitVec.toNat_sub_of_le (by rw [BitVec.le_def, width]; omega), width]

end

/-- Settles O37: everything is said by the chunk's size as a natural number. -/
theorem chunkSizes : Obligations.ChunkSizes := by
  intro r
  refine ⟨toNat_chunkSize, fun hr => ?_, chunkIsLast_iff, fun hlast => ?_⟩
  · have pos := toNat_ne_zero hr
    rw [toNat_chunkSize]
    omega
  · have more := chunkIsLast_eq_false_iff.mp hlast
    rw [toNat_sub_chunkSize]
    omega

end Sys2Proof.Machine
end

section
/-!
The transaction engine step by step (41_fifo_transaction_engine.md): one equation per micro-state of `blocking_push`, `write` and
`read`. Whatever else is proved of the engine cites these equations, and the tables of R142, R146 and R154 are read off from them.
-/
namespace Sys2Proof.Machine

/-! ### `blocking_push` (R142) -/

section
variable {w : FmtWord} {also : State → State} {s : State} {p next : Pc}

@[simp] theorem returnTo_pc (p : Pc) (s : State) : (returnTo p s).seq.pc = p := by
  rw [returnTo]
  split
  next h => exact h.symm
  · rfl

@[simp] theorem returnTo_dev (p : Pc) (s : State) : (returnTo p s).dev = s.dev := by rw [returnTo]; split <;> rfl
@[simp] theorem returnTo_mem (p : Pc) (s : State) : (returnTo p s).mem = s.mem := by rw [returnTo]; split <;> rfl
@[simp] theorem returnTo_x7 (p : Pc) (s : State) : (returnTo p s).seq.x7 = s.seq.x7 := by rw [returnTo]; split <;> rfl
@[simp] theorem returnTo_pushes (p : Pc) (s : State) : (returnTo p s).log.pushes = s.log.pushes := by
  rw [returnTo]; split <;> rfl

/-- The state after `w` has entered the format FIFO (R201). -/
def withPush (w : FmtWord) (s : State) : State :=
  { s with seq.x7 := w, dev.fmtq := s.dev.fmtq ++ [w], log.pushes := s.log.pushes ++ [w] }

/-- Where a poll goes on: bit 0 of `STATUS` says whether it stays. -/
theorem pollFull_eq (stay next : Pc) (s : State) :
    pollFull stay next s =
      .next (withPc (if (regRead .status s).seq.x10.getLsbD 0 then stay else next) (regRead .status s)) := rfl

theorem blockingPushStep_poll (h : s.seq.pc.pollTarget = some next) :
    blockingPushStep w also s = pollFull s.seq.pc next { s with seq.x7 := w } := by
  cases hpc : s.seq.pc <;> rw [hpc] at h <;> cases h
  all_goals rw [blockingPushStep, hpc]

theorem blockingPushStep_push (h : s.seq.pc.pushing = true) : blockingPushStep w also s = pushStep w also s := by
  cases hpc : s.seq.pc <;> rw [hpc] at h <;> cases h
  all_goals rw [blockingPushStep, hpc]

theorem blockingPushStep_room (h : s.seq.pc.pushing = true) (hroom : s.dev.fmtq.length < s.cfg.fmtDepth) :
    blockingPushStep w also s = .next (also (returnTo (returnPoint s) (withPush w s))) := by
  rw [blockingPushStep_push h, pushStep, withWrite_fdata, if_pos hroom]
  rfl

theorem blockingPushStep_full (h : s.seq.pc.pushing = true) (hfull : ¬ s.dev.fmtq.length < s.cfg.fmtDepth) :
    blockingPushStep w also s = .next (faulted .pushWhenFull { s with seq.x7 := w }) := by
  rw [blockingPushStep_push h, pushStep, withWrite_fdata, if_neg hfull]
  rfl

/-- The four pairs of micro-states of a poll and its push (R146, R154). -/
theorem pollTarget_of_pair (h : (p = .wStartPoll ∧ next = .wStartPush) ∨ (p = .wDataPoll ∧ next = .wDataPush) ∨
    (p = .rStartPoll ∧ next = .rStartPush) ∨ (p = .rLenPoll ∧ next = .rLenPush)) : p.pollTarget = some next := by
  obtain ⟨rfl, rfl⟩ | ⟨rfl, rfl⟩ | ⟨rfl, rfl⟩ | ⟨rfl, rfl⟩ := h
  all_goals rfl

/-- The return points of R146 and R154. -/
theorem returnPoint_eq (h : s.seq.pc.pushing = true) :
    returnPoint s = if s.seq.pc = .wStartPush then .wDataPoll
      else if s.seq.pc = .wDataPush then (if s.seq.x3 = s.seq.x1 - 1#32 then .complete else .wDataPoll)
      else if s.seq.pc = .rStartPush then .rAddrWait else .rDataWait := by
  cases hpc : s.seq.pc <;> rw [hpc] at h <;> cases h
  all_goals simp [returnPoint, hpc, lastDataWord]

end

/-- Settles O29: the poll, the push with room and the push into a full FIFO, at any of the four pairs. -/
theorem blockingPushSteps : Obligations.BlockingPushSteps := by
  intro w s
  refine ⟨fun stay next hpair hpc => ?poll, fun hpushing hroom => ?push, blockingPushStep_full⟩
  case poll =>
    subst hpc
    refine ⟨_, memReadReg_status, regRead_status_dev, ?_⟩
    exact blockingPushStep_poll (pollTarget_of_pair hpair)
  case push =>
    refine ⟨_, blockingPushStep_room hpushing hroom, ?_⟩
    simp [withPush, returnPoint_eq hpushing]

/-! ### `write` (R146) -/

section
variable {a : BitVec 7} {skip : Bool} {len : Word} {s : State}

theorem exec_write_accept (hacc : s.seq.pc.accepting = true) : exec (.write a skip len) s = acceptWrite a skip len s :=
  operation_accept _ _ _ s hacc

theorem acceptWrite_nonzero (hlen : len ≠ 0#32) :
    acceptWrite a skip len s = .next { s with seq := { s.seq with
      pc := .wStartPoll, cur := some (.write a skip len), x0 := a, x1 := len, x2 := skip, x7 := addressWord a false } } := by
  rw [acceptWrite, if_neg hlen]
  rfl

theorem exec_write_micro (hcur : s.seq.cur = some (.write a skip len)) (hpc : s.seq.pc.accepting = false) :
    exec (.write a skip len) s = microWrite s :=
  operation_micro _ _ _ s hpc hcur

theorem microWrite_startPoll (hpc : s.seq.pc = .wStartPoll) : microWrite s = pollFull .wStartPoll .wStartPush s := by
  rw [microWrite, hpc]
  dsimp only
  rw [blockingPushStep, hpc]

theorem microWrite_dataPoll (hpc : s.seq.pc = .wDataPoll) : microWrite s = pollFull .wDataPoll .wDataPush s := by
  rw [microWrite, hpc]
  dsimp only
  rw [blockingPushStep, hpc]

theorem microWrite_startPush (hpc : s.seq.pc = .wStartPush) (hroom : s.dev.fmtq.length < s.cfg.fmtDepth) :
    microWrite s = .next { withPush s.seq.x7 s with seq := { s.seq with pc := .wDataPoll, x3 := 0#32 } } := by
  rw [microWrite, hpc]
  dsimp only
  rw [blockingPushStep_room (by rw [hpc]; rfl) hroom, returnPoint, hpc]
  rfl

theorem microWrite_startPush_full (hpc : s.seq.pc = .wStartPush) (hfull : ¬ s.dev.fmtq.length < s.cfg.fmtDepth) :
    microWrite s = .next (faulted .pushWhenFull s) := by
  rw [microWrite, hpc]
  exact blockingPushStep_full (by rw [hpc]; rfl) hfull

/-- The word that `W_DATA_PUSH` pushes (R94, R146). -/
def currentDataWord (s : State) : FmtWord :=
  writeDataWord (lastDataWord s) s.seq.x2 (Memory.read s.mem (bufAddress s s.seq.x3.toNat))

theorem microWrite_dataPush_outside (hpc : s.seq.pc = .wDataPush) (hout : ¬ s.seq.x3.toNat < s.seq.buf.size) :
    microWrite s = .next (faulted .bufferBound s) := by
  simp only [microWrite, hpc, pushData, bufRead, if_neg hout, raise]

theorem microWrite_dataPush (hpc : s.seq.pc = .wDataPush) (hin : s.seq.x3.toNat < s.seq.buf.size) :
    microWrite s = blockingPushStep (currentDataWord s) (fun t => { t with seq.x3 := t.seq.x3 + 1#32 }) s := by
  simp only [microWrite, hpc, pushData, bufRead, if_pos hin]
  rfl

/-- The data push with room: the next poll, or the end after the last word. -/
theorem microWrite_dataPush_room (hpc : s.seq.pc = .wDataPush) (hin : s.seq.x3.toNat < s.seq.buf.size)
    (hroom : s.dev.fmtq.length < s.cfg.fmtDepth) :
    let t := withPush (currentDataWord s) { s with seq := { s.seq with pc := .wDataPoll, x3 := s.seq.x3 + 1#32 } }
    microWrite s = .next (if lastDataWord s then completed t else t) := by
  rw [microWrite_dataPush hpc hin, blockingPushStep_room (by rw [hpc]; rfl) hroom, returnPoint, hpc]
  cases lastDataWord s <;> rfl

theorem microWrite_dataPush_full (hpc : s.seq.pc = .wDataPush) (hin : s.seq.x3.toNat < s.seq.buf.size)
    (hfull : ¬ s.dev.fmtq.length < s.cfg.fmtDepth) :
    microWrite s = .next (faulted .pushWhenFull { s with seq.x7 := currentDataWord s }) := by
  rw [microWrite_dataPush hpc hin, blockingPushStep_full (by rw [hpc]; rfl) hfull]

/-- The data word of R94 with its condition for `STOP` written out. -/
theorem writeDataWord_eq (last skip : Bool) (d : Byte) :
    writeDataWord last skip d = (if last = true ∧ skip = false then 0x0200#13 else 0#13) ||| d.setWidth 13 := by
  cases last <;> cases skip <;> rfl

/-- The address word of R93, direction bit 0. -/
theorem addressWord_false (a : BitVec 7) : addressWord a false = 0x0100#13 ||| (a.setWidth 13 <<< 1) :=
  BitVec.or_zero

end

/-- Settles O30: acceptance and each micro-state by its equation. -/
theorem writeSteps : Obligations.WriteSteps := by
  intro a skip len s
  refine ⟨fun hacc => ⟨fun hlen => ?zero, fun hlen => ?enter⟩, fun hcur => ?micro⟩
  case zero =>
    subst hlen
    exact exec_write_zero_length hacc
  case enter => rw [exec_write_accept hacc, acceptWrite_nonzero hlen, addressWord_false]
  case micro =>
    have run {p : Pc} (hpc : s.seq.pc = p) (hp : p.accepting = false) : exec (.write a skip len) s = microWrite s :=
      exec_write_micro hcur (by rw [hpc, hp])
    refine ⟨fun hpc => ⟨_, memReadReg_status, (run hpc rfl).trans (microWrite_startPoll hpc)⟩,
      fun hpc hroom => (run hpc rfl).trans (microWrite_startPush hpc hroom),
      fun hpc hfull => (run hpc rfl).trans (microWrite_startPush_full hpc hfull),
      fun hpc => ⟨_, memReadReg_status, (run hpc rfl).trans (microWrite_dataPoll hpc)⟩,
      fun hpc hout => (run hpc rfl).trans (microWrite_dataPush_outside hpc hout), fun hpc hin => ?dataPush⟩
    case dataPush =>
      have word := writeDataWord_eq (lastDataWord s) s.seq.x2 (Memory.read s.mem (bufAddress s s.seq.x3.toNat))
      dsimp only
      refine ⟨fun hfull => ?_, fun hroom => ?_⟩
      · rw [run hpc rfl, microWrite_dataPush_full hpc hin hfull, currentDataWord, word]
        rfl
      · rw [run hpc rfl, microWrite_dataPush_room hpc hin hroom, currentDataWord, word]
        rfl

/-! ### `read` (R154) -/

section
variable {a : BitVec 7} {len : Word} {s : State}

theorem exec_read_accept (hacc : s.seq.pc.accepting = true) : exec (.read a len) s = acceptRead a len s :=
  operation_accept _ _ _ s hacc

theorem acceptRead_nonzero (hlen : len ≠ 0#32) :
    acceptRead a len s = .next { s with seq := { s.seq with
      pc := .rStartPoll, cur := some (.read a len), x0 := a, x1 := len, x3 := 0#32, x4 := len
      x7 := addressWord a true } } := by
  rw [acceptRead, if_neg hlen]
  rfl

theorem exec_read_micro (hcur : s.seq.cur = some (.read a len)) (hpc : s.seq.pc.accepting = false) :
    exec (.read a len) s = microRead s :=
  operation_micro _ _ _ s hpc hcur

theorem microRead_startPoll (hpc : s.seq.pc = .rStartPoll) : microRead s = pollFull .rStartPoll .rStartPush s := by
  rw [microRead, hpc]
  dsimp only
  rw [blockingPushStep, hpc]

theorem microRead_lenPoll (hpc : s.seq.pc = .rLenPoll) : microRead s = pollFull .rLenPoll .rLenPush s := by
  rw [microRead, hpc]
  dsimp only
  rw [blockingPushStep, hpc]

theorem microRead_startPush (hpc : s.seq.pc = .rStartPush) (hroom : s.dev.fmtq.length < s.cfg.fmtDepth) :
    microRead s = .next (withPc .rAddrWait (withPush s.seq.x7 s)) := by
  rw [microRead, hpc]
  dsimp only
  rw [blockingPushStep_room (by rw [hpc]; rfl) hroom, returnPoint, hpc]
  rfl

theorem microRead_lenPush (hpc : s.seq.pc = .rLenPush) (hroom : s.dev.fmtq.length < s.cfg.fmtDepth) :
    microRead s = .next (withPc .rDataWait (withPush s.seq.x7 s)) := by
  rw [microRead, hpc]
  dsimp only
  rw [blockingPushStep_room (by rw [hpc]; rfl) hroom, returnPoint, hpc]
  rfl

theorem microRead_push_full (hpc : s.seq.pc = .rStartPush ∨ s.seq.pc = .rLenPush)
    (hfull : ¬ s.dev.fmtq.length < s.cfg.fmtDepth) : microRead s = .next (faulted .pushWhenFull s) := by
  obtain hpc | hpc := hpc
  all_goals
    rw [microRead, hpc]
    exact blockingPushStep_full (by rw [hpc]; rfl) hfull

/-- `R_ADDR_WAIT`: bit 2 of `STATUS` says whether the address word has been taken (R147). -/
theorem microRead_addrWait (hpc : s.seq.pc = .rAddrWait) :
    microRead s =
      .next (withPc (if (regRead .status s).seq.x10.getLsbD 2 then .rNakTest else .rAddrWait) (regRead .status s)) := by
  rw [microRead, hpc]
  rfl

theorem memReadReg_rdata : memReadReg 0x18 4 s = .next (regRead .rdata s) := rfl

/-- The state in which the next chunk has been computed (R150). -/
def withChunk (s : State) : State :=
  { s with seq := { s.seq with
    pc := .rLenPoll, x5 := chunkSize s.seq.x4, x6 := chunkIsLast s.seq.x4
    x7 := readLengthWord (chunkIsLast s.seq.x4) (chunkSize s.seq.x4) } }

theorem microRead_nakTest (hpc : s.seq.pc = .rNakTest) :
    microRead s = .next (
      if (regRead .intrState s).seq.x10.getLsbD s.cfg.flags.nak.toNat then withPc .rNakClearRd (regRead .intrState s)
      else withChunk (regRead .intrState s)) := by
  rw [microRead, hpc]
  dsimp only
  rw [nakTest, flagSet_eq_getLsbD, withChunk, regRead_x4]
  split <;> rfl

theorem microRead_nakClearRd (hpc : s.seq.pc = .rNakClearRd) :
    microRead s = .next (withPc .rNakClearWr (regRead .intrState s)) := by
  rw [microRead, hpc]
  rfl

theorem microRead_nakClearWr (hpc : s.seq.pc = .rNakClearWr) :
    microRead s = .next (nakAborted { s with dev.regs.intrState := clearFlag s.seq.x10 s.cfg.flags.nak }) := by
  rw [microRead, hpc]
  exact withWrite_intrState _ _ _

theorem microRead_dataWait (hpc : s.seq.pc = .rDataWait) :
    microRead s = .next (
      if (regRead .status s).seq.x10.getLsbD 2 then
        { regRead .status s with seq := { (regRead .status s).seq with pc := .rDrain, x8 := 0#8 } }
      else regRead .status s) := by
  have stay : withPc .rDataWait (regRead .status s) = regRead .status s := by
    rw [withPc, ← hpc, ← regRead_pc .status s]
  rw [microRead, hpc]
  dsimp only
  rw [dataWait, goto, goto, stay, statusBit, statusFmtEmpty]
  split <;> rfl

/-- The place of the caller's buffer that `R_DRAIN` stores to. -/
def drainIndex (s : State) : Nat := (s.seq.x3 + s.seq.x8.setWidth 32).toNat

/-- The state after a byte has been drained (R152). -/
def drained (s : State) : State :=
  { regRead .rdata s with
    seq := { (regRead .rdata s).seq with x8 := (regRead .rdata s).seq.x8 + 1#8 }
    mem := Memory.write s.mem (s.seq.buf.base + drainIndex s) (rdataByte (regRead .rdata s).seq.x10) }

/-- The state after a chunk has been drained (R148). -/
def chunkCounted (s : State) : State :=
  { s with seq := { s.seq with x3 := s.seq.x3 + s.seq.x5.setWidth 32, x4 := s.seq.x4 - s.seq.x5.setWidth 32 } }

theorem chunkDone_eq (s : State) :
    chunkDone s = if s.seq.x6 then completedWith true (chunkCounted s)
      else withPc .rStartPoll { chunkCounted s with seq.x7 := addressWord s.seq.x0 true } := rfl

@[simp] theorem drained_x0 (s : State) : (drained s).seq.x0 = s.seq.x0 := regRead_x0 _ _
@[simp] theorem drained_x3 (s : State) : (drained s).seq.x3 = s.seq.x3 := regRead_x3 _ _
@[simp] theorem drained_x4 (s : State) : (drained s).seq.x4 = s.seq.x4 := regRead_x4 _ _
@[simp] theorem drained_x6 (s : State) : (drained s).seq.x6 = s.seq.x6 := regRead_x6 _ _
@[simp] theorem drained_x5 (s : State) : (drained s).seq.x5 = s.seq.x5 := regRead_x5 _ _
@[simp] theorem drained_x8 (s : State) : (drained s).seq.x8 = s.seq.x8 + 1#8 :=
  congrArg (· + 1#8) (regRead_x8 _ _)

/-- What R152 does, written out. -/
theorem drained_eq (s : State) :
    drained s = { regRead .rdata s with
      seq.x8 := s.seq.x8 + 1#8
      mem := Memory.write s.mem (s.seq.buf.base + (s.seq.x3 + s.seq.x8.setWidth 32).toNat)
        ((regRead .rdata s).seq.x10.setWidth 8) } := by
  rw [drained, regRead_x8]
  rfl

theorem bufWrite_drainIndex (b : Byte) (s : State) :
    bufWrite ((regRead .rdata s).seq.x3 + (regRead .rdata s).seq.x8.setWidth 32).toNat b (regRead .rdata s) =
      if drainIndex s < s.seq.buf.size then
        .ok { regRead .rdata s with mem := Memory.write s.mem (s.seq.buf.base + drainIndex s) b }
      else .error .bufferBound := by
  rw [regRead_x3, regRead_x8, ← drainIndex, bufWrite, bufAddress, regRead_buf, regRead_mem]

theorem microRead_drain_outside (hpc : s.seq.pc = .rDrain) (hout : ¬ drainIndex s < s.seq.buf.size) :
    microRead s = .next (faulted .bufferBound (regRead .rdata s)) := by
  rw [microRead, hpc]
  dsimp only
  rw [drain]
  dsimp only
  rw [bufWrite_drainIndex, if_neg hout]
  rfl

theorem microRead_drain (hpc : s.seq.pc = .rDrain) (hin : drainIndex s < s.seq.buf.size) :
    microRead s = .next (if s.seq.x8 + 1#8 = s.seq.x5 then chunkDone (drained s) else drained s) := by
  rw [microRead, hpc]
  dsimp only
  rw [drain]
  dsimp only
  rw [bufWrite_drainIndex, if_pos hin]
  change (if (drained s).seq.x8 = (drained s).seq.x5 then Host.Outcome.next (chunkDone (drained s)) else .next (drained s)) = _
  rw [drained_x8, drained_x5]
  split <;> rfl

end

/-- The address word of R93, direction bit 1. -/
theorem addressWord_true (a : BitVec 7) : addressWord a true = 0x0100#13 ||| (a.setWidth 13 <<< 1) ||| 1#13 := rfl

/-- The read-length word of a chunk, by the number of bytes that remain (R95, R150). -/
theorem readLengthWord_chunk (r : Word) :
    readLengthWord (chunkIsLast r) (chunkSize r) =
      (if r.toNat ≤ 255 then 0x0200#13 else 0#13) ||| 0x0400#13 ||| BitVec.ofNat 13 (min 255 r.toNat) := by
  have count : (chunkSize r).setWidth 13 = BitVec.ofNat 13 (min 255 r.toNat) := by
    apply BitVec.eq_of_toNat_eq
    rw [BitVec.toNat_setWidth, toNat_chunkSize, BitVec.toNat_ofNat]
  rw [readLengthWord, count]
  congr 2
  exact if_congr chunkIsLast_iff rfl rfl

/-- What R150 computes, written out. -/
theorem withChunk_eq (s : State) :
    withChunk s = { s with seq := { s.seq with
      pc := .rLenPoll, x5 := BitVec.ofNat 8 (min 255 s.seq.x4.toNat), x6 := decide (s.seq.x4.toNat ≤ 255)
      x7 := (if s.seq.x4.toNat ≤ 255 then 0x0200#13 else 0#13) ||| 0x0400#13 |||
        BitVec.ofNat 13 (min 255 s.seq.x4.toNat) } } := by
  have last : chunkIsLast s.seq.x4 = decide (s.seq.x4.toNat ≤ 255) := by
    rw [Bool.eq_iff_iff, chunkIsLast_iff, decide_eq_true_eq]
  rw [withChunk, readLengthWord_chunk, last]
  rfl

/-- Settles O33: acceptance and each micro-state by its equation. -/
theorem readSteps : Obligations.ReadSteps := by
  intro a len s
  refine ⟨fun hacc => ⟨fun hlen => ?zero, fun hlen => ?enter⟩, fun hcur => ?micro⟩
  case zero =>
    subst hlen
    exact exec_read_zero_length hacc
  case enter => rw [exec_read_accept hacc, acceptRead_nonzero hlen, addressWord_true]
  case micro =>
    have run {p : Pc} (hpc : s.seq.pc = p) (hp : p.accepting = false) : exec (.read a len) s = microRead s :=
      exec_read_micro hcur (by rw [hpc, hp])
    refine ⟨fun hpc => ⟨_, memReadReg_status, (run hpc rfl).trans (microRead_startPoll hpc)⟩,
      fun hpc hroom => (run hpc rfl).trans (microRead_startPush hpc hroom),
      fun hpc => ⟨_, memReadReg_status, (run hpc rfl).trans (microRead_addrWait hpc)⟩,
      fun hpc => ⟨_, memReadReg_intrState, ?nakTest⟩,
      fun hpc => ⟨_, memReadReg_intrState, (run hpc rfl).trans (microRead_nakClearRd hpc)⟩,
      fun hpc => (run hpc rfl).trans (microRead_nakClearWr hpc),
      fun hpc => ⟨_, memReadReg_status, (run hpc rfl).trans (microRead_lenPoll hpc)⟩,
      fun hpc hroom => (run hpc rfl).trans (microRead_lenPush hpc hroom), fun hpc hfull => ?full,
      fun hpc => ⟨_, memReadReg_status, (run hpc rfl).trans (microRead_dataWait hpc)⟩,
      fun hpc => ⟨_, memReadReg_rdata, fun hout => (run hpc rfl).trans (microRead_drain_outside hpc hout),
        fun hin => ?drain⟩⟩
    case nakTest =>
      rw [run hpc rfl, microRead_nakTest hpc, withChunk_eq, regRead_x4]
      rfl
    case full =>
      have busy : s.seq.pc.accepting = false := by obtain hpc | hpc := hpc <;> rw [hpc] <;> rfl
      rw [exec_read_micro hcur busy, microRead_push_full hpc hfull]
    case drain =>
      have step := (run hpc rfl).trans (microRead_drain hpc hin)
      refine ⟨fun hmore => ?_, fun hend hlast => ?_, fun hend hlast => ?_⟩
      · rw [step, if_neg hmore, drained_eq]
      · rw [step, if_pos hend, chunkDone_eq, drained_x6, if_pos hlast, chunkCounted, drained_x3, drained_x4, drained_x5,
          drained_eq]
      · rw [step, if_pos hend, chunkDone_eq, drained_x6, if_neg (ne_true_of_eq_false hlast), chunkCounted, drained_x3,
          drained_x4, drained_x5, drained_x0, drained_eq, addressWord_true]
        rfl

/-! ### The abort path of `read` (R149, R221, R235) -/

/-- The state in which `R_NAK_CLEAR_WR` has what it needs: both reads of `INTR_STATE` have been made. -/
def nakSeen (s : State) : State :=
  withPc .rNakClearWr (regRead .intrState (withPc .rNakClearRd (regRead .intrState s)))

theorem nakSeen_seq (s : State) : (nakSeen s).seq = { s.seq with pc := .rNakClearWr, x10 := (nakSeen s).seq.x10 } := by
  rw [nakSeen, withPc_seq, regRead_seq, withPc_seq, regRead_seq .intrState s]

theorem nakSeen_dev (s : State) : (nakSeen s).dev = s.dev := by
  rw [nakSeen, withPc_dev, regRead_intrState_dev, withPc_dev, regRead_intrState_dev]

/-- Under `exact` the flags in `x10` are those of `INTR_STATE`. -/
theorem nakSeen_flag {s : State} (hvis : s.cfg.visibility = .exact) {p : BitVec 5} (hp : p ∈ s.cfg.flags.positions) :
    (nakSeen s).seq.x10.getLsbD p.toNat = s.dev.regs.intrState.getLsbD p.toNat := by
  have seen := readIntrState_flag_exact (s := withPc .rNakClearRd (regRead .intrState s)) (p := p)
    (by simpa using hvis) (by simpa using hp)
  simpa [nakSeen] using seen

theorem execTimes_read_nak {a : BitVec 7} {len : Word} {s : State} (hpc : s.seq.pc = .rNakTest)
    (hcur : s.seq.cur = some (.read a len)) (hvis : s.cfg.visibility = .exact)
    (hnak : s.dev.regs.intrState.getLsbD s.cfg.flags.nak.toNat = true) :
    execTimes (.read a len) 3 s = .next (nakAborted
      { nakSeen s with dev.regs.intrState := clearFlag (nakSeen s).seq.x10 (nakSeen s).cfg.flags.nak }) := by
  have test : exec (.read a len) s = .next (withPc .rNakClearRd (regRead .intrState s)) := by
    rw [exec_read_micro hcur (by rw [hpc]; rfl), microRead_nakTest hpc, readIntrState_flag_exact hvis (nak_mem _), if_pos hnak]
  have read : exec (.read a len) (withPc .rNakClearRd (regRead .intrState s)) = .next (nakSeen s) :=
    (exec_read_micro (by simpa using hcur) rfl).trans (microRead_nakClearRd rfl)
  have clear := (exec_read_micro (s := nakSeen s) (a := a) (len := len) (by simpa [nakSeen] using hcur) rfl).trans
    (microRead_nakClearWr rfl)
  exact (execTimes_succ _ 2 _ _ test).trans ((execTimes_succ _ 1 _ _ read).trans (execTimes_succ _ 0 _ _ clear))

/-- Settles O34: the two reads leave the flags in `x10`, and the write clears `Nak` in them. -/
theorem readNakAborts : Obligations.ReadNakAborts := by
  intro a len s hpc hcur hvis hnak
  refine ⟨_, execTimes_read_nak hpc hcur hvis hnak, ?seq, rfl, rfl, ?dev, by simp [nakSeen], by simp [nakSeen],
    by simp [nakSeen], fun p hp => ?flags⟩
  case seq =>
    rw [nakAborted_seq]
    dsimp only
    rw [nakSeen_seq]
  case dev =>
    rw [nakAborted_dev]
    dsimp only
    rw [nakSeen_dev]
  case flags =>
    have cfg : (nakSeen s).cfg = s.cfg := by simp [nakSeen]
    rw [nakAborted_dev]
    dsimp only
    rw [getLsbD_clearFlag, nakSeen_flag hvis hp, cfg]
    simp only [ne_eq, BitVec.toNat_inj]

end Sys2Proof.Machine
end

section
/-!
What a step leaves alone (R43, R62, R68, R200). All but two kinds of step are quiet: they keep the parameters, the caller's memory
and `PUSHES`, let the format FIFO only shrink, and keep the receive FIFO within its depth and the visibility pointer within the
history. The two are the push of a word and the drain of a byte, and after either the rest of the step is quiet again.
-/
namespace Sys2Proof.Machine

/-- The step from `s` to `t`, or a part of one, neither pushes a word nor stores a byte. -/
structure Quiet (s t : State) : Prop where
  cfg : t.cfg = s.cfg
  mem : t.mem = s.mem
  pushes : t.log.pushes = s.log.pushes
  vis : s.view.vis ≤ s.view.hist.length → t.view.vis ≤ t.view.hist.length
  fmtq : t.dev.fmtq.length ≤ s.dev.fmtq.length
  rxq : s.dev.rxq.length ≤ s.cfg.rxDepth → t.dev.rxq.length ≤ s.cfg.rxDepth

section
variable {s t u : State} {r : RegName} {v : Word} {w : FmtWord} {i : Instr} {k : State → Res} {also : State → State}

theorem Quiet.refl (s : State) : Quiet s s := ⟨rfl, rfl, rfl, id, le_refl _, id⟩

theorem Quiet.trans (h : Quiet s t) (h' : Quiet t u) : Quiet s u where
  cfg := h'.cfg.trans h.cfg
  mem := h'.mem.trans h.mem
  pushes := h'.pushes.trans h.pushes
  vis hs := h'.vis (h.vis hs)
  fmtq := h'.fmtq.trans h.fmtq
  rxq hs := by
    rw [← h.cfg]
    refine h'.rxq ?_
    rw [h.cfg]
    exact h.rxq hs

/-- A step of the sequencer, the draws, the observations and the requests alone. -/
theorem Quiet.of_same (cfg : t.cfg = s.cfg) (dev : t.dev = s.dev) (view : t.view = s.view) (mem : t.mem = s.mem)
    (pushes : t.log.pushes = s.log.pushes) : Quiet s t :=
  ⟨cfg, mem, pushes, by rw [view]; exact id, by rw [dev], by rw [dev]; exact id⟩

/-! ### Accesses -/

theorem regRead_quiet (r : RegName) (s : State) : Quiet s (regRead r s) := by
  obtain ⟨v, e, j, hread, hj⟩ := regRead_effect r s
  rw [hread]
  refine ⟨rfl, rfl, rfl, fun h => (hj h).2, le_refl _, fun h => ?_⟩
  by_cases hr : r = .rdata
  · simp [hr]
    omega
  · simp [hr, h]

theorem storeReg_quiet (r : RegName) (v : Word) (s : State) : Quiet s (storeReg r v s) :=
  ⟨rfl, rfl, rfl, id, le_refl _, id⟩

theorem writeFifoCtrl_quiet (v : Word) (s : State) : Quiet s (writeFifoCtrl v s) := by
  obtain ⟨hfmtq, hrxq⟩ := writeFifoCtrl_queues_kept_or_emptied (v := v) (s := s)
  obtain ⟨e, drawn⟩ := drawWord_effect s
  have frame : (writeFifoCtrl v s).cfg = s.cfg ∧ (writeFifoCtrl v s).mem = s.mem ∧
      (writeFifoCtrl v s).log.pushes = s.log.pushes ∧ (writeFifoCtrl v s).view = s.view := by
    rw [writeFifoCtrl]
    split
    · exact ⟨rfl, rfl, rfl, rfl⟩
    · simp [drawn]
  obtain ⟨cfg, mem, pushes, view⟩ := frame
  refine ⟨cfg, mem, pushes, by rw [view]; exact id, ?_, fun h => ?_⟩
  · obtain h | h := hfmtq <;> simp [h]
  · obtain h' | h' := hrxq <;> simp [h', h]

/-- A write of any register but `FDATA`, followed by a quiet rest of the step. -/
theorem withWrite_quiet (hr : r ≠ .fdata) (hk : ∀ u, k u = .next t → Quiet u t) (h : withWrite r v s k = .next t) :
    Quiet s t := by
  obtain ⟨rfl, -⟩ | ⟨rfl, -⟩ | ⟨rfl, hw⟩ | ⟨-, -, hw⟩ := regWrite_cases r v s
  · exact absurd rfl hr
  · exact absurd rfl hr
  · rw [withWrite, hw] at h
    exact (writeFifoCtrl_quiet v s).trans (hk _ h)
  · rw [withWrite, hw] at h
    refine Quiet.trans ?_ (hk _ h)
    split
    · exact Quiet.refl s
    · exact storeReg_quiet r v s

theorem completed_quiet (s : State) : Quiet s (completed s) := .of_same rfl rfl rfl rfl rfl

theorem completed_next_quiet (u : State) (h : Host.Outcome.next (completed u) = (.next t : Res)) : Quiet u t := by
  cases h
  exact completed_quiet u

theorem returnTo_quiet (p : Pc) (s : State) : Quiet s (returnTo p s) := by
  rw [returnTo]
  split <;> exact .of_same rfl rfl rfl rfl rfl

/-- Everything a step of `blocking_push` does besides the push is quiet. -/
theorem blockingPushStep_effect (h : blockingPushStep w also s = .next t) (halso : ∀ u, Quiet u (also u)) :
    Quiet s t ∨ (s.seq.pc.pushing = true ∧ s.dev.fmtq.length < s.cfg.fmtDepth ∧ Quiet (withPush w s) t) := by
  obtain ⟨next, v, e, j, -, -, hj, rfl⟩ | ⟨hpushing, hroom, rfl⟩ | ⟨-, -, rfl⟩ := blockingPushStep_next w also s t h
  · exact .inl ⟨rfl, rfl, rfl, fun h => (hj h).2, le_refl _, id⟩
  · exact .inr ⟨hpushing, hroom, (returnTo_quiet _ _).trans (halso _)⟩
  · exact .inl (.of_same rfl rfl rfl rfl rfl)

/-! ### Every instruction -/

theorem acceptance_quiet (h : acceptance i s = .next t) : Quiet s t := by
  cases i
  case setSpeed khz =>
    obtain ⟨-, ⟨-, rfl⟩ | ⟨-, rfl⟩⟩ := acceptSetSpeed_next h <;> exact .of_same rfl rfl rfl rfl rfl
  case write a skip len =>
    rw [acceptance, acceptWrite] at h
    split_ifs at h <;> cases h <;> exact .of_same rfl rfl rfl rfl rfl
  case read a len =>
    rw [acceptance, acceptRead] at h
    split_ifs at h <;> cases h <;> exact .of_same rfl rfl rfl rfl rfl
  case interruptAsserted | clearInterrupt | enableInterrupt | disableInterrupt | statusTest =>
    obtain rfl := acceptAccess_next h
    exact .of_same rfl rfl rfl rfl rfl
  case resetFifos | setHostMode | setHostThresholds =>
    cases h
    exact .of_same rfl rfl rfl rfl rfl
  all_goals cases h

theorem configure_quiet (hr : r ≠ .fdata) (h : configure r v s = .next t) : Quiet s t := by
  rw [configure_cfWr (configure_next_pc h)] at h
  exact withWrite_quiet hr completed_next_quiet h

theorem testMicro_quiet {test : Word → Bool} (h : testMicro r test s = .next t) : Quiet s t := by
  rw [testMicro] at h
  split at h
  · cases h
    exact (regRead_quiet r s).trans (.of_same rfl rfl rfl rfl rfl)
  · cases h

theorem modifyMicro_quiet {modify : Word → Word} (hr : r ≠ .fdata) (h : modifyMicro r modify s = .next t) : Quiet s t := by
  rw [modifyMicro] at h
  split at h
  · cases h
    exact (regRead_quiet r s).trans (.of_same rfl rfl rfl rfl rfl)
  · exact withWrite_quiet hr completed_next_quiet h
  · cases h

theorem microSetSpeed_quiet {khz : Word} (h : microSetSpeed khz s = .next t) : Quiet s t := by
  obtain ⟨-, h⟩ | ⟨j, -, h⟩ := microSetSpeed_next h
  · rw [calculateTiming] at h
    split_ifs at h <;> cases h <;> exact .of_same rfl rfl rfl rfl rfl
  · rw [writeTiming_eq] at h
    split_ifs at h <;> cases h <;> exact (storeReg_quiet _ _ s).trans (.of_same rfl rfl rfl rfl rfl)

theorem performWord_quiet (w : FmtWord) (s : State) : Quiet s (performWord w s) := by
  cases hw : w.readb
  · obtain ⟨e, drawn⟩ := drawAck_effect s
    rw [performWord_transmit w s hw, drawn]
    exact ⟨rfl, rfl, rfl, id, le_refl _, id⟩
  · obtain ⟨bs, e, -, -, -, effect⟩ := performWord_receive w s hw
    rw [effect]
    refine ⟨rfl, rfl, rfl, id, le_refl _, fun h => ?_⟩
    rw [List.length_append, List.length_take]
    omega

/-- An instruction other than `write`, `read` and `blocking_push` is quiet. -/
theorem exec_quiet (hi : ¬ PushesWords i) (h : exec i s = .next t) : Quiet s t := by
  have request {accept micro : State → Res} (h : operation i accept micro s = .next t)
      (haccept : accept s = acceptance i s) (hmicro : micro s = .next t → Quiet s t) : Quiet s t := by
    obtain ⟨-, h⟩ | ⟨-, -, h⟩ := operation_next _ _ _ _ _ h
    · rw [haccept] at h
      exact acceptance_quiet h
    · exact hmicro h
  cases i
  case resetFifos | setHostMode => exact request h rfl (configure_quiet (by decide))
  case setHostThresholds fmt rx =>
    exact request h rfl fun hmicro => Quiet.trans (t := { s with seq.x10 := thresholdWord s.cfg fmt rx })
      (.of_same rfl rfl rfl rfl rfl) (configure_quiet (by decide) hmicro)
  case setSpeed khz => exact request h rfl microSetSpeed_quiet
  case interruptAsserted | statusTest => exact request h rfl testMicro_quiet
  case clearInterrupt | enableInterrupt | disableInterrupt => exact request h rfl (modifyMicro_quiet (by decide))
  case write a skip len => exact absurd (.inl ⟨a, skip, len, rfl⟩) hi
  case read a len => exact absurd (.inr (.inl ⟨a, len, rfl⟩)) hi
  case blockingPush w => exact absurd (.inr (.inr ⟨w, rfl⟩)) hi
  case unassigned11 | unassigned12 | unassigned13 | unassigned14 | unassigned15 => exact absurd h refuseSelectCode_ne_next
  case addrW | addrR | data | dataStop | rdlen | rdlenStop =>
    cases h
    exact performWord_quiet _ _

/-! ### The engine -/

/-- The word that `write` or `read` pushes at the micro-state of `s`: built from the buffer at `W_DATA_PUSH`, else the one in
`x7`. -/
def PushedWord (s : State) (w : FmtWord) : Prop :=
  (s.seq.pc = .wDataPush ∧ ∃ stop d, w = dataWord stop d) ∨ (s.seq.pc ≠ .wDataPush ∧ w = s.seq.x7)

/-- The state after byte `b` has been stored where `R_DRAIN` stores it. -/
def withStore (b : Byte) (s : State) : State :=
  { s with mem := Memory.write s.mem (bufAddress s (drainIndex s)) b }

/-- A word enters the format FIFO, and the rest of the step is quiet. -/
def PushStep (w : FmtWord) (s t : State) : Prop :=
  s.seq.pc.pushing = true ∧ s.dev.fmtq.length < s.cfg.fmtDepth ∧ Quiet (withPush w s) t

/-- A byte is stored in the caller's buffer, and the rest of the step is quiet. -/
def StoreStep (s t : State) : Prop :=
  s.seq.pc = .rDrain ∧ drainIndex s < s.seq.buf.size ∧ Quiet (withStore (t.seq.x10.setWidth 8) s) t

theorem microWrite_effect (h : microWrite s = .next t) : Quiet s t ∨ ∃ w, PushedWord s w ∧ PushStep w s t := by
  have pushX7 (hpc : s.seq.pc ≠ .wDataPush) {also : State → State} (h : blockingPushStep s.seq.x7 also s = .next t)
      (halso : ∀ u, Quiet u (also u)) : Quiet s t ∨ ∃ w, PushedWord s w ∧ PushStep w s t := by
    obtain h | h := blockingPushStep_effect h halso
    · exact .inl h
    · exact .inr ⟨_, .inr ⟨hpc, rfl⟩, h⟩
  rw [microWrite] at h
  split at h
  next hpc => exact pushX7 (by simp [hpc]) h Quiet.refl
  next hpc => exact pushX7 (by simp [hpc]) h fun _ => .of_same rfl rfl rfl rfl rfl
  next hpc => exact pushX7 (by simp [hpc]) h Quiet.refl
  next hpc =>
    rw [pushData] at h
    split at h
    · cases h
      exact .inl (.of_same rfl rfl rfl rfl rfl)
    · obtain h | h := blockingPushStep_effect h (fun _ => .of_same rfl rfl rfl rfl rfl)
      · exact .inl h
      · exact .inr ⟨_, .inl ⟨hpc, _, _, rfl⟩, h⟩
  · cases h

@[simp] theorem chunkDone_mem (s : State) : (chunkDone s).mem = s.mem := by rw [chunkDone_eq]; split <;> rfl
@[simp] theorem chunkDone_x10 (s : State) : (chunkDone s).seq.x10 = s.seq.x10 := by rw [chunkDone_eq]; split <;> rfl

theorem chunkDone_quiet (s : State) : Quiet s (chunkDone s) := by
  rw [chunkDone_eq]
  split <;> exact .of_same rfl rfl rfl rfl rfl

theorem drained_quiet (s : State) : Quiet (withStore ((regRead .rdata s).seq.x10.setWidth 8) s) (drained s) := by
  obtain ⟨cfg, -, pushes, vis, fmtq, rxq⟩ := regRead_quiet .rdata s
  exact ⟨cfg, rfl, pushes, vis, fmtq, rxq⟩

theorem drain_effect (hpc : s.seq.pc = .rDrain) (h : microRead s = .next t) : Quiet s t ∨ StoreStep s t := by
  by_cases hin : drainIndex s < s.seq.buf.size
  · rw [microRead_drain hpc hin] at h
    split at h
    · cases h
      refine .inr ⟨hpc, hin, ?_⟩
      rw [chunkDone_x10]
      exact (drained_quiet s).trans (chunkDone_quiet _)
    · cases h
      exact .inr ⟨hpc, hin, drained_quiet s⟩
  · rw [microRead_drain_outside hpc hin] at h
    cases h
    exact .inl ((regRead_quiet _ s).trans (.of_same rfl rfl rfl rfl rfl))

theorem microRead_effect (h : microRead s = .next t) :
    Quiet s t ∨ (∃ w, PushedWord s w ∧ PushStep w s t) ∨ StoreStep s t := by
  have read (r : RegName) (h : Quiet (regRead r s) t) : Quiet s t := (regRead_quiet r s).trans h
  by_cases hdrain : s.seq.pc = .rDrain
  · obtain h | h := drain_effect hdrain h
    · exact .inl h
    · exact .inr (.inr h)
  rw [microRead] at h
  split at h
  iterate 4
    next hpc =>
      obtain h | h := blockingPushStep_effect h Quiet.refl
      · exact .inl h
      · exact .inr (.inl ⟨_, .inr ⟨by simp [hpc], rfl⟩, h⟩)
  next addrWait =>
    cases h
    exact .inl (read _ (.of_same rfl rfl rfl rfl rfl))
  next nakTest =>
    rw [Machine.nakTest] at h
    split_ifs at h <;> cases h <;> exact .inl (read _ (.of_same rfl rfl rfl rfl rfl))
  next nakClearRd =>
    cases h
    exact .inl (read _ (.of_same rfl rfl rfl rfl rfl))
  next nakClearWr =>
    refine .inl (withWrite_quiet (by decide) (fun u h => ?_) h)
    cases h
    exact .of_same rfl rfl rfl rfl rfl
  next dataWait =>
    rw [Machine.dataWait] at h
    split_ifs at h <;> cases h <;> exact .inl (read _ (.of_same rfl rfl rfl rfl rfl))
  next drain => exact absurd drain hdrain
  · cases h

/-- Everything that one step of any instruction does besides being quiet. -/
theorem exec_effect (h : exec i s = .next t) :
    Quiet s t ∨ (∃ w, (PushedWord s w ∨ i = .blockingPush w) ∧ PushStep w s t) ∨
      ((∃ a n, i = .read a n) ∧ StoreStep s t) := by
  by_cases hi : PushesWords i
  · obtain ⟨a, skip, len, rfl⟩ | ⟨a, len, rfl⟩ | ⟨w, rfl⟩ := hi
    · obtain ⟨-, h⟩ | ⟨-, -, h⟩ := operation_next _ _ _ _ _ h
      · exact .inl (acceptance_quiet (i := .write a skip len) h)
      · obtain h | ⟨w, hw, h⟩ := microWrite_effect h
        · exact .inl h
        · exact .inr (.inl ⟨w, .inl hw, h⟩)
    · obtain ⟨-, h⟩ | ⟨-, -, h⟩ := operation_next _ _ _ _ _ h
      · exact .inl (acceptance_quiet (i := .read a len) h)
      · obtain h | ⟨w, hw, h⟩ | h := microRead_effect h
        · exact .inl h
        · exact .inr (.inl ⟨w, .inl hw, h⟩)
        · exact .inr (.inr ⟨⟨a, len, rfl⟩, h⟩)
    · obtain h | h := blockingPushStep_effect h Quiet.refl
      · exact .inl h
      · exact .inr (.inl ⟨w, .inr rfl, h⟩)
  · exact .inl (exec_quiet hi h)

end

/-- Settles O50: a step that is no drain keeps the memory, and the drain step writes the one byte. -/
theorem onlyDrainStoresToMemory : Obligations.OnlyDrainStoresToMemory := by
  intro i s t hmem hstep
  refine ⟨fun k hk => ?elsewhere, fun hpc hin hread => ?there⟩
  case elsewhere =>
    obtain quiet | ⟨w, -, -, -, quiet⟩ | ⟨hread, hpc, -, quiet⟩ := exec_effect hstep
    · rw [quiet.mem]
    · rw [quiet.mem]
      rfl
    · rw [quiet.mem]
      exact Memory.read_write_other _ _ _ _ hmem fun hk' => hk ⟨hpc, hread, hk'⟩
  case there =>
    obtain ⟨a, len, rfl⟩ := hread
    obtain ⟨hacc, -⟩ | ⟨-, -, hmicro⟩ := operation_next _ _ _ _ _ hstep
    · rw [hpc] at hacc
      cases hacc
    · rw [microRead_drain hpc hin] at hmicro
      have stored : Memory.read (drained s).mem (bufAddress s (drainIndex s)) = (drained s).seq.x10.setWidth 8 :=
        Memory.read_write_self _ _ _ hmem
      split at hmicro
      · cases hmicro
        change Memory.read (chunkDone (drained s)).mem (bufAddress s (drainIndex s)) = _
        rw [chunkDone_mem, chunkDone_x10, stored]
      · cases hmicro
        exact stored

end Sys2Proof.Machine
end

section
/-!
The device (45_device_environment.md): what the six forms and any other word do, from `performWord_transmit` and
`receiveBytes_eq`; that no step of the device touches the sequencer; and that `Nak`, once set, is only cleared by a write of
`INTR_STATE`, because a word, a flag step and every other instruction keep the bit.
-/
namespace Sys2Proof.Machine

section
variable {s t : State} {w : FmtWord} {words : List FmtWord}

/-! ### The forms (R204 to R207) -/

theorem performWord_addressWord (a : BitVec 7) (rw : Bool) (s : State) :
    performWord (addressWord a rw) s = { (drawAck s).2 with
      dev.regs.intrState := if (drawAck s).1 then s.dev.regs.intrState
        else s.dev.regs.intrState ||| (1#32 <<< s.cfg.flags.nak.toNat)
      log.buslog := s.log.buslog ++ [.start, .tx (a ++ BitVec.ofBool rw) (drawAck s).1] } := by
  obtain ⟨start, stop, readb, nakok, byte, -⟩ := addressWord_flags a rw
  rw [performWord_transmit _ _ readb]
  simp [start, stop, nakok, byte]

theorem performWord_dataWord (d : Byte) (stop : Bool) (s : State) :
    performWord (dataWord stop d) s = { (drawAck s).2 with
      dev.regs.intrState := if (drawAck s).1 then s.dev.regs.intrState
        else s.dev.regs.intrState ||| (1#32 <<< s.cfg.flags.nak.toNat)
      log.buslog := s.log.buslog ++ .tx d (drawAck s).1 :: if stop then [.stop] else [] } := by
  obtain ⟨start, hstop, readb, nakok, byte, -⟩ := dataWord_flags d stop
  rw [performWord_transmit _ _ readb]
  simp [start, hstop, nakok, byte]

theorem performWord_readLengthWord (n : Byte) (last : Bool) (s : State) :
    performWord (readLengthWord last n) s =
      observe (.hostNak :: if last then [.stop] else []) (receiveBytes (if n = 0#8 then 256 else n.toNat) s) := by
  obtain ⟨start, stop, readb, rcont, byte, -⟩ := readLengthWord_flags n last
  have noStart : observe (busCondition false .start) s = s := by simp [observe, busCondition]
  rw [performWord, readb, if_pos rfl, receive, start, stop, rcont, receiveCount, byte, noStart]
  rfl

end

/-- Settles O38: the two kinds of transmit form, by the flags of their words. -/
theorem transmitForms : Obligations.TransmitForms := by
  intro a d s
  exact ⟨congrArg _ (performWord_addressWord a false s), congrArg _ (performWord_addressWord a true s),
    congrArg _ (performWord_dataWord d false s), congrArg _ (performWord_dataWord d true s)⟩

/-- Settles O39: both forms receive the same bytes, and differ in what follows them on the bus. -/
theorem receiveForms : Obligations.ReceiveForms := by
  intro n s
  have count : (if n = 0#8 then 256 else n.toNat) ≠ 0 := by
    split
    · decide
    next hn => exact fun h => hn (BitVec.eq_of_toNat_eq h)
  obtain ⟨bs, e, hlength, hgiven, hsched, hreceive⟩ := receiveBytes_eq (if n = 0#8 then 256 else n.toNat) s
  refine ⟨bs, e, hlength, fun given more hbytes hlen => hgiven given more hbytes (by rw [hlen, hlength]), hsched, ?_, ?_⟩
  · refine congrArg _ ((performWord_readLengthWord n false s).trans ?_)
    rw [hreceive, hlength]
    simp only [observe, count, false_or]
    rfl
  · refine congrArg _ ((performWord_readLengthWord n true s).trans ?_)
    rw [hreceive, hlength]
    simp only [observe, count, false_or]
    rfl

/-! ### Any word (R203, R213, R216) -/

section
variable {s t : State} {w : FmtWord} {words : List FmtWord}

theorem deviceExecStep_noHost (h : s.dev.regs.ctrl ≠ s.cfg.ctrlHostValue) : deviceExecStep s = .next s :=
  if_neg (by simpa [hostMode] using h)

theorem deviceExecStep_noWord (h : s.dev.fmtq = []) : deviceExecStep s = .next s := by
  rw [deviceExecStep, h]
  split <;> rfl

theorem deviceExecStep_performs (hhost : s.dev.regs.ctrl = s.cfg.ctrlHostValue) (hfmtq : s.dev.fmtq = w :: words) :
    deviceExecStep s = .next (performWord w { s with dev.fmtq := words }) := by
  rw [deviceExecStep_word (decide_eq_true hhost) hfmtq, executeWord_eq]

/-- A draw of an answer does not look at the queue. -/
theorem drawAck_withFmtq (q : List FmtWord) (s : State) : (drawAck { s with dev.fmtq := q }).1 = (drawAck s).1 := by
  rcases hacks : s.env.acks with _ | ⟨v, rest⟩
  · simp only [drawAck, hacks]
  · simp only [drawAck, hacks]

end

/-- Settles O40: the device's step performs the head of the queue, and what that does is said for every word. -/
theorem deviceExecutesAnyWord : Obligations.DeviceExecutesAnyWord := by
  intro w rest s
  refine ⟨deviceExecStep_noHost, deviceExecStep_noWord, fun hhost hfmtq hreadb => ?transmit,
    fun hhost hfmtq hreadb => ?receive⟩
  case transmit =>
    obtain ⟨e, drawn⟩ := drawAck_effect { s with dev.fmtq := rest }
    refine ⟨e, ?_⟩
    rw [deviceExecStep_performs hhost hfmtq, performWord_transmit _ _ hreadb, drawn, drawAck_withFmtq]
    rfl
  case receive =>
    obtain ⟨bs, e, hlength, -, -, effect⟩ := performWord_receive w { s with dev.fmtq := rest } hreadb
    refine ⟨bs, e, hlength, ?_⟩
    rw [deviceExecStep_performs hhost hfmtq, effect]
    rfl

/-! ### The device and the sequencer (R200) -/

section
variable {s t : State} {w : FmtWord} {u : Turn}

/-- What the device leaves alone. -/
structure SparesSequencer (s t : State) : Prop where
  seq : t.seq = s.seq
  mem : t.mem = s.mem
  port : t.port = s.port
  cfg : t.cfg = s.cfg

theorem performWord_sparesSequencer (w : FmtWord) (s : State) : SparesSequencer s (performWord w s) := by
  cases hw : w.readb
  · obtain ⟨e, drawn⟩ := drawAck_effect s
    rw [performWord_transmit w s hw, drawn]
    exact ⟨rfl, rfl, rfl, rfl⟩
  · obtain ⟨bs, e, -, -, -, effect⟩ := performWord_receive w s hw
    rw [effect]
    exact ⟨rfl, rfl, rfl, rfl⟩

theorem deviceExecStep_sparesSequencer (h : deviceExecStep s = .next t) : SparesSequencer s t := by
  obtain rfl | ⟨w, rest, -, -, rfl⟩ := deviceExecStep_next s t h
  · exact ⟨rfl, rfl, rfl, rfl⟩
  · obtain ⟨seq, mem, port, cfg⟩ := performWord_sparesSequencer w { s with dev.fmtq := rest }
    exact ⟨seq, mem, port, cfg⟩

theorem deviceWordStep_sparesSequencer (r : RegName) (v : Word) (s : State) : SparesSequencer s (deviceWordStep r v s) := by
  rw [deviceWordStep]
  split <;> exact ⟨rfl, rfl, rfl, rfl⟩

/-- The turns of the device. -/
def Turn.ofDevice (u : Turn) : Prop := u ≠ .seq ∧ u ≠ .present ∧ u ≠ .reset

theorem agentStep_sparesSequencer (hu : u.ofDevice) (h : agentStep u s = .next t) : SparesSequencer s t := by
  obtain ⟨hseq, hpresent, hreset⟩ := hu
  cases u with
  | seq => exact absurd rfl hseq
  | present => exact absurd rfl hpresent
  | reset => exact absurd rfl hreset
  | devExec => exact deviceExecStep_sparesSequencer h
  | devFlag v =>
    cases h
    exact ⟨rfl, rfl, rfl, rfl⟩
  | devWord r v =>
    cases h
    exact deviceWordStep_sparesSequencer r v s

end

/-- Settles O43: a turn of the device is not taken in `Faulted`, and elsewhere its agent spares the sequencer. -/
theorem deviceSparesSequencer : Obligations.DeviceSparesSequencer := by
  rintro s t hstep ⟨u, rest, hsched, hu⟩
  have turn := nextTurn_cons hsched
  obtain ⟨hreset, -⟩ | ⟨-, v, rfl, ⟨-, hagent⟩ | ⟨-, hpresent, -⟩⟩ := step_next s t hstep
  · rw [turn] at hreset
    exact absurd hreset hu.2.2
  · rw [turn] at hagent
    obtain ⟨seq, mem, port, cfg⟩ := agentStep_sparesSequencer hu hagent
    exact ⟨by simpa using seq, by simpa using mem, by simpa using port, by simpa using cfg⟩
  · rw [turn] at hpresent
    exact absurd hpresent hu.2.1

/-! ### `Nak` is sticky (R211) -/

section
variable {s t : State} {i : Instr} {u : Turn}

/-- A step that keeps a set `Nak`. -/
def KeepsNak (s t : State) : Prop :=
  s.dev.regs.intrState.getLsbD s.cfg.flags.nak.toNat = true → t.dev.regs.intrState.getLsbD s.cfg.flags.nak.toNat = true

theorem KeepsNak.of_same (intrState : t.dev.regs.intrState = s.dev.regs.intrState) : KeepsNak s t := by
  intro h
  rw [intrState, h]

/-- Flags can be added. -/
theorem KeepsNak.of_or {m : Word} {p : Prop} [Decidable p]
    (intrState : t.dev.regs.intrState = if p then s.dev.regs.intrState else s.dev.regs.intrState ||| m) : KeepsNak s t := by
  intro h
  rw [intrState]
  split
  · exact h
  · rw [BitVec.getLsbD_or, h, Bool.true_or]

theorem performWord_keepsNak (w : FmtWord) (s : State) : KeepsNak s (performWord w s) := by
  cases hw : w.readb
  · obtain ⟨e, drawn⟩ := drawAck_effect s
    rw [performWord_transmit w s hw, drawn]
    exact .of_or rfl
  · obtain ⟨bs, e, -, -, -, effect⟩ := performWord_receive w s hw
    rw [effect]
    exact .of_or rfl

theorem blockingPushStep_regs {w : FmtWord} (h : blockingPushStep w id s = .next t) : t.dev.regs = s.dev.regs := by
  obtain ⟨next, v, e, j, -, -, -, rfl⟩ | ⟨-, -, rfl⟩ | ⟨-, -, rfl⟩ := blockingPushStep_next w id s t h
  · rfl
  · rw [id, returnTo_dev]
  · rfl

theorem chunkDone_dev (s : State) : (chunkDone s).dev = s.dev := by rw [chunkDone_eq]; split <;> rfl

theorem drained_regs (s : State) : (drained s).dev.regs = s.dev.regs := regRead_regs .rdata s

/-- Of the micro-states of `read` only `R_NAK_CLEAR_WR` writes a register. -/
theorem microRead_regs (hpc : s.seq.pc ≠ .rNakClearWr) (h : microRead s = .next t) : t.dev.regs = s.dev.regs := by
  by_cases hdrain : s.seq.pc = .rDrain
  · by_cases hin : drainIndex s < s.seq.buf.size
    · rw [microRead_drain hdrain hin] at h
      cases h
      split
      · rw [chunkDone_dev, drained_regs]
      · exact drained_regs s
    · rw [microRead_drain_outside hdrain hin] at h
      cases h
      exact regRead_regs .rdata s
  rw [microRead] at h
  split at h
  iterate 4 exact blockingPushStep_regs h
  next addrWait => cases h; exact regRead_regs .status s
  next nakTest =>
    rw [Machine.nakTest] at h
    split_ifs at h <;> cases h <;> exact regRead_regs .intrState s
  next nakClearRd => cases h; exact regRead_regs .intrState s
  next nakClearWr => exact absurd nakClearWr hpc
  next dataWait =>
    rw [Machine.dataWait] at h
    split_ifs at h <;> cases h <;> exact regRead_regs .status s
  next drain => exact absurd drain hdrain
  · cases h

/-- An instruction clears `Nak` only in the two writes of `INTR_STATE`. -/
theorem exec_keepsNak (hread : s.seq.pc ≠ .rNakClearWr)
    (hclear : s.seq.pc = .accWr → ∀ sel, s.seq.cur ≠ some (.clearInterrupt sel)) (h : exec i s = .next t) :
    KeepsNak s t := by
  have unlisted (hi : .intrState ∉ writtenRegs i) : KeepsNak s t :=
    .of_same (Option.some.inj ((exec_stepEffect h).dev.get_regs (r := .intrState) hi))
  cases i
  case read a len =>
    obtain ⟨-, h⟩ | ⟨-, -, h⟩ := operation_next _ _ _ _ _ h
    · rw [acceptRead] at h
      split_ifs at h <;> cases h <;> exact .of_same rfl
    · exact .of_same (congrArg RegFile.intrState (microRead_regs hread h))
  case clearInterrupt sel =>
    obtain ⟨-, h⟩ | ⟨-, hcur, h⟩ := operation_next _ _ _ _ _ h
    · obtain rfl := acceptAccess_next h
      exact .of_same rfl
    · rw [modifyMicro] at h
      split at h
      next accRd => cases h; exact .of_same (congrArg RegFile.intrState (regRead_regs .intrState s))
      next accWr => exact absurd hcur (hclear accWr sel)
      · cases h
  case addrW | addrR | data | dataStop | rdlen | rdlenStop =>
    cases h
    exact performWord_keepsNak _ _
  all_goals exact unlisted (by simp [writtenRegs])

theorem presentStep_keepsNak (h : presentStep s = .next t) : KeepsNak s t := by
  obtain ⟨-, rfl⟩ | ⟨q, rest, -, hacc, h⟩ | ⟨q, rest, r, -, rfl⟩ := presentStep_next s t h
  · exact .of_same rfl
  · refine exec_keepsNak (s := { s with port := rest, seq.buf := q.buf }) ?_ ?_ h
    · intro hpc
      rw [hpc] at hacc
      cases hacc
    · intro hpc
      rw [hpc] at hacc
      cases hacc
  · exact .of_same rfl

theorem deviceExecStep_keepsNak (h : deviceExecStep s = .next t) : KeepsNak s t := by
  obtain rfl | ⟨w, rest, -, -, rfl⟩ := deviceExecStep_next s t h
  · exact .of_same rfl
  · exact performWord_keepsNak w { s with dev.fmtq := rest }

/-- A flag step keeps the bit of `Nak` (R210). -/
theorem deviceFlagStep_keepsNak (v : Word) (s : State) : KeepsNak s (deviceFlagStep v s) := by
  intro h
  rw [← h]
  exact (getLsbD_deviceFlagStep (Nat.lt_of_lt_of_le s.cfg.flags.nak.isLt (by decide))).trans (if_pos rfl)

theorem deviceWordStep_keepsNak (r : RegName) (v : Word) (s : State) : KeepsNak s (deviceWordStep r v s) := by
  rw [deviceWordStep]
  split
  next hunused =>
    have other : .intrState ≠ r := by
      rintro rfl
      cases hunused
    exact .of_same (Option.some.inj (RegFile.get_set_other s.dev.regs r .intrState v other))
  · exact .of_same rfl

theorem agentStep_keepsNak (hu : u ≠ .reset) (hread : s.seq.pc ≠ .rNakClearWr)
    (hclear : s.seq.pc = .accWr → ∀ sel, s.seq.cur ≠ some (.clearInterrupt sel)) (h : agentStep u s = .next t) :
    KeepsNak s t := by
  obtain ⟨hreset, -⟩ | ⟨-, h⟩ | ⟨-, -, ⟨i, -, h⟩ | ⟨-, h⟩⟩ | ⟨-, h⟩ | ⟨v, -, rfl⟩ | ⟨r, v, -, rfl⟩ :=
    agentStep_next s t u h
  · exact absurd hreset hu
  · exact presentStep_keepsNak h
  · exact exec_keepsNak hread hclear h
  · exact exec_keepsNak hread hclear h
  · exact deviceExecStep_keepsNak h
  · exact deviceFlagStep_keepsNak v s
  · exact deviceWordStep_keepsNak r v s

end

/-- Settles O42: every agent's step keeps the bit, and recording the step does not touch it. -/
theorem nakIsSticky : Obligations.NakIsSticky := by
  intro s t hstep hsched hread hclear hnak
  obtain ⟨hreset, -⟩ | ⟨v, e, u, hv, -, hagent, rfl⟩ := step_cases hstep
  · exact absurd hreset hsched
  · rw [remember_dev]
    exact agentStep_keepsNak (s := { s with env := e }) hv hread hclear hagent hnak

end Sys2Proof.Machine
end

section
/-!
The invariant (Safety.lean). It has two parts. `MachineInv` is about everything but the sequencer, and a quiet step keeps it, as
do the push of an emitted word into a FIFO with room and the store of a byte. `OperationInv` is about the operation in progress:
from each micro-state the equation of its step shows that there is a next state, that it meets `OperationInv`, and that under
`exact` it is not the fault of a full FIFO. The three statements about a step are read off from that.
-/
namespace Sys2Proof.Machine

/-! ### The two parts -/

/-- The invariant of everything but the sequencer. -/
structure MachineInv (s : State) : Prop where
  params : s.cfg.wf = true
  memory : Memory.wf s.mem = true
  fmtqFits : s.dev.fmtq.length ≤ s.cfg.fmtDepth
  rxqFits : s.dev.rxq.length ≤ s.cfg.rxDepth
  visible : s.view.vis ≤ s.view.hist.length
  pushes : ∀ w ∈ s.log.pushes, emitted s.cfg w = true

/-- The invariant of the operation in progress. -/
structure OperationInv (s : State) : Prop where
  operation : operationState s.cfg s.seq
  room : s.cfg.visibility = .exact → s.seq.pc.pushing = true → s.dev.fmtq.length < s.cfg.fmtDepth

section
variable {s t : State} {w : FmtWord} {i : Instr}

theorem State.Inv.machine (h : State.Inv s) : MachineInv s :=
  ⟨h.params, h.memory, h.fmtqFits, h.rxqFits, h.visible, h.pushes⟩

theorem State.Inv.of_parts (h : MachineInv s) (h' : OperationInv s) : State.Inv s :=
  ⟨h.params, h.memory, h.fmtqFits, h.rxqFits, h.visible, h'.operation, h'.room, h.pushes⟩

theorem MachineInv.quiet (h : MachineInv s) (q : Quiet s t) : MachineInv t where
  params := by rw [q.cfg]; exact h.params
  memory := by rw [q.mem]; exact h.memory
  fmtqFits := by rw [q.cfg]; exact q.fmtq.trans h.fmtqFits
  rxqFits := by rw [q.cfg]; exact q.rxq h.rxqFits
  visible := q.vis h.visible
  pushes := by rw [q.cfg, q.pushes]; exact h.pushes

/-- R142, R163: an emitted word enters a FIFO with room. -/
theorem MachineInv.push (h : MachineInv s) (hroom : s.dev.fmtq.length < s.cfg.fmtDepth) (hw : emitted s.cfg w = true) :
    MachineInv (withPush w s) where
  params := h.params
  memory := h.memory
  fmtqFits := by
    rw [withPush, List.length_append]
    exact hroom
  rxqFits := h.rxqFits
  visible := h.visible
  pushes v hv := by
    obtain hv | hv := List.mem_append.mp hv
    · exact h.pushes v hv
    · obtain rfl := List.mem_singleton.mp hv
      exact hw

theorem MachineInv.store (h : MachineInv s) (b : Byte) : MachineInv (withStore b s) :=
  ⟨h.params, Memory.wf_write _ _ _ h.memory, h.fmtqFits, h.rxqFits, h.visible, h.pushes⟩

/-- A step that leaves the sequencer alone and lets the format FIFO only shrink. -/
theorem OperationInv.quiet (h : OperationInv s) (q : Quiet s t) (hseq : t.seq = s.seq) : OperationInv t where
  operation := by rw [q.cfg, hseq]; exact h.operation
  room hvis hpushing := by
    rw [q.cfg] at hvis ⊢
    rw [hseq] at hpushing
    exact q.fmtq.trans_lt (h.room hvis hpushing)

/-! ### Emitted words (R95, R96) -/

theorem emitted_addressWord (c : Params) (a : BitVec 7) (rw : Bool) : emitted c (addressWord a rw) = true := by
  rw [emitted, decodeFormat_addressWord]
  cases rw <;> rfl

theorem emitted_dataWord (c : Params) (stop : Bool) (d : Byte) : emitted c (dataWord stop d) = true := by
  rw [emitted, decodeFormat_dataWord]
  cases stop <;> rfl

/-- A chunk that is not the last has 255 bytes, and the last has some. -/
theorem emitted_chunk (c : Params) {r : Word} (hr : r ≠ 0#32) :
    emitted c (readLengthWord (chunkIsLast r) (chunkSize r)) = true := by
  have count := toNat_chunkSize (r := r)
  have pos := toNat_ne_zero hr
  rw [emitted, decodeFormat_readLengthWord]
  cases hlast : chunkIsLast r
  · have more := chunkIsLast_eq_false_iff.mp hlast
    exact decide_eq_true (BitVec.eq_of_toNat_eq (by rw [count]; change _ = 255; omega))
  · refine decide_eq_true fun hzero => ?_
    rw [hzero] at count
    change 0 = _ at count
    omega

/-! ### Micro-states (R40) -/

theorem WriteState.congr {q r : Sequencer} (h : WriteState q) (cur : r.cur = q.cur) (x0 : r.x0 = q.x0) (x1 : r.x1 = q.x1)
    (x2 : r.x2 = q.x2) : WriteState r :=
  ⟨by rw [cur, x0, x1, x2]; exact h.operands, by rw [x1]; exact h.nonzero⟩

theorem ReadState.congr {q r : Sequencer} (h : ReadState q) (cur : r.cur = q.cur) (x0 : r.x0 = q.x0) (x1 : r.x1 = q.x1)
    (x3 : r.x3 = q.x3) (x4 : r.x4 = q.x4) : ReadState r :=
  ⟨by rw [cur, x0, x1]; exact h.operands, by rw [x1, x3, x4]; exact h.counters, by rw [x4]; exact h.remains⟩

theorem ChunkState.congr {q r : Sequencer} (h : ChunkState q) (cur : r.cur = q.cur) (x0 : r.x0 = q.x0) (x1 : r.x1 = q.x1)
    (x3 : r.x3 = q.x3) (x4 : r.x4 = q.x4) (x5 : r.x5 = q.x5) (x6 : r.x6 = q.x6) : ChunkState r :=
  ⟨h.toReadState.congr cur x0 x1 x3 x4, by rw [x4, x5]; exact h.chunk, by rw [x4, x6]; exact h.last⟩

/-- What the FIFO contributes to the invariant of the operation: it fits, and a push that is ahead under `exact` has room. -/
structure RoomInv (s : State) : Prop where
  fits : s.dev.fmtq.length ≤ s.cfg.fmtDepth
  room : s.cfg.visibility = .exact → s.seq.pc.pushing = true → s.dev.fmtq.length < s.cfg.fmtDepth

theorem State.Inv.roomInv (h : State.Inv s) : RoomInv s := ⟨h.fmtqFits, h.room⟩

/-- A step from `s` to `t` of the operation in progress: the micro-state that it leads to, and what it keeps where `s` has its room:
that a push that is ahead has room, and that under `exact` no full FIFO has been met. -/
structure OperationKept (s t : State) : Prop where
  operation : operationState t.cfg t.seq
  room : RoomInv s → t.cfg.visibility = .exact → t.seq.pc.pushing = true → t.dev.fmtq.length < t.cfg.fmtDepth
  noFault : RoomInv s → t.cfg.visibility = .exact → t.seq.pc ≠ .faulted .pushWhenFull

theorem OperationKept.operationInv (h : OperationKept s t) (hs : RoomInv s) : OperationInv t := ⟨h.operation, h.room hs⟩

theorem operationKept_completed (s t : State) : OperationKept s (completed t) := ⟨rfl, nofun, nofun⟩

theorem operationKept_completedWith (r : Bool) (s t : State) : OperationKept s (completedWith r t) := ⟨rfl, nofun, nofun⟩

theorem operationKept_nakAborted (s t : State) : OperationKept s (nakAborted t) := ⟨rfl, nofun, nofun⟩

theorem operationKept_faulted {f : Fault} (hf : f = .pushWhenFull → RoomInv s → t.cfg.visibility ≠ .exact) :
    OperationKept s (faulted f t) :=
  ⟨rfl, nofun, fun hs hvis hpc => hf (Pc.faulted.inj hpc) hs hvis⟩

/-- A push that meets a full FIFO has not been polled for under `exact`. -/
theorem operationKept_full (hpush : s.seq.pc.pushing = true) (hfull : ¬ s.dev.fmtq.length < s.cfg.fmtDepth)
    (hcfg : t.cfg = s.cfg) : OperationKept s (faulted .pushWhenFull t) :=
  operationKept_faulted fun _ hs hvis => hfull (hs.room (by rw [← hcfg]; exact hvis) hpush)

/-- A micro-state at which no word is pushed. -/
theorem OperationKept.of_state (hop : operationState t.cfg t.seq) (hpc : t.seq.pc.pushing = false)
    (hfault : ∀ f, t.seq.pc ≠ .faulted f) : OperationKept s t :=
  ⟨hop, fun _ _ hpushing => absurd (hpc.symm.trans hpushing) (by decide), fun _ _ => hfault _⟩

/-- Both ends of a poll; where it goes on under `exact`, it has seen room (R142). -/
theorem pollFull_kept {stay next : Pc}
    (hop : ∀ p v, p = stay ∨ p = next → operationState s.cfg { s.seq with pc := p, x10 := v })
    (hstay : stay.pushing = false) (hfault : ∀ p f, p = stay ∨ p = next → p ≠ .faulted f) :
    ∃ t, pollFull stay next s = .next t ∧ OperationKept s t := by
  refine ⟨_, pollFull_eq stay next s, ?_⟩
  have seen := poll_full_exact s
  generalize hbit : (regRead .status s).seq.x10.getLsbD 0 = full at seen ⊢
  have target : (if full then stay else next) = stay ∨ (if full then stay else next) = next := ite_eq_or_eq _ _ _
  refine ⟨?operation, fun hs hvis hpushing => ?room, fun _ _ => hfault _ _ target⟩
  case operation =>
    rw [withPc_cfg, regRead_cfg, withPc_seq, regRead_seq]
    exact hop _ _ target
  case room =>
    rw [withPc_cfg, regRead_cfg] at hvis ⊢
    rw [withPc_dev, regRead_fmtq]
    rw [withPc_seq] at hpushing
    cases full
    · have notFull := seen hvis
      rw [statusBit, statusFmtFull, hbit] at notFull
      have := of_decide_eq_false notFull.symm
      have := hs.fits
      omega
    · exact absurd (hstay.symm.trans hpushing) (by decide)

/-- The micro-states of `write` (R146). -/
def Pc.OfWrite (p : Pc) : Prop := p = .wStartPoll ∨ p = .wStartPush ∨ p = .wDataPoll ∨ p = .wDataPush

/-- The micro-states of `read` (R154). -/
def Pc.OfRead (p : Pc) : Prop :=
  p = .rStartPoll ∨ p = .rStartPush ∨ p = .rAddrWait ∨ p = .rNakTest ∨ p = .rNakClearRd ∨ p = .rNakClearWr ∨
    p = .rLenPoll ∨ p = .rLenPush ∨ p = .rDataWait ∨ p = .rDrain

/-- Which operation is in progress. -/
theorem operationState_cases {c : Params} {q : Sequencer} (op : operationState c q) (hacc : q.pc.accepting = false)
    (hfault : ∀ f, q.pc ≠ .faulted f) :
    (q.pc.OfWrite ∧ WriteState q) ∨ (q.pc.OfRead ∧ ReadState q) ∨
      q.pc = .accRd ∨ q.pc = .accWr ∨ q.pc = .cfWr ∨ q.pc = .tsCalc ∨ ∃ j, q.pc = .tsWr j := by
  cases hpc : q.pc <;> simp only [operationState, hpc] at op
  case idle | complete | nakAborted => rw [hpc] at hacc; cases hacc
  case faulted f => exact absurd hpc (hfault f)
  case wStartPoll | wStartPush | wDataPoll | wDataPush => exact .inl ⟨by simp [Pc.OfWrite], op.1⟩
  case rStartPoll | rStartPush => exact .inr (.inl ⟨by simp [Pc.OfRead], op.1⟩)
  case rAddrWait | rNakTest | rNakClearRd | rNakClearWr => exact .inr (.inl ⟨by simp [Pc.OfRead], op⟩)
  case rLenPoll | rLenPush | rDrain => exact .inr (.inl ⟨by simp [Pc.OfRead], op.1.toReadState⟩)
  case rDataWait => exact .inr (.inl ⟨by simp [Pc.OfRead], op.toReadState⟩)
  all_goals simp

/-! ### `write` (R146) -/

theorem write_startPoll_kept (op : operationState s.cfg s.seq) (hpc : s.seq.pc = .wStartPoll) :
    ∃ t, microWrite s = .next t ∧ OperationKept s t := by
  simp only [operationState, hpc] at op
  obtain ⟨state, word⟩ := op
  rw [microWrite_startPoll hpc]
  refine pollFull_kept (fun p v hp => ?_) rfl (by rintro _ _ (rfl | rfl) <;> exact nofun)
  obtain rfl | rfl := hp <;> exact ⟨state.congr rfl rfl rfl rfl, word⟩

theorem write_dataPoll_kept (op : operationState s.cfg s.seq) (hpc : s.seq.pc = .wDataPoll) :
    ∃ t, microWrite s = .next t ∧ OperationKept s t := by
  simp only [operationState, hpc] at op
  obtain ⟨state, index⟩ := op
  rw [microWrite_dataPoll hpc]
  refine pollFull_kept (fun p v hp => ?_) rfl (by rintro _ _ (rfl | rfl) <;> exact nofun)
  obtain rfl | rfl := hp <;> exact ⟨state.congr rfl rfl rfl rfl, index⟩

/-- The address push goes on to the first data word, which there is (R146). -/
theorem write_startPush_kept (op : operationState s.cfg s.seq) (hpc : s.seq.pc = .wStartPush) :
    ∃ t, microWrite s = .next t ∧ OperationKept s t := by
  simp only [operationState, hpc] at op
  obtain ⟨state, -⟩ := op
  by_cases hroom : s.dev.fmtq.length < s.cfg.fmtDepth
  · refine ⟨_, microWrite_startPush hpc hroom, .of_state ⟨state.congr rfl rfl rfl rfl, ?_⟩ rfl nofun⟩
    exact Nat.pos_of_ne_zero (toNat_ne_zero state.nonzero)
  · refine ⟨_, microWrite_startPush_full hpc hroom, operationKept_full (by rw [hpc]; rfl) hroom rfl⟩

/-- The index after a data word that is not the last. -/
theorem toNat_succ_lt {k n : Word} (hk : k.toNat < n.toNat) (hlast : k ≠ n - 1#32) : (k + 1#32).toNat < n.toNat := by
  have : k.toNat ≠ n.toNat - 1 := fun h => hlast (by bv_omega)
  bv_omega

theorem write_dataPush_kept (op : operationState s.cfg s.seq) (hpc : s.seq.pc = .wDataPush) :
    ∃ t, microWrite s = .next t ∧ OperationKept s t := by
  simp only [operationState, hpc] at op
  obtain ⟨state, index⟩ := op
  by_cases hin : s.seq.x3.toNat < s.seq.buf.size
  · by_cases hroom : s.dev.fmtq.length < s.cfg.fmtDepth
    · refine ⟨_, microWrite_dataPush_room hpc hin hroom, ?_⟩
      split
      · exact operationKept_completed _ _
      next hlast =>
        have more : s.seq.x3 ≠ s.seq.x1 - 1#32 := fun hlast' => hlast (decide_eq_true hlast')
        exact .of_state ⟨state.congr rfl rfl rfl rfl, toNat_succ_lt index more⟩ rfl nofun
    · refine ⟨_, microWrite_dataPush_full hpc hin hroom, operationKept_full (by rw [hpc]; rfl) hroom rfl⟩
  · exact ⟨_, microWrite_dataPush_outside hpc hin, operationKept_faulted nofun⟩

theorem microWrite_kept (op : operationState s.cfg s.seq) (hpc : s.seq.pc.OfWrite) :
    ∃ t, microWrite s = .next t ∧ OperationKept s t := by
  obtain hpc | hpc | hpc | hpc := hpc
  · exact write_startPoll_kept op hpc
  · exact write_startPush_kept op hpc
  · exact write_dataPoll_kept op hpc
  · exact write_dataPush_kept op hpc

/-! ### `read` (R154) -/

theorem read_startPoll_kept (op : operationState s.cfg s.seq) (hpc : s.seq.pc = .rStartPoll) :
    ∃ t, microRead s = .next t ∧ OperationKept s t := by
  simp only [operationState, hpc] at op
  obtain ⟨state, word⟩ := op
  rw [microRead_startPoll hpc]
  refine pollFull_kept (fun p v hp => ?_) rfl (by rintro _ _ (rfl | rfl) <;> exact nofun)
  obtain rfl | rfl := hp <;> exact ⟨state.congr rfl rfl rfl rfl rfl, word⟩

theorem read_lenPoll_kept (op : operationState s.cfg s.seq) (hpc : s.seq.pc = .rLenPoll) :
    ∃ t, microRead s = .next t ∧ OperationKept s t := by
  simp only [operationState, hpc] at op
  obtain ⟨state, word⟩ := op
  rw [microRead_lenPoll hpc]
  refine pollFull_kept (fun p v hp => ?_) rfl (by rintro _ _ (rfl | rfl) <;> exact nofun)
  obtain rfl | rfl := hp <;> exact ⟨state.congr rfl rfl rfl rfl rfl rfl rfl, word⟩

theorem read_startPush_kept (op : operationState s.cfg s.seq) (hpc : s.seq.pc = .rStartPush) :
    ∃ t, microRead s = .next t ∧ OperationKept s t := by
  simp only [operationState, hpc] at op
  obtain ⟨state, -⟩ := op
  by_cases hroom : s.dev.fmtq.length < s.cfg.fmtDepth
  · exact ⟨_, microRead_startPush hpc hroom, .of_state (state.congr rfl rfl rfl rfl rfl) rfl nofun⟩
  · refine ⟨_, microRead_push_full (.inl hpc) hroom, operationKept_full (by rw [hpc]; rfl) hroom rfl⟩

theorem read_lenPush_kept (op : operationState s.cfg s.seq) (hpc : s.seq.pc = .rLenPush) :
    ∃ t, microRead s = .next t ∧ OperationKept s t := by
  simp only [operationState, hpc] at op
  obtain ⟨state, -⟩ := op
  by_cases hroom : s.dev.fmtq.length < s.cfg.fmtDepth
  · exact ⟨_, microRead_lenPush hpc hroom, .of_state (state.congr rfl rfl rfl rfl rfl rfl rfl) rfl nofun⟩
  · refine ⟨_, microRead_push_full (.inr hpc) hroom, operationKept_full (by rw [hpc]; rfl) hroom rfl⟩

/-- A register read keeps the counters of `read`. -/
theorem ReadState.regRead {r : RegName} (h : ReadState s.seq) : ReadState (regRead r s).seq := by
  rw [regRead_seq]
  exact h.congr rfl rfl rfl rfl rfl

theorem ChunkState.regRead {r : RegName} (h : ChunkState s.seq) : ChunkState (Machine.regRead r s).seq := by
  rw [regRead_seq]
  exact h.congr rfl rfl rfl rfl rfl rfl rfl

theorem read_addrWait_kept (op : operationState s.cfg s.seq) (hpc : s.seq.pc = .rAddrWait) :
    ∃ t, microRead s = .next t ∧ OperationKept s t := by
  have state := op
  simp only [operationState, hpc] at state
  refine ⟨_, microRead_addrWait hpc, ?_⟩
  split <;> exact .of_state (state.regRead.congr rfl rfl rfl rfl rfl) rfl nofun

theorem read_nakTest_kept (op : operationState s.cfg s.seq) (hpc : s.seq.pc = .rNakTest) :
    ∃ t, microRead s = .next t ∧ OperationKept s t := by
  have state := op
  simp only [operationState, hpc] at state
  refine ⟨_, microRead_nakTest hpc, ?_⟩
  split
  · exact .of_state (state.regRead.congr rfl rfl rfl rfl rfl) rfl nofun
  · exact .of_state ⟨⟨state.regRead.congr rfl rfl rfl rfl rfl, rfl, rfl⟩, rfl⟩ rfl nofun

theorem read_nakClearRd_kept (op : operationState s.cfg s.seq) (hpc : s.seq.pc = .rNakClearRd) :
    ∃ t, microRead s = .next t ∧ OperationKept s t := by
  have state := op
  simp only [operationState, hpc] at state
  exact ⟨_, microRead_nakClearRd hpc, .of_state (state.regRead.congr rfl rfl rfl rfl rfl) rfl nofun⟩

theorem read_dataWait_kept (op : operationState s.cfg s.seq) (hpc : s.seq.pc = .rDataWait) :
    ∃ t, microRead s = .next t ∧ OperationKept s t := by
  have state := op
  simp only [operationState, hpc] at state
  refine ⟨_, microRead_dataWait hpc, ?_⟩
  have pc : (regRead .status s).seq.pc = .rDataWait := by rw [regRead_pc, hpc]
  split
  · refine .of_state ⟨state.regRead.congr rfl rfl rfl rfl rfl rfl rfl, ?_⟩ rfl nofun
    have pos := toNat_ne_zero state.remains
    have count := toNat_chunkSize (r := s.seq.x4)
    rw [← state.chunk] at count
    simp only [regRead_x5]
    change 0 < _
    omega
  · refine .of_state ?_ (by rw [pc]; rfl) (by rw [pc]; exact nofun)
    simp only [operationState, pc]
    exact state.regRead

/-- The counters after a full chunk (R148). -/
theorem ChunkState.counted {q : Sequencer} (h : ChunkState q) (hmore : q.x6 = false) :
    (q.x3 + q.x5.setWidth 32).toNat = q.x3.toNat + 255 ∧ (q.x4 - q.x5.setWidth 32).toNat = q.x4.toNat - 255 ∧
      255 < q.x4.toNat := by
  have more := chunkIsLast_eq_false_iff.mp (h.last.symm.trans hmore)
  have count := toNat_chunkSize (r := q.x4)
  rw [← h.chunk] at count
  have counters := h.counters
  have bound := q.x1.isLt
  have width : (q.x5.setWidth 32).toNat = 255 := by
    rw [BitVec.toNat_setWidth, count]
    omega
  refine ⟨?_, ?_, more⟩
  · rw [BitVec.toNat_add, width]
    omega
  · rw [BitVec.toNat_sub_of_le (by rw [BitVec.le_def, width]; omega), width]

theorem read_drain_kept (op : operationState s.cfg s.seq) (hpc : s.seq.pc = .rDrain) :
    ∃ t, microRead s = .next t ∧ OperationKept s t := by
  simp only [operationState, hpc] at op
  obtain ⟨state, index⟩ := op
  have drainedState : ChunkState (drained s).seq := state.regRead.congr rfl rfl rfl rfl rfl rfl rfl
  by_cases hin : drainIndex s < s.seq.buf.size
  · refine ⟨_, microRead_drain hpc hin, ?_⟩
    split
    next hend =>
      rw [chunkDone_eq]
      split
      · exact operationKept_completedWith true _ _
      next hmore =>
        have hmore : (drained s).seq.x6 = false := by simpa using hmore
        obtain ⟨sum, rest, some⟩ := drainedState.counted hmore
        refine .of_state ⟨⟨drainedState.operands, ?_, ?_⟩, rfl⟩ rfl nofun
        · change ((drained s).seq.x3 + (drained s).seq.x5.setWidth 32).toNat +
            ((drained s).seq.x4 - (drained s).seq.x5.setWidth 32).toNat = (drained s).seq.x1.toNat
          have counters := drainedState.counters
          rw [sum, rest]
          omega
        · intro hzero
          have none : ((drained s).seq.x4 - (drained s).seq.x5.setWidth 32).toNat = 0 := congrArg BitVec.toNat hzero
          rw [rest] at none
          omega
    next hmore =>
      have pc : (drained s).seq.pc = .rDrain := by rw [drained, regRead_pc, hpc]
      refine .of_state ?_ (by rw [pc]; rfl) (by rw [pc]; exact nofun)
      simp only [operationState, pc]
      refine ⟨drainedState, ?_⟩
      rw [drained_x5, drained_x8]
      have : s.seq.x8.toNat + 1 ≠ s.seq.x5.toNat := fun h => hmore (by bv_omega)
      bv_omega
  · exact ⟨_, microRead_drain_outside hpc hin, operationKept_faulted nofun⟩

theorem microRead_kept (op : operationState s.cfg s.seq) (hpc : s.seq.pc.OfRead) :
    ∃ t, microRead s = .next t ∧ OperationKept s t := by
  obtain hpc | hpc | hpc | hpc | hpc | hpc | hpc | hpc | hpc | hpc := hpc
  · exact read_startPoll_kept op hpc
  · exact read_startPush_kept op hpc
  · exact read_addrWait_kept op hpc
  · exact read_nakTest_kept op hpc
  · exact read_nakClearRd_kept op hpc
  · exact ⟨_, microRead_nakClearWr hpc, operationKept_nakAborted _ _⟩
  · exact read_lenPoll_kept op hpc
  · exact read_lenPush_kept op hpc
  · exact read_dataWait_kept op hpc
  · exact read_drain_kept op hpc

/-! ### The other operations -/

theorem exec_accRd_kept (op : operationState s.cfg s.seq) (hpc : s.seq.pc = .accRd) :
    ∃ i t, s.seq.cur = some i ∧ exec i s = .next t ∧ OperationKept s t := by
  simp only [operationState, hpc] at op
  have test {i : Instr} {r : RegName} {test : Word → Bool} {accept : State → Res} (hcur : s.seq.cur = some i) :
      ∃ t, operation i accept (testMicro r test) s = .next t ∧ OperationKept s t :=
    ⟨_, operation_testMicro_accRd hpc hcur, operationKept_completedWith _ _ _⟩
  have modify {i : Instr} {sel : BitVec 5} {r : RegName} {modify : Word → Word} {accept : State → Res}
      (hvalid : validFlag s.cfg sel = true) (hcur : s.seq.cur = some i)
      (hi : i = .clearInterrupt sel ∨ i = .enableInterrupt sel ∨ i = .disableInterrupt sel) :
      ∃ t, operation i accept (modifyMicro r modify) s = .next t ∧ OperationKept s t := by
    refine ⟨_, operation_modifyMicro_accRd hpc hcur, .of_state ⟨sel, ?_, ?_⟩ rfl nofun⟩
    · rw [← hvalid]
      exact congrArg (validFlag · sel) (regRead_cfg r s)
    · have cur : (regRead r s).seq.cur = some i := (regRead_cur r s).trans hcur
      obtain rfl | rfl | rfl := hi
      · exact .inl cur
      · exact .inr (.inl cur)
      · exact .inr (.inr cur)
  obtain ⟨sel, hvalid, hcur | hcur | hcur | hcur⟩ | ⟨sel, -, hcur⟩ := op
  · exact ⟨_, (test hcur).imp fun _ ht => ⟨hcur, ht⟩⟩
  · exact ⟨_, (modify hvalid hcur (.inl rfl)).imp fun _ ht => ⟨hcur, ht⟩⟩
  · exact ⟨_, (modify hvalid hcur (.inr (.inl rfl))).imp fun _ ht => ⟨hcur, ht⟩⟩
  · exact ⟨_, (modify hvalid hcur (.inr (.inr rfl))).imp fun _ ht => ⟨hcur, ht⟩⟩
  · exact ⟨_, (test hcur).imp fun _ ht => ⟨hcur, ht⟩⟩

theorem exec_accWr_kept (op : operationState s.cfg s.seq) (hpc : s.seq.pc = .accWr) :
    ∃ i t, s.seq.cur = some i ∧ exec i s = .next t ∧ OperationKept s t := by
  simp only [operationState, hpc] at op
  obtain ⟨sel, -, hcur | hcur | hcur⟩ := op
  · exact ⟨_, _, hcur, operation_modifyMicro_accWr withWrite_intrState hpc hcur, operationKept_completed _ _⟩
  · exact ⟨_, _, hcur, operation_modifyMicro_accWr withWrite_intrEnable hpc hcur, operationKept_completed _ _⟩
  · exact ⟨_, _, hcur, operation_modifyMicro_accWr withWrite_intrEnable hpc hcur, operationKept_completed _ _⟩

theorem exec_cfWr_kept (op : operationState s.cfg s.seq) (hpc : s.seq.pc = .cfWr) :
    ∃ i t, s.seq.cur = some i ∧ exec i s = .next t ∧ OperationKept s t := by
  simp only [operationState, hpc] at op
  obtain hcur | hcur | ⟨fmt, rx, hcur⟩ := op
  · exact ⟨_, _, hcur, exec_resetFifos_cfWr hpc hcur, operationKept_completed _ _⟩
  · exact ⟨_, _, hcur, exec_setHostMode_cfWr hpc hcur, operationKept_completed _ _⟩
  · exact ⟨_, _, hcur, exec_setHostThresholds_cfWr hpc hcur, operationKept_completed _ _⟩

theorem exec_tsCalc_kept (op : operationState s.cfg s.seq) (hpc : s.seq.pc = .tsCalc) :
    ∃ i t, s.seq.cur = some i ∧ exec i s = .next t ∧ OperationKept s t := by
  simp only [operationState, hpc] at op
  obtain ⟨khz, hcur, hkhz, hperiod⟩ := op
  have calculates := exec_setSpeed_tsCalc hpc hcur
  cases hfits : clampOverflows (rawCounts s.cfg (busMode khz))
  · exact ⟨_, _, hcur, calculates.trans (calculateTiming_of_fits hperiod hfits),
      .of_state ⟨khz, hcur, hkhz, hperiod, hfits, rfl, rfl⟩ rfl nofun⟩
  · exact ⟨_, _, hcur, calculates.trans (calculateTiming_of_overflow hperiod hfits), operationKept_faulted nofun⟩

theorem exec_tsWr_kept (op : operationState s.cfg s.seq) {j : Fin 5} (hpc : s.seq.pc = .tsWr j) :
    ∃ i t, s.seq.cur = some i ∧ exec i s = .next t ∧ OperationKept s t := by
  simp only [operationState, hpc] at op
  obtain ⟨khz, hcur, timing⟩ := op
  refine ⟨.setSpeed khz, ?_⟩
  by_cases hmore : j.val + 1 < 5
  · exact ⟨_, hcur, exec_setSpeed_tsWr_succ hmore hcur hpc, .of_state ⟨khz, hcur, timing⟩ rfl nofun⟩
  · have last : j = 4 := by omega
    rw [last] at hpc
    exact ⟨_, hcur, exec_setSpeed_tsWr_last hcur hpc, operationKept_completed _ _⟩

/-! ### Every micro-state, and every acceptance -/

/-- From every micro-state the operation in progress has a next state, which keeps the invariant of the operation. -/
theorem exec_kept (op : operationState s.cfg s.seq) (hacc : s.seq.pc.accepting = false)
    (hfault : ∀ f, s.seq.pc ≠ .faulted f) :
    ∃ i t, s.seq.cur = some i ∧ exec i s = .next t ∧ OperationKept s t := by
  obtain ⟨hpc, state⟩ | ⟨hpc, state⟩ | hpc | hpc | hpc | hpc | ⟨j, hpc⟩ := operationState_cases op hacc hfault
  · obtain ⟨t, hmicro, kept⟩ := microWrite_kept op hpc
    exact ⟨_, t, state.operands, (exec_write_micro state.operands hacc).trans hmicro, kept⟩
  · obtain ⟨t, hmicro, kept⟩ := microRead_kept op hpc
    exact ⟨_, t, state.operands, (exec_read_micro state.operands hacc).trans hmicro, kept⟩
  · exact exec_accRd_kept op hpc
  · exact exec_accWr_kept op hpc
  · exact exec_cfWr_kept op hpc
  · exact exec_tsCalc_kept op hpc
  · exact exec_tsWr_kept op hpc

/-- An acceptance leads to the first micro-state of its operation, to its end, or is refused. -/
theorem acceptance_kept (i : Instr) (s : State) :
    (∃ t, acceptance i s = .next t ∧ OperationKept s t) ∨ ∃ r, acceptance i s = .refused r := by
  have access {j : Instr} {valid : Bool}
      (hop : valid = true → operationState s.cfg { s.seq with pc := .accRd, cur := some j }) :
      (∃ t, acceptAccess j valid s = .next t ∧ OperationKept s t) ∨ ∃ r, acceptAccess j valid s = .refused r := by
    cases valid
    · exact .inr ⟨_, rfl⟩
    · exact .inl ⟨_, rfl, .of_state (hop rfl) rfl nofun⟩
  cases i
  case resetFifos => exact .inl ⟨_, rfl, .of_state (.inl rfl) rfl nofun⟩
  case setHostMode => exact .inl ⟨_, rfl, .of_state (.inr (.inl rfl)) rfl nofun⟩
  case setHostThresholds fmt rx => exact .inl ⟨_, rfl, .of_state (.inr (.inr ⟨fmt, rx, rfl⟩)) rfl nofun⟩
  case setSpeed khz =>
    by_cases hkhz : khz = 0#32
    · subst hkhz
      exact .inr ⟨_, acceptSetSpeed_zero⟩
    · cases hperiod : noPeriod s.cfg
      · exact .inl ⟨_, acceptSetSpeed_of_period hkhz hperiod, .of_state ⟨khz, rfl, hkhz, hperiod⟩ rfl nofun⟩
      · exact .inl ⟨_, acceptSetSpeed_of_noPeriod hkhz hperiod, operationKept_faulted nofun⟩
  case write a skip len =>
    by_cases hlen : len = 0#32
    · exact .inl ⟨_, if_pos hlen, operationKept_completed _ _⟩
    · exact .inl ⟨_, acceptWrite_nonzero hlen, .of_state ⟨⟨rfl, hlen⟩, rfl⟩ rfl nofun⟩
  case read a len =>
    by_cases hlen : len = 0#32
    · exact .inl ⟨_, if_pos hlen, operationKept_completedWith _ _ _⟩
    · exact .inl ⟨_, acceptRead_nonzero hlen, .of_state ⟨⟨rfl, Nat.zero_add _, hlen⟩, rfl⟩ rfl nofun⟩
  case interruptAsserted sel => exact access fun hvalid => .inl ⟨sel, hvalid, .inl rfl⟩
  case clearInterrupt sel => exact access fun hvalid => .inl ⟨sel, hvalid, .inr (.inl rfl)⟩
  case enableInterrupt sel => exact access fun hvalid => .inl ⟨sel, hvalid, .inr (.inr (.inl rfl))⟩
  case disableInterrupt sel => exact access fun hvalid => .inl ⟨sel, hvalid, .inr (.inr (.inr rfl))⟩
  case statusTest sel => exact access fun hvalid => .inr ⟨sel, hvalid, rfl⟩
  all_goals exact .inr ⟨_, rfl⟩


/-! ### Every agent -/

/-- A step that leaves the sequencer alone, pushes nothing and stores nothing. -/
structure Bystander (s t : State) : Prop extends Quiet s t where
  seq : t.seq = s.seq

theorem remember_quiet (s t : State) : Quiet t (remember s t) where
  cfg := remember_cfg s t
  mem := remember_mem s t
  pushes := by rw [remember_log]
  vis h := by
    rw [remember]
    split
    · exact h
    · simp only [List.length_append]
      omega
  fmtq := by rw [remember_dev]
  rxq := by
    rw [remember_dev]
    exact id

theorem deviceExecStep_quiet (h : deviceExecStep s = .next t) : Quiet s t := by
  obtain rfl | ⟨w, rest, -, hfmtq, rfl⟩ := deviceExecStep_next s t h
  · exact Quiet.refl _
  · have taken : Quiet s { s with dev.fmtq := rest } := ⟨rfl, rfl, rfl, id, by simp [hfmtq], id⟩
    exact taken.trans (performWord_quiet w _)

theorem deviceWordStep_quiet (r : RegName) (v : Word) (s : State) : Quiet s (deviceWordStep r v s) := by
  rw [deviceWordStep]
  split
  · exact storeReg_quiet r v s
  · exact Quiet.refl s

/-- Everything but an accepted request and a step of the operation in progress is the step of a bystander. -/
theorem agentStep_effect {u : Turn} (hu : u ≠ .reset) (h : agentStep u s = .next t) :
    Bystander s t ∨
    (s.seq.pc.accepting = true ∧ ∃ q rest, s.port = q :: rest ∧
      exec (decodeRequest q.record) { s with port := rest, seq.buf := q.buf } = .next t) ∨
    (u = .seq ∧ s.seq.pc.accepting = false ∧
      ((∃ i, s.seq.cur = some i ∧ exec i s = .next t) ∨
       (s.seq.cur = none ∧ exec (.blockingPush s.seq.x7) s = .next t))) := by
  obtain ⟨hreset, -⟩ | ⟨-, h⟩ | h | ⟨-, h⟩ | ⟨v, -, rfl⟩ | ⟨r, v, -, rfl⟩ := agentStep_next s t u h
  · exact absurd hreset hu
  · obtain ⟨-, rfl⟩ | ⟨q, rest, hport, hacc, h⟩ | ⟨q, rest, r, -, rfl⟩ := presentStep_next s t h
    · exact .inl ⟨Quiet.refl _, rfl⟩
    · exact .inr (.inl ⟨hacc, q, rest, hport, h⟩)
    · exact .inl ⟨.of_same rfl rfl rfl rfl rfl, rfl⟩
  · exact .inr (.inr h)
  · exact .inl ⟨deviceExecStep_quiet h, (deviceExecStep_sparesSequencer h).seq⟩
  · exact .inl ⟨storeReg_quiet _ _ s, rfl⟩
  · exact .inl ⟨deviceWordStep_quiet r v s, (deviceWordStep_sparesSequencer r v s).seq⟩

/-! ### What is pushed -/

theorem Pc.pushing_cases {p : Pc} (h : p.pushing = true) :
    p = .wStartPush ∨ p = .wDataPush ∨ p = .rStartPush ∨ p = .rLenPush := by
  cases p <;> cases h
  all_goals decide

/-- At a push the operation in progress is `write` or `read`. -/
theorem cur_of_pushing (h : State.Inv s) (hpush : s.seq.pc.pushing = true) (hcur : s.seq.cur = some i) :
    ∀ w, i ≠ .blockingPush w := by
  rintro w rfl
  have op := h.operation
  obtain hpc | hpc | hpc | hpc := Pc.pushing_cases hpush <;> simp only [operationState, hpc] at op
  all_goals cases hcur.symm.trans op.1.operands

/-- The word about to be pushed is one that the block may emit. -/
theorem pushedWord_emitted (h : State.Inv s) (hpush : s.seq.pc.pushing = true) (hw : PushedWord s w) :
    emitted s.cfg w = true := by
  obtain ⟨-, stop, d, rfl⟩ | ⟨hdata, rfl⟩ := hw
  · exact emitted_dataWord _ stop d
  have op := h.operation
  obtain hpc | hpc | hpc | hpc := Pc.pushing_cases hpush <;> simp only [operationState, hpc] at op
  · rw [op.2]
    exact emitted_addressWord _ _ _
  · exact absurd hpc hdata
  · rw [op.2]
    exact emitted_addressWord _ _ _
  · obtain ⟨state, word⟩ := op
    rw [word, state.last, state.chunk]
    exact emitted_chunk _ state.remains

/-! ### Every step -/

/-- The invariant after a step, and that a full FIFO is not met under `exact`. -/
structure StepKept (s t : State) : Prop where
  inv : State.Inv t
  noFault : s.cfg.visibility = .exact → s.seq.pc ≠ .faulted .pushWhenFull → t.seq.pc ≠ .faulted .pushWhenFull

theorem StepKept.of_parts {u : State} (hcfg : t.cfg = s.cfg) (h : MachineInv t) (hs : RoomInv u) (h' : OperationKept u t) :
    StepKept s t :=
  ⟨.of_parts h (h'.operationInv hs), fun hvis _ => h'.noFault hs (by rw [hcfg]; exact hvis)⟩

theorem Bystander.kept (h : State.Inv s) (b : Bystander s t) : StepKept s t where
  inv := .of_parts (h.machine.quiet b.toQuiet) (OperationInv.quiet ⟨h.operation, h.room⟩ b.toQuiet b.seq)
  noFault _ := by
    rw [b.seq]
    exact id

/-- A step of the operation in progress. -/
theorem micro_kept (h : State.Inv s) (hacc : s.seq.pc.accepting = false) (hfault : ∀ f, s.seq.pc ≠ .faulted f)
    (hcur : s.seq.cur = some i) (hstep : exec i s = .next t) : StepKept s t := by
  obtain ⟨i', t', hcur', hstep', kept⟩ := exec_kept h.operation hacc hfault
  obtain rfl := Option.some.inj (hcur.symm.trans hcur')
  obtain rfl : t = t' := Host.Outcome.next.inj (hstep.symm.trans hstep')
  refine .of_parts (exec_stepEffect hstep).cfg ?_ h.roomInv kept
  obtain quiet | ⟨w, hw, hpush, hroom, quiet⟩ | ⟨-, -, -, quiet⟩ := exec_effect hstep
  · exact h.machine.quiet quiet
  · have hw : PushedWord s w := hw.resolve_right (cur_of_pushing h hpush hcur w)
    exact (h.machine.push hroom (pushedWord_emitted h hpush hw)).quiet quiet
  · exact (h.machine.store _).quiet quiet

theorem accepted_kept {q : Request} {rest : List Request} (h : State.Inv s) (hacc : s.seq.pc.accepting = true)
    (hstep : exec (decodeRequest q.record) { s with port := rest, seq.buf := q.buf } = .next t) : StepKept s t := by
  have accepts := exec_eq_acceptance (s := { s with port := rest, seq.buf := q.buf }) (requestable_decodeRequest q.record) hacc
  have hstep' := accepts.symm.trans hstep
  have machine : MachineInv { s with port := rest, seq.buf := q.buf } :=
    h.machine.quiet (.of_same rfl rfl rfl rfl rfl)
  have room : RoomInv { s with port := rest, seq.buf := q.buf } := ⟨h.fmtqFits, h.room⟩
  obtain ⟨t', ht', kept⟩ | ⟨r, hr⟩ := acceptance_kept (decodeRequest q.record) { s with port := rest, seq.buf := q.buf }
  · obtain rfl : t = t' := Host.Outcome.next.inj (hstep'.symm.trans ht')
    exact .of_parts (exec_stepEffect hstep).cfg (machine.quiet (acceptance_quiet hstep')) room kept
  · rw [hstep'] at hr
    cases hr

theorem agentStep_kept {u : Turn} (h : State.Inv s) (hu : u ≠ .reset)
    (hfault : u = .present ∨ ∀ f, s.seq.pc ≠ .faulted f) (hstep : agentStep u s = .next t) : StepKept s t := by
  obtain bystander | ⟨hacc, q, rest, -, hstep⟩ | ⟨rfl, hacc, hmicro⟩ := agentStep_effect hu hstep
  · exact bystander.kept h
  · exact accepted_kept h hacc hstep
  · have hfault := hfault.resolve_left nofun
    obtain ⟨i, hcur, hstep⟩ | ⟨hcur, -⟩ := hmicro
    · exact micro_kept h hacc hfault hcur hstep
    · obtain ⟨i, -, hcur', -⟩ := exec_kept h.operation hacc hfault
      cases hcur.symm.trans hcur'

/-- Reset leaves no operation, queues within their depths and an empty log (R250). -/
theorem resetEvent_inv (h : State.Inv s) : State.Inv (resetEvent s) where
  params := h.params
  memory := h.memory
  fmtqFits := List.length_take_le _ _
  rxqFits := List.length_take_le _ _
  visible := le_refl _
  operation := rfl
  room := nofun
  pushes := nofun

/-- The invariant does not see the inputs. -/
theorem State.Inv.withEnv (h : State.Inv s) (e : Env) : State.Inv { s with env := e } :=
  ⟨h.params, h.memory, h.fmtqFits, h.rxqFits, h.visible, h.operation, h.room, h.pushes⟩

theorem step_kept (h : State.Inv s) (hstep : step s = .next t) : StepKept s t := by
  obtain ⟨-, e, rfl⟩ | ⟨v, e, u, hv, hfault, hagent, rfl⟩ := step_cases hstep
  · exact ⟨resetEvent_inv (h.withEnv e), fun _ _ => nofun⟩
  · obtain ⟨inv, noFault⟩ := agentStep_kept (h.withEnv e) hv hfault hagent
    refine ⟨(Bystander.kept inv ⟨remember_quiet { s with env := e } u, remember_seq _ _⟩).inv, ?_⟩
    rw [remember_seq]
    exact noFault

/-! ### Every step has a meaning -/

theorem presentStep_total (h : s.seq.pc.accepting = true) : ∃ t, presentStep s = .next t := by
  rcases hport : s.port with _ | ⟨q, rest⟩
  · exact ⟨s, presentStep_nothing hport⟩
  obtain ⟨t, ht, -⟩ | ⟨r, hr⟩ := acceptance_kept (decodeRequest q.record) { s with port := rest, seq.buf := q.buf }
  · exact ⟨t, presentStep_acceptance hport h ht⟩
  · exact ⟨_, presentStep_refusal hport h hr⟩

theorem presentStep_busy_total (h : s.seq.pc.accepting = false) : ∃ t, presentStep s = .next t := by
  rcases hport : s.port with _ | ⟨q, rest⟩
  · exact ⟨s, presentStep_nothing hport⟩
  · exact ⟨_, presentStep_busy hport h⟩

theorem deviceExecStep_total (s : State) : ∃ t, deviceExecStep s = .next t := by
  by_cases hhost : hostMode s = true
  · rcases hfmtq : s.dev.fmtq with _ | ⟨w, words⟩
    · exact ⟨s, deviceExecStep_noWord hfmtq⟩
    · exact ⟨_, (deviceExecStep_word hhost hfmtq).trans (executeWord_eq _ _)⟩
  · exact ⟨s, if_neg hhost⟩

theorem agentStep_total (h : State.Inv s) (hfault : ∀ f, s.seq.pc ≠ .faulted f) (u : Turn) :
    ∃ t, agentStep u s = .next t := by
  cases u with
  | seq =>
    rw [agentStep]
    cases hacc : s.seq.pc.accepting
    · obtain ⟨i, t, hcur, hstep, -⟩ := exec_kept h.operation hacc hfault
      exact ⟨t, (sequencerStep_micro hacc hcur).trans hstep⟩
    · rw [sequencerStep_accepting hacc]
      exact presentStep_total hacc
  | present =>
    rw [agentStep]
    cases hacc : s.seq.pc.accepting
    · exact presentStep_busy_total hacc
    · exact presentStep_total hacc
  | devExec => exact deviceExecStep_total s
  | devFlag v => exact ⟨_, rfl⟩
  | devWord r v => exact ⟨_, rfl⟩
  | reset => exact ⟨_, rfl⟩

theorem recordStep_total {r : Res} (u : Turn) (s : State) (h : ∃ t, r = .next t) : ∃ t, recordStep u s r = .next t := by
  obtain ⟨t, rfl⟩ := h
  rw [recordStep]
  split <;> exact ⟨_, rfl⟩

end

/-- Settles O56: the recorded step of each agent keeps the invariant, and reset establishes it. -/
theorem everyStepKeepsInvariant : Obligations.EveryStepKeepsInvariant :=
  fun _ _ h hstep => (step_kept h hstep).inv

/-- Settles O57: a poll has seen room before each push, and nothing but the operation in progress pushes. -/
theorem pushNeverMeetsFullFifo : Obligations.PushNeverMeetsFullFifo :=
  fun _ _ h hvis hstep => (step_kept h hstep).noFault hvis

/-- Settles O58: each agent has a next state, the sequencer by its acceptances and micro-states. -/
theorem everyStepHasMeaning : Obligations.EveryStepHasMeaning := by
  intro s h hfault
  obtain ⟨e, taken⟩ := nextTurn_state s
  rw [step, taken, turnStep_agent (s := { s with env := e }) hfault]
  exact recordStep_total _ _ (agentStep_total (h.withEnv e) hfault _)

end Sys2Proof.Machine
end

section
/-!
`write` as a whole (R143, R144). A data push pushes the next of the words, so each micro-state keeps `WriteProgress` or ends with
all of them pushed; every other step is a bystander's. With room under `exact` a poll and its push take two steps, and the words
left are counted down.
-/
namespace Sys2Proof.Machine

/-! ### The words (R143) -/

section
variable {a : BitVec 7} {skip : Bool} {bytes : List Byte} {before : List FmtWord} {s t : State}

theorem getElem?_dataWords (skip : Bool) (bytes : List Byte) (k : Nat) :
    (dataWords skip bytes)[k]? = bytes[k]?.map (writeDataWord (decide (k + 1 = bytes.length)) skip) := by
  induction bytes generalizing k with
  | nil => simp [dataWords]
  | cons d rest ih =>
    rcases rest with _ | ⟨e, rest⟩
    · cases k <;> simp [dataWords, writeDataWord]
    · cases k with
      | zero => simp [dataWords, writeDataWord]
      | succ k =>
        rw [dataWords, List.getElem?_cons_succ, ih, List.getElem?_cons_succ, List.length_cons (as := e :: rest)]
        simp

theorem dataWords_length (skip : Bool) (bytes : List Byte) : (dataWords skip bytes).length = bytes.length := by
  induction bytes with
  | nil => rfl
  | cons d rest ih =>
    rcases rest with _ | ⟨e, rest⟩
    · rfl
    · rw [dataWords, List.length_cons, ih, List.length_cons (a := d)]

theorem writeWords_length (a : BitVec 7) (skip : Bool) (bytes : List Byte) :
    (writeWords a skip bytes).length = bytes.length + 1 := by
  rw [writeWords, List.length_cons, dataWords_length]

theorem bufferBytes_length (m : Memory) (buf : BufRef) (n : Nat) : (bufferBytes m buf n).length = n := by
  simp [bufferBytes]

/-! ### Progress, micro-state by micro-state (R146) -/

/-- The words pushed by a `write` at the micro-state of `t` (R143). -/
def WritePushed (a : BitVec 7) (skip : Bool) (bytes : List Byte) (before : List FmtWord) (t : State) : Prop :=
  match t.seq.pc with
  | .wStartPoll | .wStartPush => t.seq.x7 = addressWord a false ∧ t.log.pushes = before
  | .wDataPoll | .wDataPush =>
    t.seq.x3.toNat < bytes.length ∧ t.log.pushes = before ++ (writeWords a skip bytes).take (t.seq.x3.toNat + 1)
  | _ => False

theorem WriteProgress.writePushed (h : WriteProgress a skip bytes before s) : WritePushed a skip bytes before s := h.pushed

theorem WriteProgress.ofWrite (h : WriteProgress a skip bytes before s) : s.seq.pc.OfWrite := by
  have pushed := h.writePushed
  cases hpc : s.seq.pc <;> simp [WritePushed, Pc.OfWrite, hpc] at pushed ⊢

theorem WriteProgress.start (h : WriteProgress a skip bytes before s) (hpc : s.seq.pc = .wStartPoll ∨ s.seq.pc = .wStartPush) :
    s.seq.x7 = addressWord a false ∧ s.log.pushes = before := by
  have pushed := h.writePushed
  obtain hpc | hpc := hpc <;> simpa only [WritePushed, hpc] using pushed

theorem WriteProgress.data (h : WriteProgress a skip bytes before s) (hpc : s.seq.pc = .wDataPoll ∨ s.seq.pc = .wDataPush) :
    s.seq.x3.toNat < bytes.length ∧ s.log.pushes = before ++ (writeWords a skip bytes).take (s.seq.x3.toNat + 1) := by
  have pushed := h.writePushed
  obtain hpc | hpc := hpc <;> simpa only [WritePushed, hpc] using pushed

/-- The byte that `W_DATA_PUSH` reads lies in the buffer. -/
theorem WriteProgress.inBuffer (h : WriteProgress a skip bytes before s) (hpc : s.seq.pc = .wDataPush) :
    s.seq.x3.toNat < s.seq.buf.size :=
  (h.data (.inr hpc)).1.trans_le h.fits

theorem WriteProgress.last_iff (h : WriteProgress a skip bytes before s) (hpc : s.seq.pc = .wDataPush) :
    lastDataWord s = decide (s.seq.x3.toNat + 1 = bytes.length) := by
  have index := (h.data (.inr hpc)).1
  have length := h.length
  rw [lastDataWord]
  refine decide_eq_decide.mpr ⟨fun h => ?_, fun h => ?_⟩ <;> bv_omega

/-- `W_DATA_PUSH` pushes the next of the words. -/
theorem WriteProgress.nextWord (h : WriteProgress a skip bytes before s) (hpc : s.seq.pc = .wDataPush) :
    s.log.pushes ++ [currentDataWord s] = before ++ (writeWords a skip bytes).take (s.seq.x3.toNat + 1 + 1) := by
  obtain ⟨index, pushed⟩ := h.data (.inr hpc)
  have byte : bytes[s.seq.x3.toNat]? = some (Memory.read s.mem (bufAddress s s.seq.x3.toNat)) := by
    conv_lhs => rw [← h.content]
    simp [bufferBytes, index, bufAddress]
  have word : (writeWords a skip bytes)[s.seq.x3.toNat + 1]? = some (currentDataWord s) := by
    obtain ⟨-, -, hskip⟩ := h.operands
    rw [writeWords, List.getElem?_cons_succ, getElem?_dataWords, byte, Option.map_some, currentDataWord, h.last_iff hpc, hskip]
  rw [pushed, List.take_add_one (i := s.seq.x3.toNat + 1), word, List.append_assoc]
  rfl

/-- A step that keeps the operands, the buffer and the memory. -/
theorem WriteProgress.of_pushed (h : WriteProgress a skip bytes before s) (cur : t.seq.cur = s.seq.cur)
    (x0 : t.seq.x0 = s.seq.x0) (x1 : t.seq.x1 = s.seq.x1) (x2 : t.seq.x2 = s.seq.x2) (buf : t.seq.buf = s.seq.buf)
    (mem : t.mem = s.mem) (pushed : WritePushed a skip bytes before t) :
    WriteProgress a skip bytes before t where
  operands := by rw [cur, x0, x1, x2]; exact h.operands
  length := by rw [x1]; exact h.length
  fits := by rw [buf]; exact h.fits
  content := by rw [mem, buf]; exact h.content
  pushed := pushed

theorem WriteProgress.bystander (h : WriteProgress a skip bytes before s) (b : Bystander s t) :
    WriteProgress a skip bytes before t := by
  refine h.of_pushed (by rw [b.seq]) (by rw [b.seq]) (by rw [b.seq]) (by rw [b.seq]) (by rw [b.seq]) b.mem ?_
  rw [WritePushed, b.seq, b.pushes]
  exact h.writePushed

theorem WriteProgress.startPoll (h : WriteProgress a skip bytes before s) (hpc : s.seq.pc = .wStartPoll) {p : Pc}
    (hp : p = .wStartPoll ∨ p = .wStartPush) : WriteProgress a skip bytes before (withPc p (regRead .status s)) := by
  have start := h.start (.inl hpc)
  refine h.of_pushed (by simp) (by simp) (by simp) (by simp) (by simp) (by simp) ?_
  obtain rfl | rfl := hp <;> simpa [WritePushed] using start

theorem WriteProgress.dataPoll (h : WriteProgress a skip bytes before s) (hpc : s.seq.pc = .wDataPoll) {p : Pc}
    (hp : p = .wDataPoll ∨ p = .wDataPush) : WriteProgress a skip bytes before (withPc p (regRead .status s)) := by
  have data := h.data (.inl hpc)
  refine h.of_pushed (by simp) (by simp) (by simp) (by simp) (by simp) (by simp) ?_
  obtain rfl | rfl := hp <;> simpa [WritePushed] using data

theorem WriteProgress.startPush (h : WriteProgress a skip bytes before s) (hbytes : bytes ≠ [])
    (hpc : s.seq.pc = .wStartPush) :
    WriteProgress a skip bytes before { withPush s.seq.x7 s with seq := { s.seq with pc := .wDataPoll, x3 := 0#32 } } := by
  obtain ⟨word, pushed⟩ := h.start (.inr hpc)
  refine h.of_pushed rfl rfl rfl rfl rfl rfl ⟨List.length_pos_of_ne_nil hbytes, ?_⟩
  rw [withPush, word, pushed]
  rfl

theorem WriteProgress.dataPush (h : WriteProgress a skip bytes before s) (hpc : s.seq.pc = .wDataPush)
    (hmore : lastDataWord s = false) :
    WriteProgress a skip bytes before
      (withPush (currentDataWord s) { s with seq := { s.seq with pc := .wDataPoll, x3 := s.seq.x3 + 1#32 } }) := by
  have index := (h.data (.inr hpc)).1
  have length := h.length
  have more : s.seq.x3.toNat + 1 ≠ bytes.length := of_decide_eq_false ((h.last_iff hpc).symm.trans hmore)
  have next : (s.seq.x3 + 1#32).toNat = s.seq.x3.toNat + 1 := by bv_omega
  refine h.of_pushed rfl rfl rfl rfl rfl rfl ?_
  change (s.seq.x3 + 1#32).toNat < bytes.length ∧
    s.log.pushes ++ [currentDataWord s] = before ++ (writeWords a skip bytes).take ((s.seq.x3 + 1#32).toNat + 1)
  rw [next]
  exact ⟨by omega, h.nextWord hpc⟩

/-- After the last data word all words have been pushed (R144). -/
theorem WriteProgress.lastPush (h : WriteProgress a skip bytes before s) (hpc : s.seq.pc = .wDataPush)
    (hlast : lastDataWord s = true) : s.log.pushes ++ [currentDataWord s] = before ++ writeWords a skip bytes := by
  have last : s.seq.x3.toNat + 1 = bytes.length := of_decide_eq_true ((h.last_iff hpc).symm.trans hlast)
  rw [h.nextWord hpc, last, List.take_of_length_le (writeWords_length a skip bytes).le]

/-- What a step of a `write` in progress leads to. -/
def WriteGoesOn (a : BitVec 7) (skip : Bool) (bytes : List Byte) (before pushes : List FmtWord) (t : State) : Prop :=
  WriteProgress a skip bytes before t ∨
  (t.seq.pc = .complete ∧ t.log.pushes = before ++ writeWords a skip bytes) ∨
  (t.seq.pc = .faulted .pushWhenFull ∧ t.log.pushes = pushes)

theorem microWrite_goesOn (h : WriteProgress a skip bytes before s) (hbytes : bytes ≠ []) (hstep : microWrite s = .next t) :
    WriteGoesOn a skip bytes before s.log.pushes t := by
  obtain hpc | hpc | hpc | hpc := h.ofWrite
  · rw [microWrite_startPoll hpc, pollFull_eq] at hstep
    cases hstep
    exact .inl (h.startPoll hpc (ite_eq_or_eq _ _ _))
  · by_cases hroom : s.dev.fmtq.length < s.cfg.fmtDepth
    · rw [microWrite_startPush hpc hroom] at hstep
      cases hstep
      exact .inl (h.startPush hbytes hpc)
    · rw [microWrite_startPush_full hpc hroom] at hstep
      cases hstep
      exact .inr (.inr ⟨rfl, rfl⟩)
  · rw [microWrite_dataPoll hpc, pollFull_eq] at hstep
    cases hstep
    exact .inl (h.dataPoll hpc (ite_eq_or_eq _ _ _))
  · by_cases hroom : s.dev.fmtq.length < s.cfg.fmtDepth
    · rw [microWrite_dataPush_room hpc (h.inBuffer hpc) hroom] at hstep
      cases hlast : lastDataWord s <;> rw [hlast] at hstep <;> cases hstep
      · exact .inl (h.dataPush hpc hlast)
      · exact .inr (.inl ⟨rfl, h.lastPush hpc hlast⟩)
    · rw [microWrite_dataPush_full hpc (h.inBuffer hpc) hroom] at hstep
      cases hstep
      exact .inr (.inr ⟨rfl, rfl⟩)

theorem WriteProgress.not_accepting (h : WriteProgress a skip bytes before s) : s.seq.pc.accepting = false := by
  obtain hpc | hpc | hpc | hpc := h.ofWrite <;> rw [hpc] <;> rfl

theorem agentStep_writeGoesOn {u : Turn} (h : WriteProgress a skip bytes before s) (hbytes : bytes ≠ []) (hu : u ≠ .reset)
    (hstep : agentStep u s = .next t) : WriteGoesOn a skip bytes before s.log.pushes t := by
  obtain bystander | ⟨hacc, -⟩ | ⟨-, -, ⟨i, hcur, hexec⟩ | ⟨hcur, -⟩⟩ := agentStep_effect hu hstep
  · exact .inl (h.bystander bystander)
  · rw [h.not_accepting] at hacc
    cases hacc
  · obtain rfl := Option.some.inj (h.operands.1.symm.trans hcur)
    rw [exec_write_micro hcur h.not_accepting] at hexec
    exact microWrite_goesOn h hbytes hexec
  · cases h.operands.1.symm.trans hcur

end

/-- Settles O32: the micro-states of `write` and the bystanders keep the progress, and so does recording the step. -/
theorem writeEmitsExactlyItsWords : Obligations.WriteEmitsExactlyItsWords := by
  intro a skip bytes before s t h hbytes hsched hstep
  obtain ⟨hreset, -⟩ | ⟨v, e, u, hv, -, hagent, rfl⟩ := step_cases hstep
  · exact absurd hreset hsched
  have taken : WriteProgress a skip bytes before { s with env := e } := h.bystander ⟨.of_same rfl rfl rfl rfl rfl, rfl⟩
  obtain progress | ended := agentStep_writeGoesOn taken hbytes hv hagent
  · exact .inl (progress.bystander ⟨remember_quiet { s with env := e } u, remember_seq _ _⟩)
  · rw [remember_seq, remember_log]
    exact .inr ended

/-! ### A `write` with room (R144, R270) -/

section
variable {a : BitVec 7} {skip : Bool} {len : Word} {bytes : List Byte} {before : List FmtWord} {n : Nat} {s t u : State}

/-- From `s` to `t` the device has only gained the words that have been pushed. -/
def OnlyPushed (s t : State) : Prop :=
  t.cfg = s.cfg ∧ t.mem = s.mem ∧
    ∃ ws, t.dev = { s.dev with fmtq := s.dev.fmtq ++ ws } ∧ t.log.pushes = s.log.pushes ++ ws

theorem OnlyPushed.trans (h : OnlyPushed s t) (h' : OnlyPushed t u) : OnlyPushed s u := by
  obtain ⟨cfg, mem, ws, dev, pushes⟩ := h
  obtain ⟨cfg', mem', ws', dev', pushes'⟩ := h'
  refine ⟨cfg'.trans cfg, mem'.trans mem, ws ++ ws', ?_, ?_⟩
  · rw [dev', dev, List.append_assoc]
  · rw [pushes', pushes, List.append_assoc]

theorem OnlyPushed.of_same (cfg : t.cfg = s.cfg) (dev : t.dev = s.dev) (mem : t.mem = s.mem)
    (pushes : t.log.pushes = s.log.pushes) : OnlyPushed s t :=
  ⟨cfg, mem, [], by rw [dev, List.append_nil], by rw [pushes, List.append_nil]⟩

/-- A `write` of `len` bytes in progress with `n` words left and room for them. -/
structure WriteLeft (a : BitVec 7) (skip : Bool) (len : Word) (bytes : List Byte) (before : List FmtWord) (n : Nat)
    (s : State) : Prop extends WriteProgress a skip bytes before s where
  cur : s.seq.cur = some (.write a skip len)
  exact : s.cfg.visibility = .exact
  room : s.dev.fmtq.length + n ≤ s.cfg.fmtDepth
  left : ((s.seq.pc = .wStartPoll ∨ s.seq.pc = .wStartPush) ∧ n = bytes.length + 1) ∨
    ((s.seq.pc = .wDataPoll ∨ s.seq.pc = .wDataPush) ∧ s.seq.x3.toNat + n = bytes.length)

theorem WriteLeft.exec (h : WriteLeft a skip len bytes before n s) : Machine.exec (.write a skip len) s = microWrite s :=
  exec_write_micro h.cur h.not_accepting

/-- Under `exact` a poll sees the room that there is. -/
theorem pollFull_room {stay next : Pc} (hvis : s.cfg.visibility = .exact) (hroom : s.dev.fmtq.length < s.cfg.fmtDepth) :
    pollFull stay next s = .next (withPc next (regRead .status s)) := by
  have seen : (regRead .status s).seq.x10.getLsbD 0 = false := by
    refine (poll_full_exact s hvis).trans (decide_eq_false ?_)
    omega
  rw [pollFull_eq, seen]
  rfl

theorem WriteLeft.polled {p : Pc} (h : WriteLeft a skip len bytes before n s)
    (progress : WriteProgress a skip bytes before (withPc p (regRead .status s)))
    (left : ((p = .wStartPoll ∨ p = .wStartPush) ∧ n = bytes.length + 1) ∨
      ((p = .wDataPoll ∨ p = .wDataPush) ∧ s.seq.x3.toNat + n = bytes.length)) :
    WriteLeft a skip len bytes before n (withPc p (regRead .status s)) where
  toWriteProgress := progress
  cur := by simpa using h.cur
  exact := by simpa using h.exact
  room := by simpa using h.room
  left := by simpa using left

/-- A poll with room goes on to its push. -/
theorem WriteLeft.poll (h : WriteLeft a skip len bytes before (n + 1) s)
    (hpc : s.seq.pc = .wStartPoll ∨ s.seq.pc = .wDataPoll) :
    ∃ u, Machine.exec (.write a skip len) s = .next u ∧ OnlyPushed s u ∧
      (u.seq.pc = .wStartPush ∨ u.seq.pc = .wDataPush) ∧ WriteLeft a skip len bytes before (n + 1) u := by
  have hroom : s.dev.fmtq.length < s.cfg.fmtDepth := by have := h.room; omega
  have onlyPushed (p : Pc) : OnlyPushed s (withPc p (regRead .status s)) :=
    .of_same (by simp) regRead_status_dev (by simp) (by simp)
  have left := h.left
  rw [h.exec]
  obtain hpc | hpc := hpc
  · rw [microWrite_startPoll hpc, pollFull_room h.exact hroom]
    refine ⟨_, rfl, onlyPushed _, .inl rfl, h.polled (h.startPoll hpc (.inr rfl)) ?_⟩
    simpa [hpc] using left
  · rw [microWrite_dataPoll hpc, pollFull_room h.exact hroom]
    refine ⟨_, rfl, onlyPushed _, .inr rfl, h.polled (h.dataPoll hpc (.inr rfl)) ?_⟩
    simpa [hpc] using left

/-- A push with room: one word less is left, or the `write` has ended. -/
theorem WriteLeft.push (h : WriteLeft a skip len bytes before (n + 1) s) (hbytes : bytes ≠ [])
    (hpc : s.seq.pc = .wStartPush ∨ s.seq.pc = .wDataPush) :
    ∃ t, Machine.exec (.write a skip len) s = .next t ∧ OnlyPushed s t ∧
      ((t.seq.pc = .wDataPoll ∧ n ≠ 0 ∧ WriteLeft a skip len bytes before n t) ∨
       (n = 0 ∧ t.seq.pc = .complete ∧ t.seq.cur = none ∧ t.log.pushes = before ++ writeWords a skip bytes)) := by
  have hroom : s.dev.fmtq.length < s.cfg.fmtDepth := by have := h.room; omega
  have room (w : FmtWord) : (s.dev.fmtq ++ [w]).length + n ≤ s.cfg.fmtDepth := by
    rw [List.length_append]
    have := h.room
    simpa [Nat.add_assoc, Nat.add_comm 1 n] using this
  have left := h.left
  rw [h.exec]
  obtain hpc | hpc := hpc
  · have left : n = bytes.length := by simpa [hpc] using left
    refine ⟨_, microWrite_startPush hpc hroom, ⟨rfl, rfl, [s.seq.x7], rfl, rfl⟩, .inl ⟨rfl, ?_, ?_⟩⟩
    · rw [left]
      exact (List.length_pos_of_ne_nil hbytes).ne'
    · exact ⟨h.startPush hbytes hpc, h.cur, h.exact, room _, .inr ⟨.inl rfl, (Nat.zero_add _).trans left⟩⟩
  · have left : s.seq.x3.toNat + (n + 1) = bytes.length := by simpa [hpc] using left
    rw [microWrite_dataPush_room hpc (h.inBuffer hpc) hroom]
    cases hlast : lastDataWord s
    · have more : s.seq.x3.toNat + 1 ≠ bytes.length := of_decide_eq_false ((h.last_iff hpc).symm.trans hlast)
      have next : (s.seq.x3 + 1#32).toNat = s.seq.x3.toNat + 1 := by
        have := h.length
        bv_omega
      refine ⟨_, rfl, ⟨rfl, rfl, [currentDataWord s], rfl, rfl⟩, .inl ⟨rfl, by omega, ?_⟩⟩
      refine ⟨h.dataPush hpc hlast, h.cur, h.exact, room _, .inr ⟨.inl rfl, ?_⟩⟩
      change (s.seq.x3 + 1#32).toNat + n = bytes.length
      omega
    · have last : s.seq.x3.toNat + 1 = bytes.length := of_decide_eq_true ((h.last_iff hpc).symm.trans hlast)
      exact ⟨_, rfl, ⟨rfl, rfl, [currentDataWord s], rfl, rfl⟩, .inr ⟨by omega, rfl, rfl, h.lastPush hpc hlast⟩⟩

/-- The rest of a `write` with room: two steps for each word left. -/
theorem WriteLeft.run (hbytes : bytes ≠ []) (n : Nat) : ∀ {s : State}, WriteLeft a skip len bytes before (n + 1) s →
    s.seq.pc = .wStartPoll ∨ s.seq.pc = .wDataPoll →
    ∃ t, execTimes (.write a skip len) (2 * (n + 1)) s = .next t ∧ OnlyPushed s t ∧ t.seq.pc = .complete ∧
      t.seq.cur = none ∧ t.log.pushes = before ++ writeWords a skip bytes := by
  induction n with
  | zero =>
    intro s h hpc
    obtain ⟨u, hpoll, polled, hpush, h⟩ := h.poll hpc
    obtain ⟨t, hpush, pushed, ⟨-, hn, -⟩ | ⟨-, ended⟩⟩ := h.push hbytes hpush
    · exact absurd rfl hn
    · exact ⟨t, (execTimes_succ _ 1 _ _ hpoll).trans (execTimes_succ _ 0 _ _ hpush), polled.trans pushed, ended⟩
  | succ n ih =>
    intro s h hpc
    obtain ⟨u, hpoll, polled, hpush, h⟩ := h.poll hpc
    obtain ⟨v, hpush, pushed, ⟨hpc, -, h⟩ | ⟨hn, -⟩⟩ := h.push hbytes hpush
    · obtain ⟨t, hrun, rest, ended⟩ := ih h (.inr hpc)
      refine ⟨t, ?_, (polled.trans pushed).trans rest, ended⟩
      exact (execTimes_succ _ (2 * (n + 1) + 1) _ _ hpoll).trans ((execTimes_succ _ _ _ _ hpush).trans hrun)
    · exact absurd hn n.succ_ne_zero

/-- The accepted `write` of a non-empty buffer, with all of its words left. -/
theorem writeLeft_accepted (hvis : s.cfg.visibility = .exact) (hfits : len.toNat ≤ s.seq.buf.size)
    (hroom : s.dev.fmtq.length + len.toNat + 1 ≤ s.cfg.fmtDepth) :
    WriteLeft a skip len (bufferBytes s.mem s.seq.buf len.toNat) s.log.pushes (len.toNat + 1) { s with seq := { s.seq with
      pc := .wStartPoll, cur := some (.write a skip len), x0 := a, x1 := len, x2 := skip, x7 := addressWord a false } } := by
  have length := bufferBytes_length s.mem s.seq.buf len.toNat
  exact
    { operands := ⟨rfl, rfl, rfl⟩
      length := length.symm
      fits := length.trans_le hfits
      content := by rw [length]
      pushed := ⟨rfl, rfl⟩
      cur := rfl
      exact := hvis
      room := hroom
      left := .inl ⟨.inl rfl, by rw [length]⟩ }

end

/-- Settles O31: the acceptance, then two steps for each word; what the device gained is what was pushed. -/
theorem writeCompletesWithRoom : Obligations.WriteCompletesWithRoom := by
  intro a skip len s hacc hvis hlen hfits hroom
  dsimp only
  have length := bufferBytes_length s.mem s.seq.buf len.toNat
  have hbytes : bufferBytes s.mem s.seq.buf len.toNat ≠ [] := by
    rw [← List.length_pos_iff, length]
    exact Nat.pos_of_ne_zero (toNat_ne_zero hlen)
  refine ⟨by rw [writeWords_length, length], ?_⟩
  obtain ⟨t, hrun, ⟨-, mem, ws, dev, gained⟩, hpc, hcur, pushes⟩ :=
    (writeLeft_accepted (a := a) (skip := skip) hvis hfits hroom).run hbytes len.toNat (.inl rfl)
  obtain rfl : ws = writeWords a skip (bufferBytes s.mem s.seq.buf len.toNat) :=
    List.append_cancel_left (gained.symm.trans pushes)
  refine ⟨t, ?_, hpc, hcur, dev, pushes, mem⟩
  exact (execTimes_succ _ _ _ _ ((exec_write_accept hacc).trans (acceptWrite_nonzero hlen))).trans hrun

end Sys2Proof.Machine
end

section
/-!
`read` as a whole (R150, R151, R155, R158). `IDX` is 255 times the chunks drained, so the words pushed are those of that many full
chunks and of the current one, and a byte is stored only in the part of the buffer drained so far. Each micro-state keeps this or
ends as the statement says; every other step is a bystander's.
-/
namespace Sys2Proof.Machine

section
variable {a : BitVec 7} {len : Word} {before : List FmtWord} {m mem : Memory} {s t : State} {base n n' k r : Nat}

/-! ### The words of the chunks (R150) -/

theorem fullChunks_succ (a : BitVec 7) (n : Nat) :
    fullChunks a (n + 1) = fullChunks a n ++ [addressWord a true, readLengthWord false 255#8] := by
  induction n with
  | zero => rfl
  | succ n ih =>
    change addressWord a true :: readLengthWord false 255#8 :: fullChunks a (n + 1) =
      addressWord a true :: readLengthWord false 255#8 :: fullChunks a n ++ _
    rw [ih, List.cons_append, List.cons_append]

/-- A whole number of full chunks and a last one of `r` bytes. -/
theorem readWords_eq (hk : k % 255 = 0) (hn : k + r = n) (hpos : 0 < r) (hr : r ≤ 255) :
    readWords a n = fullChunks a (k / 255) ++ [addressWord a true, readLengthWord true (BitVec.ofNat 8 r)] := by
  have chunks : (n - 1) / 255 = k / 255 := by omega
  have rest : (n - 1) % 255 + 1 = r := by omega
  rw [readWords, chunks, rest]

/-! ### The caller's memory (R151) -/

/-- The two memories differ at most in the first `n` bytes from `base`. -/
def ChangedWithin (base n : Nat) (m mem : Memory) : Prop :=
  ∀ k, ¬ (base ≤ k ∧ k < base + n) → Memory.read mem k = Memory.read m k

theorem ChangedWithin.mono (h : ChangedWithin base n m mem) (hn : n ≤ n') : ChangedWithin base n' m mem :=
  fun k hk => h k (by omega)

theorem ChangedWithin.write (h : ChangedWithin base n m mem) (hmem : Memory.wf mem = true) (hk : k < n) (b : Byte) :
    ChangedWithin base n m (Memory.write mem (base + k) b) := by
  intro j hj
  rw [Memory.read_write_other _ _ _ _ hmem (by omega)]
  exact h j hj

/-- The part of the buffer that has been drained (R148). -/
theorem ReadProgress.changed (h : ReadProgress a len before m s) :
    ChangedWithin s.seq.buf.base (s.seq.x3.toNat + if s.seq.pc = .rDrain then s.seq.x8.toNat else 0) m s.mem := by
  intro k hk
  exact h.stored k (by rw [Nat.add_assoc]; exact hk)

/-! ### The counters -/

theorem ReadProgress.not_accepting (h : ReadProgress a len before m s) : s.seq.pc.accepting = false := by
  have pushed := h.pushed
  cases hpc : s.seq.pc <;> simp [hpc, Pc.accepting] at pushed ⊢

theorem ReadProgress.not_faulted (h : ReadProgress a len before m s) (f : Fault) : s.seq.pc ≠ .faulted f := by
  intro hpc
  have pushed := h.pushed
  simp [hpc] at pushed

/-- Whatever the micro-state, the counters of `read` are in order (R148). -/
theorem ReadProgress.counters (h : ReadProgress a len before m s) : ReadState s.seq := by
  have op := h.state.1
  have pushed := h.pushed
  obtain ⟨hpc, -⟩ | ⟨-, state⟩ | hpc | hpc | hpc | hpc | ⟨j, hpc⟩ := operationState_cases op h.not_accepting h.not_faulted
  · obtain hpc | hpc | hpc | hpc := hpc <;> simp [hpc] at pushed
  · exact state
  all_goals simp [hpc] at pushed

theorem ReadProgress.operands (h : ReadProgress a len before m s) : s.seq.x0 = a ∧ s.seq.x1 = len := by
  have operands := h.counters.operands.symm.trans h.state.2
  simpa using operands

/-! ### Progress, micro-state by micro-state (R154) -/

/-- What a step of a `read` in progress leads to; `base` is where its buffer lies. -/
def ReadGoesOn (a : BitVec 7) (len : Word) (before : List FmtWord) (m : Memory) (base : Nat) (t : State) : Prop :=
  ReadProgress a len before m t ∨
  (t.seq.pc = .complete ∧ t.seq.x9 = true ∧ t.log.pushes = before ++ readWords a len.toNat ∧
    ChangedWithin base len.toNat m t.mem) ∨
  (t.seq.pc = .nakAborted ∧ t.seq.x9 = false ∧ ∃ c : Nat, t.seq.x3.toNat = 255 * c ∧ 255 * c < len.toNat ∧
    t.log.pushes = before ++ fullChunks a c ++ [addressWord a true] ∧ ChangedWithin base (255 * c) m t.mem) ∨
  (t.seq.pc = .faulted .pushWhenFull ∨ t.seq.pc = .faulted .bufferBound)

/-- The words pushed by a `read` at the micro-state of `t` (R150). -/
def ReadPushed (a : BitVec 7) (before : List FmtWord) (t : State) : Prop :=
  match t.seq.pc with
  | .rStartPoll | .rStartPush => t.log.pushes = before ++ fullChunks a (t.seq.x3.toNat / 255)
  | .rAddrWait | .rNakTest | .rNakClearRd | .rNakClearWr | .rLenPoll | .rLenPush =>
    t.log.pushes = before ++ fullChunks a (t.seq.x3.toNat / 255) ++ [addressWord a true]
  | .rDataWait | .rDrain =>
    t.log.pushes = before ++ fullChunks a (t.seq.x3.toNat / 255) ++
      [addressWord a true, readLengthWord t.seq.x6 t.seq.x5]
  | _ => False

theorem ReadProgress.readPushed (h : ReadProgress a len before m s) : ReadPushed a before s := h.pushed

/-- The micro-state after the one of `s`, from its equation. -/
theorem ReadProgress.operationState (h : ReadProgress a len before m s) (hstep : microRead s = .next t) :
    Machine.operationState t.cfg t.seq := by
  obtain ⟨i, t', hcur, hexec, kept⟩ := exec_kept h.state.1 h.not_accepting h.not_faulted
  obtain rfl := Option.some.inj (h.state.2.symm.trans hcur)
  rw [exec_read_micro h.state.2 h.not_accepting, hstep] at hexec
  obtain rfl := Host.Outcome.next.inj hexec
  exact kept.operation

/-- A step of `read` that stores nothing. -/
theorem ReadProgress.of_step (h : ReadProgress a len before m s) (hpc : s.seq.pc ≠ .rDrain) (hstep : microRead s = .next t)
    (keeps : t.seq.cur = s.seq.cur ∧ t.seq.x3 = s.seq.x3 ∧ t.seq.buf = s.seq.buf ∧ t.mem = s.mem)
    (pushed : ReadPushed a before t) : ReadProgress a len before m t := by
  obtain ⟨cur, x3, buf, mem⟩ := keeps
  refine ⟨⟨h.operationState hstep, cur.trans h.state.2⟩, ?_, ?_, pushed, fun k hk => ?_⟩
  · rw [x3]
    exact h.whole
  · rw [mem]
    exact h.canonical
  · have changed := h.changed
    rw [if_neg hpc, ← x3, ← buf, ← mem] at changed
    exact changed.mono (Nat.le_add_right _ _) k (by rw [← Nat.add_assoc]; exact hk)

theorem ReadProgress.bystander (h : ReadProgress a len before m s) (b : Bystander s t) :
    ReadProgress a len before m t where
  state := by rw [b.cfg, b.seq]; exact h.state
  whole := by rw [b.seq]; exact h.whole
  canonical := by rw [b.mem]; exact h.canonical
  pushed := by rw [b.seq, b.pushes]; exact h.pushed
  stored := by rw [b.seq, b.mem]; exact h.stored

/-- The micro-states that read a register and only move on. -/
theorem microRead_wait (h : ReadProgress a len before m s)
    (hpc : s.seq.pc = .rStartPoll ∨ s.seq.pc = .rAddrWait ∨ s.seq.pc = .rNakTest ∨ s.seq.pc = .rNakClearRd ∨
      s.seq.pc = .rLenPoll ∨ s.seq.pc = .rDataWait) (hstep : microRead s = .next t) :
    ReadProgress a len before m t := by
  have pushed := h.readPushed
  have step := hstep
  obtain hpc | hpc | hpc | hpc | hpc | hpc := hpc <;> simp only [ReadPushed, hpc] at pushed
  · rw [microRead_startPoll hpc, pollFull_eq] at step
    cases step
    refine h.of_step (by simp [hpc]) hstep (by simp) ?_
    split <;> simpa [ReadPushed] using pushed
  · rw [microRead_addrWait hpc] at step
    cases step
    refine h.of_step (by simp [hpc]) hstep (by simp) ?_
    split <;> simpa [ReadPushed] using pushed
  · rw [microRead_nakTest hpc] at step
    cases step
    refine h.of_step (by simp [hpc]) hstep (by split <;> simp [withChunk]) ?_
    split <;> simpa [ReadPushed, withChunk] using pushed
  · rw [microRead_nakClearRd hpc] at step
    cases step
    refine h.of_step (by simp [hpc]) hstep (by simp) ?_
    simpa [ReadPushed] using pushed
  · rw [microRead_lenPoll hpc, pollFull_eq] at step
    cases step
    refine h.of_step (by simp [hpc]) hstep (by simp) ?_
    split <;> simpa [ReadPushed] using pushed
  · rw [microRead_dataWait hpc] at step
    cases step
    refine h.of_step (by simp [hpc]) hstep (by split <;> simp) ?_
    split <;> simpa [ReadPushed, hpc] using pushed

/-- The two pushes of a chunk (R150). -/
theorem microRead_push (h : ReadProgress a len before m s) (hpc : s.seq.pc = .rStartPush ∨ s.seq.pc = .rLenPush)
    (hstep : microRead s = .next t) : ReadProgress a len before m t ∨ t.seq.pc = .faulted .pushWhenFull := by
  by_cases hroom : s.dev.fmtq.length < s.cfg.fmtDepth
  · refine .inl ?_
    have pushed := h.readPushed
    have op := h.state.1
    have step := hstep
    obtain hpc | hpc := hpc <;> simp only [ReadPushed, Machine.operationState, hpc] at pushed op
    · rw [microRead_startPush hpc hroom] at step
      cases step
      refine h.of_step (by simp [hpc]) hstep ⟨rfl, rfl, rfl, rfl⟩ ?_
      change s.log.pushes ++ [s.seq.x7] = _
      rw [pushed, op.2, h.operands.1]
      rfl
    · rw [microRead_lenPush hpc hroom] at step
      cases step
      refine h.of_step (by simp [hpc]) hstep ⟨rfl, rfl, rfl, rfl⟩ ?_
      change s.log.pushes ++ [s.seq.x7] = _
      rw [pushed, op.2, List.append_assoc]
      rfl
  · rw [microRead_push_full hpc hroom] at hstep
    cases hstep
    exact .inr rfl

/-- The abort of a chunk whose address was refused (R149). -/
theorem microRead_abort (h : ReadProgress a len before m s) (hpc : s.seq.pc = .rNakClearWr) (hstep : microRead s = .next t) :
    ReadGoesOn a len before m s.seq.buf.base t := by
  rw [microRead_nakClearWr hpc] at hstep
  cases hstep
  have pushed := h.readPushed
  simp only [ReadPushed, hpc] at pushed
  have whole : s.seq.x3.toNat = 255 * (s.seq.x3.toNat / 255) := by
    have := h.whole
    omega
  have some : s.seq.x3.toNat < len.toNat := by
    have counters := h.counters.counters
    have remains := toNat_ne_zero h.counters.remains
    rw [h.operands.2] at counters
    omega
  refine .inr (.inr (.inl ⟨rfl, rfl, s.seq.x3.toNat / 255, whole, whole ▸ some, pushed, ?_⟩))
  rw [← whole]
  simpa [hpc] using h.changed

/-! ### The drain (R151, R152) -/

/-- What is known at `R_DRAIN`. -/
theorem ReadProgress.draining (h : ReadProgress a len before m s) (hpc : s.seq.pc = .rDrain) :
    ChunkState s.seq ∧ s.seq.x8.toNat < s.seq.x5.toNat := by
  have op := h.state.1
  simpa only [Machine.operationState, hpc] using op

theorem ReadProgress.drainIndex_eq (h : ReadProgress a len before m s) (hpc : s.seq.pc = .rDrain) :
    drainIndex s = s.seq.x3.toNat + s.seq.x8.toNat := by
  obtain ⟨chunk, index⟩ := h.draining hpc
  have count := toNat_chunkSize (r := s.seq.x4)
  rw [← chunk.chunk] at count
  have counters := chunk.counters
  have bound := s.seq.x1.isLt
  rw [drainIndex, BitVec.toNat_add, BitVec.toNat_setWidth]
  omega

/-- A byte is stored behind the part drained so far. -/
theorem ReadProgress.drained_changed (h : ReadProgress a len before m s) (hpc : s.seq.pc = .rDrain)
    (hn : s.seq.x3.toNat + s.seq.x8.toNat < n) : ChangedWithin s.seq.buf.base n m (drained s).mem := by
  have changed := h.changed
  rw [if_pos hpc] at changed
  rw [drained, h.drainIndex_eq hpc]
  exact (changed.mono hn.le).write h.canonical hn _

theorem ReadProgress.drained_canonical (h : ReadProgress a len before m s) : Memory.wf (drained s).mem = true :=
  Memory.wf_write _ _ _ h.canonical

/-- The words pushed when the current chunk is being drained. -/
theorem ReadProgress.drain_pushes (h : ReadProgress a len before m s) (hpc : s.seq.pc = .rDrain) :
    (drained s).log.pushes = before ++ fullChunks a (s.seq.x3.toNat / 255) ++
      [addressWord a true, readLengthWord s.seq.x6 s.seq.x5] := by
  have pushed := h.readPushed
  simp only [ReadPushed, hpc] at pushed
  rw [← pushed]
  exact congrArg Log.pushes (regRead_log .rdata s)

/-- A byte that is not the last of its chunk. -/
theorem ReadProgress.drain_byte (h : ReadProgress a len before m s) (hpc : s.seq.pc = .rDrain)
    (hstep : microRead s = .next (drained s)) :
    ReadProgress a len before m (drained s) := by
  have index := (h.draining hpc).2
  have pc : (drained s).seq.pc = .rDrain := by rw [drained, regRead_pc, hpc]
  have next : (s.seq.x8 + 1#8).toNat = s.seq.x8.toNat + 1 := by bv_omega
  have changed := h.drained_changed hpc (n := s.seq.x3.toNat + (s.seq.x8.toNat + 1)) (by omega)
  refine ⟨⟨h.operationState hstep, (regRead_cur _ _).trans h.state.2⟩, ?_, h.drained_canonical, ?_, ?_⟩
  · rw [drained_x3]
    exact h.whole
  · simpa [pc] using h.drain_pushes hpc
  · rw [if_pos pc, drained_x3, drained_x8, next, Nat.add_assoc]
    exact (regRead_buf .rdata s).symm ▸ changed

/-- The last byte of a chunk that is not the last: `IDX` goes on by 255 (R148). -/
theorem ReadProgress.drain_chunk (h : ReadProgress a len before m s) (hpc : s.seq.pc = .rDrain)
    (hstep : microRead s = .next (chunkDone (drained s))) (hlast : s.seq.x6 = false) :
    ReadProgress a len before m (chunkDone (drained s)) := by
  obtain ⟨chunk, index⟩ := h.draining hpc
  obtain ⟨sum, -, more⟩ := chunk.counted hlast
  have count := toNat_chunkSize (r := s.seq.x4)
  rw [← chunk.chunk] at count
  have full : s.seq.x5 = 255#8 := BitVec.eq_of_toNat_eq (by rw [count]; change _ = 255; omega)
  have changed := h.drained_changed hpc (n := s.seq.x3.toNat + 255) (by omega)
  have hop := h.operationState hstep
  rw [chunkDone_eq, drained_x6, hlast] at hop ⊢
  have x3 : ((drained s).seq.x3 + (drained s).seq.x5.setWidth 32).toNat = s.seq.x3.toNat + 255 := by
    rw [drained_x3, drained_x5, sum]
  have whole := h.whole
  refine ⟨⟨hop, (regRead_cur _ _).trans h.state.2⟩, ?_, h.drained_canonical, ?_, ?_⟩
  · change ((drained s).seq.x3 + (drained s).seq.x5.setWidth 32).toNat % 255 = 0
    omega
  · change (drained s).log.pushes =
      before ++ fullChunks a (((drained s).seq.x3 + (drained s).seq.x5.setWidth 32).toNat / 255)
    rw [x3, Nat.add_div_right _ (by decide), fullChunks_succ, h.drain_pushes hpc, hlast, full, List.append_assoc]
  · change ∀ k, ¬ ((drained s).seq.buf.base ≤ k ∧
      k < (drained s).seq.buf.base + ((drained s).seq.x3 + (drained s).seq.x5.setWidth 32).toNat + 0) → _
    rw [x3]
    exact (regRead_buf .rdata s).symm ▸ changed

/-- The last byte of the last chunk (R155). -/
theorem ReadProgress.drain_last (h : ReadProgress a len before m s) (hpc : s.seq.pc = .rDrain) (hlast : s.seq.x6 = true) :
    ReadGoesOn a len before m s.seq.buf.base (chunkDone (drained s)) := by
  obtain ⟨chunk, index⟩ := h.draining hpc
  have small := chunkIsLast_iff.mp (chunk.last.symm.trans hlast)
  have count := toNat_chunkSize (r := s.seq.x4)
  rw [← chunk.chunk] at count
  have counters := chunk.counters
  rw [h.operands.2] at counters
  have remains := toNat_ne_zero chunk.remains
  have changed := h.drained_changed hpc (n := len.toNat) (by omega)
  have words := readWords_eq (a := a) h.whole counters (by omega) small
  have size : s.seq.x5 = BitVec.ofNat 8 s.seq.x4.toNat := by
    rw [chunk.chunk, chunkSize, chunkMax, Nat.min_eq_right small]
  rw [chunkDone_eq, drained_x6, hlast]
  refine .inr (.inl ⟨rfl, rfl, ?_, changed⟩)
  change (drained s).log.pushes = _
  rw [words, h.drain_pushes hpc, hlast, size, List.append_assoc]

theorem microRead_drain_goesOn (h : ReadProgress a len before m s) (hpc : s.seq.pc = .rDrain) (hstep : microRead s = .next t) :
    ReadGoesOn a len before m s.seq.buf.base t := by
  by_cases hin : drainIndex s < s.seq.buf.size
  · have step := hstep
    rw [microRead_drain hpc hin] at step
    split at step <;> cases step
    next hend =>
      cases hlast : s.seq.x6
      · exact .inl (h.drain_chunk hpc hstep hlast)
      · exact h.drain_last hpc hlast
    · exact .inl (h.drain_byte hpc hstep)
  · rw [microRead_drain_outside hpc hin] at hstep
    cases hstep
    exact .inr (.inr (.inr (.inr rfl)))

/-! ### Every step -/

theorem microRead_goesOn (h : ReadProgress a len before m s) (hstep : microRead s = .next t) :
    ReadGoesOn a len before m s.seq.buf.base t := by
  have pushed := h.readPushed
  cases hpc : s.seq.pc <;> simp only [ReadPushed, hpc] at pushed
  case rStartPoll | rAddrWait | rNakTest | rNakClearRd | rLenPoll | rDataWait =>
    exact .inl (microRead_wait h (by simp [hpc]) hstep)
  case rStartPush | rLenPush =>
    obtain progress | full := microRead_push h (by simp [hpc]) hstep
    · exact .inl progress
    · exact .inr (.inr (.inr (.inl full)))
  case rNakClearWr => exact microRead_abort h hpc hstep
  case rDrain => exact microRead_drain_goesOn h hpc hstep

theorem agentStep_readGoesOn {u : Turn} (h : ReadProgress a len before m s) (hu : u ≠ .reset)
    (hstep : agentStep u s = .next t) : ReadGoesOn a len before m s.seq.buf.base t := by
  obtain bystander | ⟨hacc, -⟩ | ⟨-, -, ⟨i, hcur, hexec⟩ | ⟨hcur, -⟩⟩ := agentStep_effect hu hstep
  · exact .inl (h.bystander bystander)
  · rw [h.not_accepting] at hacc
    cases hacc
  · obtain rfl := Option.some.inj (h.state.2.symm.trans hcur)
    rw [exec_read_micro hcur h.not_accepting] at hexec
    exact microRead_goesOn h hexec
  · cases h.state.2.symm.trans hcur

end

/-- Settles O35: the micro-states of `read` and the bystanders keep the progress, and so does recording the step. -/
theorem readEmitsItsChunks : Obligations.ReadEmitsItsChunks := by
  intro a len before m s t h hsched hstep
  obtain ⟨hreset, -⟩ | ⟨v, e, u, hv, -, hagent, rfl⟩ := step_cases hstep
  · exact absurd hreset hsched
  have taken : ReadProgress a len before m { s with env := e } := h.bystander ⟨.of_same rfl rfl rfl rfl rfl, rfl⟩
  obtain progress | ended := agentStep_readGoesOn taken hv hagent
  · exact .inl (progress.bystander ⟨remember_quiet { s with env := e } u, remember_seq _ _⟩)
  · rw [remember_seq, remember_log, remember_mem]
    exact .inr ended

end Sys2Proof.Machine
end

section
/-!
Changing what a step does not look at. An overlay changes the working registers and the register file of a state. As long as it
leaves `INTR_STATE` and `CTRL` alone, the draws, what a read sees, the device and the recording of a step do the same with it and
without it.
-/
namespace Sys2Proof.Machine

/-- `s` with the working registers `q` and the register file changed by `h`. -/
def overlay (q : Sequencer) (h : RegFile → RegFile) (s : State) : State := { s with seq := q, dev.regs := h s.dev.regs }

/-- A change of the register file that the device does not notice. -/
structure Unnoticed (h : RegFile → RegFile) : Prop where
  intrState : ∀ f, (h f).intrState = f.intrState
  ctrl : ∀ f, (h f).ctrl = f.ctrl
  set_intrState : ∀ f v, h (RegFile.set f .intrState v) = RegFile.set (h f) .intrState v

section
variable (q : Sequencer) (h : RegFile → RegFile) (s : State)

/-! ### Draws -/

theorem drawWord_overlay : drawWord (overlay q h s) = ((drawWord s).1, overlay q h (drawWord s).2) := by
  rcases hnoise : s.env.noise with _ | ⟨v, rest⟩
  all_goals simp only [drawWord, overlay, hnoise]

theorem drawAck_overlay : drawAck (overlay q h s) = ((drawAck s).1, overlay q h (drawAck s).2) := by
  rcases hacks : s.env.acks with _ | ⟨v, rest⟩
  all_goals simp only [drawAck, overlay, hacks]

theorem drawByte_overlay : drawByte (overlay q h s) = ((drawByte s).1, overlay q h (drawByte s).2) := by
  rcases hbytes : s.env.rxBytes with _ | ⟨v, rest⟩
  all_goals simp only [drawByte, overlay, hbytes]

theorem drawPick_overlay : drawPick (overlay q h s) = ((drawPick s).1, overlay q h (drawPick s).2) := by
  rcases hpicks : s.env.picks with _ | ⟨v, rest⟩
  all_goals simp only [drawPick, overlay, hpicks]

theorem nextTurn_overlay : nextTurn (overlay q h s) = ((nextTurn s).1, overlay q h (nextTurn s).2) := by
  rcases hsched : s.env.sched with _ | ⟨u, rest⟩
  all_goals simp only [nextTurn, overlay, hsched]

variable {h} (hh : Unnoticed h)
include hh

/-! ### Reads -/

theorem snap_overlay : snap (overlay q h s) = snap s := by
  simp only [snap, overlay, hh.intrState]

theorem visible_overlay : visible (overlay q h s) = ((visible s).1, overlay q h (visible s).2) := by
  have cfg : (overlay q h s).cfg = s.cfg := rfl
  cases hvis : s.cfg.visibility
  · simp only [visible, cfg, hvis, snap_overlay q s hh]
  · simp only [visible, cfg, hvis, snap_overlay q s hh, drawPick_overlay]
    rfl

/-- The registers that an operation reads, apart from the enables. -/
theorem regRead_overlay {r : RegName} (hr : r = .status ∨ r = .intrState ∨ r = .rdata) :
    regRead r (overlay q h s) = overlay { q with x10 := (regRead r s).seq.x10 } h (regRead r s) := by
  obtain rfl | rfl | rfl := hr
  · simp only [regRead, readStatus, visible_overlay q s hh, drawWord_overlay]
    rfl
  · simp only [regRead, readIntrState, visible_overlay q s hh, drawWord_overlay]
    rfl
  · have rxq : (overlay q h s).dev.rxq = s.dev.rxq := rfl
    rcases hrxq : s.dev.rxq with _ | ⟨b, rest⟩
    all_goals
      simp only [regRead, readRdata, rxq, hrxq, drawWord_overlay]
      rfl

theorem remember_overlay {q' : Sequencer} {h' : RegFile → RegFile} (t : State) :
    remember (overlay q h s) (overlay q' h' t) = overlay q' h' (remember s t) := by
  have cfg : (overlay q h s).cfg = s.cfg := rfl
  cases hvis : s.cfg.visibility
  · simp only [remember, cfg, hvis]
  · simp only [remember, cfg, hvis, snap_overlay q s hh]
    rfl

/-! ### The device -/

theorem raiseFlag_overlay (c : Bool) (p : BitVec 5) : raiseFlag c p (overlay q h s) = overlay q h (raiseFlag c p s) := by
  have intrState : (overlay q h s).dev.regs.intrState = s.dev.regs.intrState := hh.intrState _
  rw [raiseFlag, intrState, raiseFlag, storeReg, storeReg, overlay, overlay, hh.set_intrState]

omit hh in
theorem observe_overlay (es : List BusEvent) : observe es (overlay q h s) = overlay q h (observe es s) := rfl

theorem receiveByte_overlay : receiveByte (overlay q h s) = overlay q h (receiveByte s) := by
  simp only [receiveByte, drawByte_overlay, observe_overlay]
  generalize observe [.rx (drawByte s).1] (drawByte s).2 = t
  change (if t.dev.rxq.length < t.cfg.rxDepth then _ else raiseFlag true t.cfg.flags.rxOverflow (overlay q h t)) = _
  rw [raiseFlag_overlay q t hh]
  split <;> rfl

theorem receiveBytes_overlay (n : Nat) : ∀ s, receiveBytes n (overlay q h s) = overlay q h (receiveBytes n s) := by
  induction n with
  | zero => exact fun _ => rfl
  | succ n ih =>
    intro s
    rw [receiveBytes, receiveByte_overlay q s hh, ih, receiveBytes]

theorem performWord_overlay (w : FmtWord) : performWord w (overlay q h s) = overlay q h (performWord w s) := by
  rw [performWord, performWord]
  split
  · simp only [receive, observe_overlay, receiveBytes_overlay q hh]
  · simp only [transmit, drawAck_overlay, observe_overlay, raiseFlag_overlay q _ hh]
    rfl

theorem deviceFlagStep_overlay (v : Word) : deviceFlagStep v (overlay q h s) = overlay q h (deviceFlagStep v s) := by
  have intrState : (overlay q h s).dev.regs.intrState = s.dev.regs.intrState := hh.intrState _
  rw [deviceFlagStep, intrState, deviceFlagStep, storeReg, storeReg, overlay, overlay, hh.set_intrState]

theorem deviceExecStep_overlay {t : State} (hstep : deviceExecStep s = .next t) :
    deviceExecStep (overlay q h s) = .next (overlay q h t) := by
  have ctrl : (overlay q h s).dev.regs.ctrl = s.dev.regs.ctrl := hh.ctrl _
  by_cases hhost : s.dev.regs.ctrl = s.cfg.ctrlHostValue
  · rcases hfmtq : s.dev.fmtq with _ | ⟨w, words⟩
    · rw [deviceExecStep_noWord hfmtq] at hstep
      cases hstep
      exact deviceExecStep_noWord hfmtq
    · rw [deviceExecStep_performs hhost hfmtq] at hstep
      cases hstep
      rw [deviceExecStep_performs (ctrl.trans hhost) hfmtq]
      exact congrArg _ (performWord_overlay q { s with dev.fmtq := words } hh w)
  · rw [deviceExecStep_noHost hhost] at hstep
    cases hstep
    exact deviceExecStep_noHost fun h => hhost (ctrl.symm.trans h)

end

/-! ### A turn -/

section
variable {s t : State} {u : Turn}

/-- A turn that is not reset: its agent, and the recording of its step. -/
theorem turnStep_agent_iff (hu : u ≠ .reset) :
    turnStep u s = .next t ↔
      (u = .present ∨ ∀ f, s.seq.pc ≠ .faulted f) ∧ ∃ v, agentStep u s = .next v ∧ t = remember s v := by
  have recorded (r : Res) : recordStep u s r = .next t ↔ ∃ v, r = .next v ∧ t = remember s v := by
    cases r with
    | next v =>
      rw [recordStep_next hu]
      simp [eq_comm]
    | fault | refused => simp [recordStep]
  by_cases hpc : ∃ f, s.seq.pc = .faulted f
  · obtain ⟨f, hpc⟩ := hpc
    rw [turnStep_faulted hpc, recorded]
    have busy : ¬ ∀ f, s.seq.pc ≠ .faulted f := fun h => h f hpc
    cases u <;> simp [faultedStep, agentStep, busy] at hu ⊢
  · have free : ∀ f, s.seq.pc ≠ .faulted f := fun f hf => hpc ⟨f, hf⟩
    rw [turnStep_agent free, recorded]
    simp [free]

theorem turnStep_reset : turnStep .reset s = .next (resetEvent s) := by
  by_cases hpc : ∃ f, s.seq.pc = .faulted f
  · obtain ⟨f, hpc⟩ := hpc
    rw [turnStep_faulted hpc]
    rfl
  · rw [turnStep_agent fun f hf => hpc ⟨f, hf⟩]
    rfl

end

end Sys2Proof.Machine
end

section
/-!
Registers that nothing reads (R214, R231, R37). Storing a word in such a register is an overlay that the device does not notice,
and no access of an operation sees it. So each step either carries the word along unchanged, or overwrites it with what it would
have stored anyway.
-/
namespace Sys2Proof.Machine

/-! ### The register file -/

theorem RegFile.eq_of_get {f g : RegFile} (h : ∀ r, RegFile.get f r = RegFile.get g r) : f = g := by
  have word {r : RegName} {a b : Word} (ha : RegFile.get f r = some a) (hb : RegFile.get g r = some b) : a = b :=
    Option.some.inj (ha.symm.trans ((h r).trans hb))
  obtain ⟨⟩ := f
  obtain ⟨⟩ := g
  simp only [RegFile.mk.injEq]
  exact ⟨word (r := .intrState) rfl rfl, word (r := .intrEnable) rfl rfl, word (r := .intrTest) rfl rfl,
    word (r := .alertTest) rfl rfl, word (r := .ctrl) rfl rfl, word (r := .fifoCtrl) rfl rfl,
    word (r := .hostFifoConfig) rfl rfl, word (r := .targetFifoConfig) rfl rfl, word (r := .hostFifoStatus) rfl rfl,
    word (r := .targetFifoStatus) rfl rfl, word (r := .ovrd) rfl rfl, word (r := .val) rfl rfl,
    word (r := .timing0) rfl rfl, word (r := .timing1) rfl rfl, word (r := .timing2) rfl rfl, word (r := .timing3) rfl rfl,
    word (r := .timing4) rfl rfl, word (r := .timeoutCtrl) rfl rfl, word (r := .targetId) rfl rfl,
    word (r := .acqdata) rfl rfl, word (r := .txdata) rfl rfl, word (r := .hostTimeoutCtrl) rfl rfl,
    word (r := .targetTimeoutCtrl) rfl rfl, word (r := .targetNackCount) rfl rfl, word (r := .targetAckCtrl) rfl rfl⟩

theorem RegFile.get_set_same (f : RegFile) (r : RegName) (v : Word) :
    RegFile.get (RegFile.set f r v) r = (RegFile.get f r).map fun _ => v := by
  cases r <;> rfl

theorem RegFile.set_comm {q r : RegName} (hqr : q ≠ r) (f : RegFile) (v w : Word) :
    RegFile.set (RegFile.set f q v) r w = RegFile.set (RegFile.set f r w) q v := by
  refine RegFile.eq_of_get fun k => ?_
  by_cases hq : k = q
  · subst hq
    rw [get_set_other _ _ _ _ hqr, get_set_same, get_set_same, get_set_other _ _ _ _ hqr]
  · rw [get_set_other _ q k _ hq]
    by_cases hr : k = r
    · subst hr
      rw [get_set_same, get_set_same, get_set_other _ _ _ _ hq]
    · rw [get_set_other _ _ _ _ hr, get_set_other _ _ _ _ hr, get_set_other _ _ _ _ hq]

theorem RegFile.set_set (f : RegFile) (r : RegName) (v w : Word) :
    RegFile.set (RegFile.set f r v) r w = RegFile.set f r w := by
  cases r <;> rfl

/-- Storing what is stored already changes nothing. -/
theorem RegFile.set_stored (f : RegFile) (r : RegName) : RegFile.set f r ((RegFile.get f r).getD 0#32) = f := by
  cases r <;> rfl

section
variable {r q : RegName} {v w x : Word} {s t : State} {i : Instr} {k : State → Res}

theorem storeReg_comm (hqr : q ≠ r) (s : State) : storeReg q x (storeReg r v s) = storeReg r v (storeReg q x s) := by
  rw [storeReg, storeReg_dev]
  dsimp only
  rw [RegFile.set_comm hqr.symm]
  rfl

theorem storeReg_storeReg (s : State) : storeReg r w (storeReg r v s) = storeReg r w s := by
  rw [storeReg, storeReg_dev]
  dsimp only
  rw [RegFile.set_set]
  rfl

theorem storeReg_stored (r : RegName) (s : State) : ∃ w, storeReg r w s = s := by
  refine ⟨(RegFile.get s.dev.regs r).getD 0#32, ?_⟩
  rw [storeReg, RegFile.set_stored]

/-! ### A hidden register -/

/-- Neither the device nor a read of `INTR_STATE` looks at the register. -/
def Hidden (r : RegName) : Prop := r ≠ .intrState ∧ r ≠ .ctrl

/-- Only `enable_interrupt` and `disable_interrupt` read the enables. -/
def EnablesUnread (r : RegName) (s : State) : Prop :=
  r ≠ .intrEnable ∨ ∀ sel, s.seq.cur ≠ some (.enableInterrupt sel) ∧ s.seq.cur ≠ some (.disableInterrupt sel)

theorem Hidden.unnoticed (hr : Hidden r) (v : Word) : Unnoticed fun f => RegFile.set f r v where
  intrState f := Option.some.inj (RegFile.get_set_other f r .intrState v hr.1.symm)
  ctrl f := Option.some.inj (RegFile.get_set_other f r .ctrl v hr.2.symm)
  set_intrState f w := RegFile.set_comm hr.1.symm f w v

theorem storeReg_eq_overlay (r : RegName) (v : Word) (s : State) :
    storeReg r v s = overlay s.seq (fun f => RegFile.set f r v) s := rfl

theorem regRead_storeReg (hr : Hidden r) (hq : q = .status ∨ q = .intrState ∨ q = .rdata) (v : Word) (s : State) :
    regRead q (storeReg r v s) = storeReg r v (regRead q s) := by
  rw [storeReg_eq_overlay, regRead_overlay _ _ (hr.unnoticed v) hq, ← regRead_seq]
  rfl

theorem regRead_intrEnable_storeReg (hr : r ≠ .intrEnable) (v : Word) :
    regRead .intrEnable (storeReg r v s) = storeReg r v (regRead .intrEnable s) := by
  have stored : (RegFile.set s.dev.regs r v).intrEnable = s.dev.regs.intrEnable :=
    Option.some.inj (RegFile.get_set_other s.dev.regs r .intrEnable v hr.symm)
  rw [regRead_intrEnable, regRead_intrEnable, storeReg_dev]
  dsimp only
  rw [stored]
  rfl

/-! ### Steps that do not see the register -/

/-- An outcome with its next state changed. -/
def mapNext (f : State → State) : Res → Res
  | .next t => .next (f t)
  | .fault x => .fault x
  | .refused x => .refused x

/-- The step `k` does not see register `r` of `s`: whatever it holds, the step is the same but for what `r` holds after it. -/
def Oblivious (r : RegName) (k : State → Res) (s : State) : Prop :=
  ∀ (v : Word) (t : State), k s = .next t → ∃ w, k (storeReg r v s) = .next (storeReg r w t)

/-- A step that carries the word along. -/
theorem Oblivious.of_carries (h : ∀ v, k (storeReg r v s) = mapNext (storeReg r v) (k s)) : Oblivious r k s := by
  intro v t hstep
  refine ⟨v, ?_⟩
  rw [h, hstep, mapNext]

/-- A step that overwrites the word. -/
theorem Oblivious.of_overwrites (h : ∀ v, k (storeReg r v s) = k s) : Oblivious r k s := by
  intro v t hstep
  obtain ⟨w, hw⟩ := storeReg_stored r t
  exact ⟨w, by rw [h, hstep, hw]⟩

/-- A plain store of a word computed without looking at the register file. -/
theorem Oblivious.of_store {x : State → Word} (hx : ∀ v, x (storeReg r v s) = x s)
    (hk : ∀ v u, k (storeReg r v u) = mapNext (storeReg r v) (k u)) :
    Oblivious r (fun s => k (storeReg q (x s) s)) s := by
  by_cases hqr : q = r
  · subst hqr
    refine .of_overwrites fun v => ?_
    rw [hx, storeReg_storeReg]
  · refine .of_carries fun v => ?_
    rw [hx, storeReg_comm hqr, hk]

theorem Oblivious.congr {k' : State → Res} (h : Oblivious r k s) (hk : ∀ u, k' u = k u) : Oblivious r k' s := by
  obtain rfl : k' = k := funext hk
  exact h

/-! ### Acceptances and the device -/

theorem acceptance_storeReg (i : Instr) (r : RegName) (v : Word) (s : State) :
    acceptance i (storeReg r v s) = mapNext (storeReg r v) (acceptance i s) := by
  have access (j : Instr) (valid : Bool) :
      acceptAccess j valid (storeReg r v s) = mapNext (storeReg r v) (acceptAccess j valid s) := by
    cases valid <;> rfl
  cases i
  case setSpeed khz =>
    rw [acceptance, acceptance, acceptSetSpeed, acceptSetSpeed]
    change (if khz = 0#32 then _ else if noPeriod s.cfg then _ else _) = _
    split_ifs <;> rfl
  case write a skip len =>
    simp only [acceptance, acceptWrite]
    split_ifs <;> rfl
  case read a len =>
    simp only [acceptance, acceptRead]
    split_ifs <;> rfl
  case interruptAsserted | clearInterrupt | enableInterrupt | disableInterrupt | statusTest => exact access _ _
  all_goals rfl

theorem performWord_storeReg (hr : Hidden r) (w : FmtWord) (v : Word) (s : State) :
    performWord w (storeReg r v s) = storeReg r v (performWord w s) := by
  rw [storeReg_eq_overlay, performWord_overlay _ _ (hr.unnoticed v), ← (performWord_sparesSequencer w s).seq]
  rfl

/-! ### Accesses of an operation -/

theorem testMicro_oblivious (hr : Hidden r) (hq : q = .status ∨ q = .intrState ∨ q = .rdata) (test : Word → Bool) :
    Oblivious r (testMicro q test) s := by
  refine .of_carries fun v => ?_
  rw [testMicro, testMicro, storeReg_seq]
  cases s.seq.pc
  case accRd =>
    simp only [regRead_storeReg hr hq]
    rfl
  all_goals rfl

theorem pollFull_storeReg (hr : Hidden r) (stay next : Pc) (v : Word) (s : State) :
    pollFull stay next (storeReg r v s) = mapNext (storeReg r v) (pollFull stay next s) := by
  rw [pollFull_eq, pollFull_eq, regRead_storeReg hr (.inl rfl)]
  rfl

theorem returnTo_storeReg (p : Pc) (v : Word) (s : State) : returnTo p (storeReg r v s) = storeReg r v (returnTo p s) := by
  rw [returnTo, returnTo]
  split <;> rfl

theorem blockingPushStep_storeReg (hr : Hidden r) (w : FmtWord) {also : State → State}
    (halso : ∀ u, also (storeReg r v u) = storeReg r v (also u)) (s : State) :
    blockingPushStep w also (storeReg r v s) = mapNext (storeReg r v) (blockingPushStep w also s) := by
  have poll (stay next : Pc) := pollFull_storeReg hr stay next v { s with seq.x7 := w }
  have push : pushStep w also (storeReg r v s) = mapNext (storeReg r v) (pushStep w also s) := by
    rw [pushStep, pushStep, withWrite_fdata, withWrite_fdata]
    change (if s.dev.fmtq.length < s.cfg.fmtDepth then
      Host.Outcome.next (also (returnTo (returnPoint s) (storeReg r v (withPush w s)))) else _) = _
    rw [returnTo_storeReg, halso]
    split_ifs <;> rfl
  rw [blockingPushStep, blockingPushStep, storeReg_seq]
  cases s.seq.pc
  case wStartPoll | wDataPoll | rStartPoll | rLenPoll => exact poll _ _
  case wStartPush | wDataPush | rStartPush | rLenPush => exact push
  all_goals rfl

theorem microWrite_storeReg (hr : Hidden r) (v : Word) (s : State) :
    microWrite (storeReg r v s) = mapNext (storeReg r v) (microWrite s) := by
  cases hpc : s.seq.pc
  case wDataPush =>
    by_cases hin : s.seq.x3.toNat < s.seq.buf.size
    · rw [microWrite_dataPush hpc hin, microWrite_dataPush (by exact hpc) (by exact hin)]
      exact blockingPushStep_storeReg hr _ (by intro; rfl) s
    · rw [microWrite_dataPush_outside hpc hin, microWrite_dataPush_outside (by exact hpc) (by exact hin)]
      rfl
  case wStartPoll | wStartPush | wDataPoll =>
    rw [microWrite, microWrite, storeReg_seq, hpc]
    exact blockingPushStep_storeReg hr _ (by intro; rfl) s
  all_goals
    rw [microWrite, microWrite, storeReg_seq, hpc]
    rfl

theorem drained_storeReg (hr : Hidden r) (v : Word) (s : State) : drained (storeReg r v s) = storeReg r v (drained s) := by
  rw [drained, regRead_storeReg hr (.inr (.inr rfl))]
  rfl

theorem chunkDone_storeReg (v : Word) (s : State) : chunkDone (storeReg r v s) = storeReg r v (chunkDone s) := by
  rw [chunkDone_eq, chunkDone_eq, storeReg_seq]
  split <;> rfl

theorem microRead_storeReg (hr : Hidden r) (v : Word) (s : State) :
    microRead (storeReg r v s) = mapNext (storeReg r v) (microRead s) := by
  have status := regRead_storeReg hr (q := .status) (.inl rfl) v s
  have intrState := regRead_storeReg hr (q := .intrState) (.inr (.inl rfl)) v s
  have rdata := regRead_storeReg hr (q := .rdata) (.inr (.inr rfl)) v s
  cases hpc : s.seq.pc
  case rStartPoll | rStartPush | rLenPoll | rLenPush =>
    rw [microRead, microRead, storeReg_seq, hpc]
    exact blockingPushStep_storeReg hr _ (by intro; rfl) s
  case rAddrWait =>
    rw [microRead_addrWait hpc, microRead_addrWait (by exact hpc), status]
    rfl
  case rNakTest =>
    rw [microRead_nakTest hpc, microRead_nakTest (by exact hpc), intrState, storeReg_seq, storeReg_cfg]
    split <;> rfl
  case rNakClearRd =>
    rw [microRead_nakClearRd hpc, microRead_nakClearRd (by exact hpc), intrState]
    rfl
  case rNakClearWr =>
    rw [microRead, microRead, storeReg_seq, hpc]
    dsimp only
    rw [nakClear, nakClear, withWrite_intrState, withWrite_intrState, storeReg_comm hr.1.symm]
    rfl
  case rDataWait =>
    rw [microRead_dataWait hpc, microRead_dataWait (by exact hpc), status, storeReg_seq]
    split <;> rfl
  case rDrain =>
    by_cases hin : drainIndex s < s.seq.buf.size
    · rw [microRead_drain hpc hin, microRead_drain (by exact hpc) (by exact hin), drained_storeReg hr, chunkDone_storeReg,
        storeReg_seq]
      split <;> rfl
    · rw [microRead_drain_outside hpc hin, microRead_drain_outside (by exact hpc) (by exact hin), rdata]
      rfl
  all_goals
    rw [microRead, microRead, storeReg_seq, hpc]
    rfl

/-! ### The other micro-states -/

theorem modifyMicro_oblivious {modify : Word → Word} (hread : ∀ v, regRead q (storeReg r v s) = storeReg r v (regRead q s))
    (stores : ∀ x u k, withWrite q x u k = k (storeReg q x u)) : Oblivious r (modifyMicro q modify) s := by
  cases hpc : s.seq.pc
  case accRd =>
    refine .of_carries fun v => ?_
    rw [modifyMicro, modifyMicro, storeReg_seq, hpc]
    exact congrArg (goto .accWr) (hread v)
  case accWr =>
    have writes (u : State) (hu : u.seq.pc = .accWr) :
        modifyMicro q modify u = .next (completed (storeReg q (modify u.seq.x10) u)) := by
      rw [modifyMicro, hu]
      exact stores _ _ _
    intro v t hstep
    rw [writes s hpc] at hstep
    rw [writes (storeReg r v s) hpc]
    exact Oblivious.of_store (k := fun u => .next (completed u)) (x := fun u => modify u.seq.x10) (fun _ => rfl)
      (fun _ _ => rfl) v t hstep
  all_goals
    intro v t hstep
    rw [modifyMicro, hpc] at hstep
    cases hstep

/-- The one access of a configuration operation, with whatever it does besides to the queues. -/
theorem configure_oblivious {x : State → Word} (hx : ∀ v, x (storeReg r v s) = x s) {also : State → State}
    (halso : ∀ v u, also (storeReg r v u) = storeReg r v (also u))
    (writes : ∀ u : State, u.seq.pc = .cfWr → k u = .next (also (storeReg q (x u) u)))
    (refuses : s.seq.pc ≠ .cfWr → ∀ t, k s ≠ .next t) : Oblivious r k s := by
  intro v t hstep
  by_cases hpc : s.seq.pc = .cfWr
  · rw [writes s hpc] at hstep
    rw [writes (storeReg r v s) hpc]
    refine Oblivious.of_store (k := fun u => .next (also u)) (x := x) hx (fun v u => ?_) v t hstep
    rw [halso]
    rfl
  · exact absurd hstep (refuses hpc t)

theorem microSetSpeed_oblivious (khz : Word) : Oblivious r (microSetSpeed khz) s := by
  cases hpc : s.seq.pc
  case tsCalc =>
    refine .of_carries fun v => ?_
    rw [microSetSpeed, microSetSpeed, storeReg_seq, hpc]
    dsimp only
    rw [calculateTiming, calculateTiming]
    change (if noPeriod s.cfg then _ else if clampOverflows (rawCounts s.cfg (busMode khz)) then _ else _) = _
    split_ifs <;> rfl
  case tsWr j =>
    intro v t hstep
    rw [microSetSpeed, hpc] at hstep
    rw [microSetSpeed, storeReg_seq, hpc]
    dsimp only at hstep ⊢
    rw [writeTiming_eq] at hstep ⊢
    refine Oblivious.of_store (q := timingReg j) (x := fun u => timingWord u.cfg u.seq.tp j)
      (k := fun u => if h : j.val + 1 < 5 then goto (.tsWr ⟨j.val + 1, h⟩) u else .next (completed u)) (fun _ => rfl)
      (fun _ _ => ?_) v t hstep
    split <;> rfl
  all_goals
    intro v t hstep
    rw [microSetSpeed, hpc] at hstep
    cases hstep

/-! ### Every instruction -/

theorem operation_oblivious {accept micro : State → Res} (haccept : ∀ u, accept u = acceptance i u)
    (hmicro : s.seq.cur = some i → Oblivious r micro s) : Oblivious r (operation i accept micro) s := by
  intro v t hstep
  obtain ⟨hacc, h⟩ | ⟨hacc, hcur, h⟩ := operation_next _ _ _ _ _ hstep
  · rw [operation_accept _ _ _ _ (by exact hacc), haccept, acceptance_storeReg, ← haccept, h]
    exact ⟨v, rfl⟩
  · obtain ⟨w, hw⟩ := hmicro hcur v t h
    exact ⟨w, by rw [operation_micro _ _ _ _ (by exact hacc) (by exact hcur), hw]⟩

theorem exec_oblivious (hr : Hidden r) (henable : EnablesUnread r s) :
    Oblivious r (exec i) s := by
  have intrState (v : Word) := regRead_storeReg hr (q := .intrState) (.inr (.inl rfl)) v s
  cases i
  case resetFifos =>
    refine operation_oblivious (fun _ => rfl) fun _ => ?_
    refine configure_oblivious (q := .fifoCtrl) (x := fun u => u.cfg.fifoResetValue) (fun _ => rfl)
      (also := fun u => completed { u with dev := { u.dev with fmtq := [], rxq := [] } }) (fun _ _ => rfl) (fun u hu => ?_)
      (fun hpc t ht => hpc (configure_next_pc ht))
    exact (configure_cfWr hu).trans (withWrite_fifoReset _ _)
  case setHostMode =>
    refine operation_oblivious (fun _ => rfl) fun _ => ?_
    refine configure_oblivious (q := .ctrl) (x := fun u => u.cfg.ctrlHostValue) (fun _ => rfl) (also := completed)
      (fun _ _ => rfl) (fun u hu => ?_) (fun hpc t ht => hpc (configure_next_pc ht))
    exact (configure_cfWr hu).trans (withWrite_ctrl _ _ _)
  case setHostThresholds fmt rx =>
    refine operation_oblivious (fun _ => rfl) fun _ => ?_
    refine configure_oblivious (q := .hostFifoConfig) (x := fun u => thresholdWord u.cfg fmt rx) (fun _ => rfl)
      (also := fun u => completed { u with seq.x10 := thresholdWord u.cfg fmt rx }) (fun _ _ => rfl) (fun u hu => ?_)
      (fun hpc t ht => hpc (configure_next_pc (s := { s with seq.x10 := thresholdWord s.cfg fmt rx }) ht))
    exact (configure_cfWr (by exact hu)).trans (withWrite_hostFifoConfig _ _ _)
  case setSpeed khz => exact operation_oblivious (fun _ => rfl) fun _ => microSetSpeed_oblivious khz
  case write a skip len =>
    exact operation_oblivious (fun _ => rfl) fun _ => .of_carries fun v => microWrite_storeReg hr v s
  case read a len => exact operation_oblivious (fun _ => rfl) fun _ => .of_carries fun v => microRead_storeReg hr v s
  case interruptAsserted sel => exact operation_oblivious (fun _ => rfl) fun _ => testMicro_oblivious hr (.inr (.inl rfl)) _
  case statusTest sel => exact operation_oblivious (fun _ => rfl) fun _ => testMicro_oblivious hr (.inl rfl) _
  case clearInterrupt sel =>
    exact operation_oblivious (fun _ => rfl) fun _ => modifyMicro_oblivious intrState withWrite_intrState
  case enableInterrupt sel =>
    refine operation_oblivious (fun _ => rfl) fun hcur => modifyMicro_oblivious (regRead_intrEnable_storeReg ?_) withWrite_intrEnable
    exact henable.resolve_right fun h => (h sel).1 hcur
  case disableInterrupt sel =>
    refine operation_oblivious (fun _ => rfl) fun hcur => modifyMicro_oblivious (regRead_intrEnable_storeReg ?_) withWrite_intrEnable
    exact henable.resolve_right fun h => (h sel).2 hcur
  case unassigned11 | unassigned12 | unassigned13 | unassigned14 | unassigned15 =>
    exact fun v t hstep => absurd hstep refuseSelectCode_ne_next
  case addrW | addrR | data | dataStop | rdlen | rdlenStop =>
    exact .of_carries fun v => congrArg Host.Outcome.next (performWord_storeReg hr _ v s)
  case blockingPush w => exact .of_carries fun v => blockingPushStep_storeReg hr w (by intro; rfl) s

/-! ### Every agent -/

theorem presentStep_oblivious (r : RegName) (s : State) : Oblivious r presentStep s := by
  refine .of_carries fun v => ?_
  rcases hport : s.port with _ | ⟨q, rest⟩
  · rw [presentStep_nothing hport, presentStep_nothing (by exact hport)]
    rfl
  cases hacc : s.seq.pc.accepting
  · rw [presentStep_busy hport hacc, presentStep_busy (by exact hport) (by exact hacc)]
    rfl
  have carried := acceptance_storeReg (decodeRequest q.record) r v { s with port := rest, seq.buf := q.buf }
  obtain ⟨t, ht, -⟩ | ⟨x, hx⟩ := acceptance_kept (decodeRequest q.record) { s with port := rest, seq.buf := q.buf }
  · rw [ht] at carried
    rw [presentStep_acceptance hport hacc ht, presentStep_acceptance (by exact hport) (by exact hacc) carried]
    rfl
  · rw [hx] at carried
    rw [presentStep_refusal hport hacc hx, presentStep_refusal (by exact hport) (by exact hacc) carried]
    rfl

theorem sequencerStep_oblivious (hr : Hidden r) (henable : EnablesUnread r s) :
    Oblivious r sequencerStep s := by
  intro v t hstep
  cases hacc : s.seq.pc.accepting
  · rcases hcur : s.seq.cur with _ | i
    · rw [sequencerStep_primitive hacc hcur] at hstep
      rw [sequencerStep_primitive (by exact hacc) (by exact hcur)]
      exact exec_oblivious hr henable v t hstep
    · rw [sequencerStep_micro hacc hcur] at hstep
      rw [sequencerStep_micro (by exact hacc) (by exact hcur)]
      exact exec_oblivious hr henable v t hstep
  · rw [sequencerStep_accepting hacc] at hstep
    rw [sequencerStep_accepting (by exact hacc)]
    exact presentStep_oblivious r s v t hstep

theorem deviceWordStep_oblivious (r q : RegName) (x : Word) (s : State) :
    Oblivious r (fun s => .next (deviceWordStep q x s)) s := by
  by_cases hq : q.unused = true
  · have stores (u : State) : Host.Outcome.next (deviceWordStep q x u) = (.next (storeReg q x u) : Res) := by
      rw [deviceWordStep, if_pos hq]
    exact (Oblivious.of_store (q := q) (x := fun _ => x) (k := .next) (fun _ => rfl) (fun _ _ => rfl)).congr stores
  · have stays (u : State) : Host.Outcome.next (deviceWordStep q x u) = (.next u : Res) := by
      rw [deviceWordStep, if_neg hq]
    exact (Oblivious.of_carries (k := .next) fun _ => rfl).congr stays

theorem agentStep_oblivious {u : Turn} (hr : Hidden r) (hu : u ≠ .reset) (henable : EnablesUnread r s) :
    Oblivious r (agentStep u) s := by
  cases u with
  | seq => exact sequencerStep_oblivious hr henable
  | present => exact presentStep_oblivious r s
  | devExec =>
    intro v t hstep
    refine ⟨v, (deviceExecStep_overlay s.seq s (hr.unnoticed v) hstep).trans ?_⟩
    rw [← (deviceExecStep_sparesSequencer hstep).seq]
    rfl
  | devFlag x => exact .of_carries fun v => congrArg Host.Outcome.next (deviceFlagStep_overlay s.seq s (hr.unnoticed v) x)
  | devWord q x => exact deviceWordStep_oblivious r q x s
  | reset => exact absurd rfl hu

/-- Reset draws every register anew (R252). -/
theorem resetEvent_storeReg (r : RegName) (v : Word) (s : State) : resetEvent (storeReg r v s) = resetEvent s := rfl

theorem turnStep_oblivious {u : Turn} (hr : Hidden r) (henable : EnablesUnread r s) :
    Oblivious r (turnStep u) s := by
  by_cases hu : u = .reset
  · subst hu
    refine .of_overwrites fun v => ?_
    rw [turnStep_reset, turnStep_reset, resetEvent_storeReg]
  · intro v t hstep
    obtain ⟨hpc, t', hagent, rfl⟩ := (turnStep_agent_iff hu).mp hstep
    obtain ⟨w, hw⟩ := agentStep_oblivious hr hu henable v t' hagent
    refine ⟨w, (turnStep_agent_iff hu).mpr ⟨hpc, _, hw, ?_⟩⟩
    have recorded := remember_overlay s.seq s (hr.unnoticed v) (q' := t'.seq) (h' := fun f => RegFile.set f r w) t'
    rw [storeReg_eq_overlay, remember_seq]
    exact recorded.symm

end

/-- The registers of the statement are hidden. -/
theorem hidden_of_listed {r : RegName} (hr : r.unused = true ∨
    r ∈ [.timing0, .timing1, .timing2, .timing3, .timing4, .hostFifoConfig, .fifoCtrl]) : Hidden r ∧ r ≠ .intrEnable := by
  obtain hr | hr := hr
  · refine ⟨⟨?_, ?_⟩, ?_⟩ <;> rintro rfl <;> cases hr
  · refine ⟨⟨?_, ?_⟩, ?_⟩ <;> rintro rfl <;> simp at hr

/-- Settles O59: taking the turn does not look at the register file, and no turn's step sees a hidden register. -/
theorem registersWithoutEffect : Obligations.RegistersWithoutEffect := by
  intro r v s t hr hstep
  obtain ⟨e, taken⟩ := nextTurn_state s
  have oblivious : Oblivious r (turnStep (nextTurn s).1) (nextTurn s).2 := by
    rw [taken]
    obtain hr | hr | ⟨rfl, henable⟩ := hr
    · obtain ⟨hidden, hne⟩ := hidden_of_listed (.inl hr)
      exact turnStep_oblivious hidden (.inl hne)
    · obtain ⟨hidden, hne⟩ := hidden_of_listed (.inr hr)
      exact turnStep_oblivious hidden (.inl hne)
    · exact turnStep_oblivious ⟨nofun, nofun⟩ (.inr henable)
  obtain ⟨w, hw⟩ := oblivious v t hstep
  refine ⟨w, ?_⟩
  rw [step, storeReg_eq_overlay r v, nextTurn_overlay]
  rw [taken] at hw ⊢
  exact hw

end Sys2Proof.Machine
end

section
/-!
Working registers are written before they are read (R39, R254). A step in a state with other working registers follows the step in
the state itself, micro-state by micro-state: both are the same equation, whose right sides differ in nothing but registers that
`sameLive` leaves open.
-/
namespace Sys2Proof.Machine

section
variable {s t u : State} {r : Sequencer} {i : Instr} {a b : Res} {stay go : Pc} {q : RegName}

/-- Where `a` has a next state, `b` has the same but for working registers that the operation will not read first. -/
def Follows (a b : Res) : Prop :=
  ∀ t, a = .next t → ∃ r', b = .next { t with seq := r' } ∧ Sequencer.sameLive t.seq r'

theorem Follows.next (h : u = { t with seq := u.seq }) (live : Sequencer.sameLive t.seq u.seq) :
    Follows (.next t) (.next u) := by
  rintro _ ⟨⟩
  exact ⟨u.seq, congrArg _ h, live⟩

/-- A step without a next state has nothing to be followed in. -/
theorem Follows.of_refused {x : Refusal} (h : a = .refused x) : Follows a b := by
  intro t ht
  rw [h] at ht
  cases ht

theorem unnoticed_id : Unnoticed id := ⟨fun _ => rfl, fun _ => rfl, fun _ _ => rfl⟩

/-- A read leaves the two states alike but for their working registers, and the same value in `x10`. -/
theorem regRead_alike (hq : q = .status ∨ q = .intrState ∨ q = .rdata) (s : State) (r : Sequencer) :
    ∃ (u : State) (v : Word), regRead q s = { u with seq := { s.seq with x10 := v } } ∧
      regRead q { s with seq := r } = { u with seq := { r with x10 := v } } := by
  refine ⟨regRead q s, (regRead q s).seq.x10, ?_, ?_⟩
  · rw [← regRead_seq]
  · exact regRead_overlay r s unnoticed_id hq

/-! ### Polls and pushes (R142) -/

theorem pollFull_follows
    (live : ∀ p v, p = stay ∨ p = go → Sequencer.sameLive { s.seq with pc := p, x10 := v } { r with pc := p, x10 := v }) :
    Follows (pollFull stay go s) (pollFull stay go { s with seq := r }) := by
  obtain ⟨u, v, e, e'⟩ := regRead_alike (.inl rfl) s r
  rw [pollFull_eq, pollFull_eq, e, e']
  exact .next rfl (live _ _ (ite_eq_or_eq _ _ _))

/-! ### `write` (R146) -/

theorem microWrite_follows (live : Sequencer.sameLive s.seq r) : Follows (microWrite s) (microWrite { s with seq := r }) := by
  cases hpc : s.seq.pc <;> simp only [Sequencer.sameLive, hpc] at live
  case wStartPoll =>
    obtain ⟨⟨pc, cur, buf, x9⟩, rest⟩ := live
    rw [microWrite_startPoll hpc, microWrite_startPoll (s := { s with seq := r }) pc.symm]
    refine pollFull_follows fun p v hp => ?_
    obtain rfl | rfl := hp <;> exact ⟨⟨rfl, cur, buf, x9⟩, rest⟩
  case wDataPoll =>
    obtain ⟨⟨pc, cur, buf, x9⟩, rest⟩ := live
    rw [microWrite_dataPoll hpc, microWrite_dataPoll (s := { s with seq := r }) pc.symm]
    refine pollFull_follows fun p v hp => ?_
    obtain rfl | rfl := hp <;> exact ⟨⟨rfl, cur, buf, x9⟩, rest⟩
  case wStartPush =>
    obtain ⟨⟨pc, cur, buf, x9⟩, x1, x2, x7⟩ := live
    by_cases hroom : s.dev.fmtq.length < s.cfg.fmtDepth
    · rw [microWrite_startPush hpc hroom, microWrite_startPush (s := { s with seq := r }) pc.symm hroom, x7]
      exact .next rfl ⟨⟨rfl, cur, buf, x9⟩, x1, x2, rfl⟩
    · rw [microWrite_startPush_full hpc hroom, microWrite_startPush_full (s := { s with seq := r }) pc.symm hroom]
      exact .next rfl ⟨⟨rfl, rfl, buf, x9⟩, trivial⟩
  case wDataPush =>
    obtain ⟨⟨pc, cur, buf, x9⟩, x1, x2, x3⟩ := live
    have word : currentDataWord { s with seq := r } = currentDataWord s := by
      simp only [currentDataWord, lastDataWord, bufAddress, x1, x2, x3, buf]
    have last : lastDataWord { s with seq := r } = lastDataWord s := by
      simp only [lastDataWord, x1, x3]
    by_cases hin : s.seq.x3.toNat < s.seq.buf.size
    · have hin' : r.x3.toNat < r.buf.size := by rwa [← x3, ← buf]
      by_cases hroom : s.dev.fmtq.length < s.cfg.fmtDepth
      · rw [microWrite_dataPush_room hpc hin hroom, microWrite_dataPush_room (s := { s with seq := r }) pc.symm hin' hroom,
          word, last]
        cases lastDataWord s
        · exact .next rfl ⟨⟨rfl, cur, buf, x9⟩, x1, x2, congrArg (· + 1#32) x3⟩
        · exact .next rfl ⟨⟨rfl, rfl, buf, x9⟩, trivial⟩
      · rw [microWrite_dataPush_full hpc hin hroom, microWrite_dataPush_full (s := { s with seq := r }) pc.symm hin' hroom]
        exact .next rfl ⟨⟨rfl, rfl, buf, x9⟩, trivial⟩
    · have hin' : ¬ r.x3.toNat < r.buf.size := by rwa [← x3, ← buf]
      rw [microWrite_dataPush_outside hpc hin, microWrite_dataPush_outside (s := { s with seq := r }) pc.symm hin']
      exact .next rfl ⟨⟨rfl, rfl, buf, x9⟩, trivial⟩
  all_goals
    intro t hstep
    rw [microWrite, hpc] at hstep
    cases hstep

/-! ### `read` (R154) -/

theorem microRead_push_follows (hpc : s.seq.pc = .rStartPush ∨ s.seq.pc = .rLenPush)
    (live : Sequencer.sameLive s.seq r) : Follows (microRead s) (microRead { s with seq := r }) := by
  by_cases hroom : s.dev.fmtq.length < s.cfg.fmtDepth
  · obtain hpc | hpc := hpc <;> simp only [Sequencer.sameLive, hpc] at live
    · obtain ⟨⟨pc, cur, buf, x9⟩, x0, x3, x4, x7⟩ := live
      rw [microRead_startPush hpc hroom, microRead_startPush (s := { s with seq := r }) pc.symm hroom, x7]
      exact .next rfl ⟨⟨rfl, cur, buf, x9⟩, x0, x3, x4⟩
    · obtain ⟨⟨pc, cur, buf, x9⟩, x0, x3, x4, x5, x6, x7⟩ := live
      rw [microRead_lenPush hpc hroom, microRead_lenPush (s := { s with seq := r }) pc.symm hroom, x7]
      exact .next rfl ⟨⟨rfl, cur, buf, x9⟩, x0, x3, x4, x5, x6⟩
  · obtain ⟨pc, cur, buf, x9⟩ := live.1
    rw [microRead_push_full hpc hroom, microRead_push_full (s := { s with seq := r }) (by rwa [← pc]) hroom]
    exact .next rfl ⟨⟨rfl, rfl, buf, x9⟩, trivial⟩

/-- A byte drained in the two states: stored at the same place (R152). -/
theorem drained_alike (x3 : s.seq.x3 = r.x3) (x8 : s.seq.x8 = r.x8) (buf : s.seq.buf = r.buf) :
    ∃ (u : State) (v : Word), drained s = { u with seq := { s.seq with x8 := s.seq.x8 + 1#8, x10 := v } } ∧
      drained { s with seq := r } = { u with seq := { r with x8 := s.seq.x8 + 1#8, x10 := v } } := by
  obtain ⟨u, v, e, e'⟩ := regRead_alike (q := .rdata) (.inr (.inr rfl)) s r
  refine ⟨{ u with mem := Memory.write s.mem (s.seq.buf.base + drainIndex s) (rdataByte v) }, v, ?_, ?_⟩
  · rw [drained, e]
  · have index : drainIndex { s with seq := r } = drainIndex s := by simp only [drainIndex, x3, x8]
    rw [drained, e', index, x8, buf]

/-- The end of a chunk: the counters that it reads are the same (R148, R154). -/
theorem chunkDone_follows {u : State} {l r : Sequencer} (cur : l.cur = r.cur) (buf : l.buf = r.buf) (x9 : l.x9 = r.x9)
    (x0 : l.x0 = r.x0) (x3 : l.x3 = r.x3) (x4 : l.x4 = r.x4) (x5 : l.x5 = r.x5) (x6 : l.x6 = r.x6) :
    Follows (.next (chunkDone { u with seq := l })) (.next (chunkDone { u with seq := r })) := by
  rw [chunkDone_eq, chunkDone_eq]
  dsimp only
  rw [x6]
  cases r.x6
  · refine .next rfl ⟨⟨rfl, cur, buf, x9⟩, x0, ?_, ?_, congrArg (addressWord · true) x0⟩
    · exact congrArg₂ (fun x y => x + y.setWidth 32) x3 x5
    · exact congrArg₂ (fun x y => x - y.setWidth 32) x4 x5
  · exact .next rfl ⟨⟨rfl, rfl, buf, rfl⟩, trivial⟩

theorem microRead_drain_follows (hpc : s.seq.pc = .rDrain) (live : Sequencer.sameLive s.seq r) :
    Follows (microRead s) (microRead { s with seq := r }) := by
  simp only [Sequencer.sameLive, hpc] at live
  obtain ⟨⟨pc, cur, buf, x9⟩, x0, x3, x4, x5, x6, x8⟩ := live
  have index : drainIndex { s with seq := r } = drainIndex s := by simp only [drainIndex, x3, x8]
  by_cases hin : drainIndex s < s.seq.buf.size
  · have hin' : drainIndex { s with seq := r } < r.buf.size := by rwa [index, ← buf]
    obtain ⟨u, v, e, e'⟩ := drained_alike x3 x8 buf
    rw [microRead_drain hpc hin, microRead_drain (s := { s with seq := r }) pc.symm hin', e, e']
    by_cases hend : s.seq.x8 + 1#8 = s.seq.x5
    · have hend' : r.x8 + 1#8 = r.x5 := by rwa [← x8, ← x5]
      rw [if_pos hend, if_pos hend']
      exact chunkDone_follows cur buf x9 x0 x3 x4 x5 x6
    · have hend' : ¬ r.x8 + 1#8 = r.x5 := by rwa [← x8, ← x5]
      rw [if_neg hend, if_neg hend']
      exact .next rfl ⟨⟨hpc.trans pc, cur, buf, x9⟩, by simp only [hpc]; exact ⟨x0, x3, x4, x5, x6, trivial⟩⟩
  · have hin' : ¬ drainIndex { s with seq := r } < r.buf.size := by rwa [index, ← buf]
    obtain ⟨u, v, e, e'⟩ := regRead_alike (q := .rdata) (.inr (.inr rfl)) s r
    rw [microRead_drain_outside hpc hin, microRead_drain_outside (s := { s with seq := r }) pc.symm hin', e, e']
    exact .next rfl ⟨⟨rfl, rfl, buf, x9⟩, trivial⟩

theorem microRead_follows (live : Sequencer.sameLive s.seq r) : Follows (microRead s) (microRead { s with seq := r }) := by
  have status := regRead_alike (q := .status) (.inl rfl) s r
  have intrState := regRead_alike (q := .intrState) (.inr (.inl rfl)) s r
  cases hpc : s.seq.pc
  case rStartPush => exact microRead_push_follows (.inl hpc) live
  case rLenPush => exact microRead_push_follows (.inr hpc) live
  case rDrain => exact microRead_drain_follows hpc live
  all_goals simp only [Sequencer.sameLive, hpc] at live
  case rStartPoll =>
    obtain ⟨⟨pc, cur, buf, x9⟩, rest⟩ := live
    rw [microRead_startPoll hpc, microRead_startPoll (s := { s with seq := r }) pc.symm]
    refine pollFull_follows fun p v hp => ?_
    obtain rfl | rfl := hp <;> exact ⟨⟨rfl, cur, buf, x9⟩, rest⟩
  case rLenPoll =>
    obtain ⟨⟨pc, cur, buf, x9⟩, rest⟩ := live
    rw [microRead_lenPoll hpc, microRead_lenPoll (s := { s with seq := r }) pc.symm]
    refine pollFull_follows fun p v hp => ?_
    obtain rfl | rfl := hp <;> exact ⟨⟨rfl, cur, buf, x9⟩, rest⟩
  case rAddrWait =>
    obtain ⟨⟨pc, cur, buf, x9⟩, rest⟩ := live
    obtain ⟨u, v, e, e'⟩ := status
    rw [microRead_addrWait hpc, microRead_addrWait (s := { s with seq := r }) pc.symm, e, e']
    dsimp only
    split <;> exact .next rfl ⟨⟨rfl, cur, buf, x9⟩, rest⟩
  case rNakTest =>
    obtain ⟨⟨pc, cur, buf, x9⟩, x0, x3, x4⟩ := live
    obtain ⟨u, v, e, e'⟩ := intrState
    rw [microRead_nakTest hpc, microRead_nakTest (s := { s with seq := r }) pc.symm, e, e']
    dsimp only
    split
    · exact .next rfl ⟨⟨rfl, cur, buf, x9⟩, trivial⟩
    · refine .next rfl ⟨⟨rfl, cur, buf, x9⟩, x0, x3, x4, congrArg chunkSize x4, congrArg chunkIsLast x4, ?_⟩
      exact congrArg (fun x => readLengthWord (chunkIsLast x) (chunkSize x)) x4
  case rNakClearRd =>
    obtain ⟨⟨pc, cur, buf, x9⟩, -⟩ := live
    obtain ⟨u, v, e, e'⟩ := intrState
    rw [microRead_nakClearRd hpc, microRead_nakClearRd (s := { s with seq := r }) pc.symm, e, e']
    exact .next rfl ⟨⟨rfl, cur, buf, x9⟩, rfl⟩
  case rNakClearWr =>
    obtain ⟨⟨pc, cur, buf, x9⟩, x10⟩ := live
    rw [microRead_nakClearWr hpc, microRead_nakClearWr (s := { s with seq := r }) pc.symm, x10]
    exact .next rfl ⟨⟨rfl, rfl, buf, rfl⟩, trivial⟩
  case rDataWait =>
    obtain ⟨⟨pc, cur, buf, x9⟩, x0, x3, x4, x5, x6⟩ := live
    obtain ⟨u, v, e, e'⟩ := status
    rw [microRead_dataWait hpc, microRead_dataWait (s := { s with seq := r }) pc.symm, e, e']
    dsimp only
    split
    · exact .next rfl ⟨⟨rfl, cur, buf, x9⟩, x0, x3, x4, x5, x6, rfl⟩
    · exact .next rfl ⟨⟨hpc.trans pc, cur, buf, x9⟩, by simp only [hpc]; exact ⟨x0, x3, x4, x5, x6⟩⟩
  all_goals
    intro t hstep
    rw [microRead, hpc] at hstep
    cases hstep

/-! ### The other operations -/

theorem exec_accRd_follows (op : operationState s.cfg s.seq) (hpc : s.seq.pc = .accRd) (live : Sequencer.sameLive s.seq r)
    (hcur : s.seq.cur = some i) : Follows (exec i s) (exec i { s with seq := r }) := by
  simp only [operationState, Sequencer.sameLive, hpc] at op live
  obtain ⟨⟨pc, cur, buf, x9⟩, -⟩ := live
  have hcur' : r.cur = some i := cur.symm.trans hcur
  have test {accept : State → Res} {q : RegName} {test : Word → Bool} (hq : q = .status ∨ q = .intrState ∨ q = .rdata) :
      Follows (operation i accept (testMicro q test) s) (operation i accept (testMicro q test) { s with seq := r }) := by
    obtain ⟨u, v, e, e'⟩ := regRead_alike hq s r
    rw [operation_testMicro_accRd hpc hcur, operation_testMicro_accRd (s := { s with seq := r }) pc.symm hcur', e, e']
    exact .next rfl ⟨⟨rfl, rfl, buf, rfl⟩, trivial⟩
  have modify {accept : State → Res} {q : RegName} {modify : Word → Word}
      (read : ∃ (u : State) (v : Word), regRead q s = { u with seq := { s.seq with x10 := v } } ∧
        regRead q { s with seq := r } = { u with seq := { r with x10 := v } }) :
      Follows (operation i accept (modifyMicro q modify) s) (operation i accept (modifyMicro q modify) { s with seq := r }) := by
    obtain ⟨u, v, e, e'⟩ := read
    rw [operation_modifyMicro_accRd hpc hcur, operation_modifyMicro_accRd (s := { s with seq := r }) pc.symm hcur', e, e']
    exact .next rfl ⟨⟨rfl, cur, buf, x9⟩, rfl⟩
  obtain ⟨sel, -, h | h | h | h⟩ | ⟨sel, -, h⟩ := op <;> obtain rfl := Option.some.inj (h.symm.trans hcur)
  · exact test (.inr (.inl rfl))
  · exact modify (regRead_alike (.inr (.inl rfl)) s r)
  · exact modify ⟨s, s.dev.regs.intrEnable, rfl, rfl⟩
  · exact modify ⟨s, s.dev.regs.intrEnable, rfl, rfl⟩
  · exact test (.inl rfl)

theorem exec_accWr_follows (op : operationState s.cfg s.seq) (hpc : s.seq.pc = .accWr) (live : Sequencer.sameLive s.seq r)
    (hcur : s.seq.cur = some i) : Follows (exec i s) (exec i { s with seq := r }) := by
  simp only [operationState, Sequencer.sameLive, hpc] at op live
  obtain ⟨⟨pc, cur, buf, x9⟩, x10⟩ := live
  have hcur' : r.cur = some i := cur.symm.trans hcur
  have modify {accept : State → Res} {q : RegName} {modify : Word → Word}
      (stores : ∀ v t k, withWrite q v t k = k (storeReg q v t)) :
      Follows (operation i accept (modifyMicro q modify) s) (operation i accept (modifyMicro q modify) { s with seq := r }) := by
    rw [operation_modifyMicro_accWr stores hpc hcur,
      operation_modifyMicro_accWr stores (s := { s with seq := r }) pc.symm hcur', x10]
    exact .next rfl ⟨⟨rfl, rfl, buf, x9⟩, trivial⟩
  obtain ⟨sel, -, h | h | h⟩ := op <;> obtain rfl := Option.some.inj (h.symm.trans hcur)
  · exact modify withWrite_intrState
  · exact modify withWrite_intrEnable
  · exact modify withWrite_intrEnable

theorem exec_cfWr_follows (op : operationState s.cfg s.seq) (hpc : s.seq.pc = .cfWr) (live : Sequencer.sameLive s.seq r)
    (hcur : s.seq.cur = some i) : Follows (exec i s) (exec i { s with seq := r }) := by
  simp only [operationState, Sequencer.sameLive, hpc] at op live
  obtain ⟨⟨pc, cur, buf, x9⟩, -⟩ := live
  have hcur' : r.cur = some i := cur.symm.trans hcur
  obtain h | h | ⟨fmt, rx, h⟩ := op <;> obtain rfl := Option.some.inj (h.symm.trans hcur)
  · rw [exec_resetFifos_cfWr hpc hcur, exec_resetFifos_cfWr (s := { s with seq := r }) pc.symm hcur']
    exact .next rfl ⟨⟨rfl, rfl, buf, x9⟩, trivial⟩
  · rw [exec_setHostMode_cfWr hpc hcur, exec_setHostMode_cfWr (s := { s with seq := r }) pc.symm hcur']
    exact .next rfl ⟨⟨rfl, rfl, buf, x9⟩, trivial⟩
  · rw [exec_setHostThresholds_cfWr hpc hcur, exec_setHostThresholds_cfWr (s := { s with seq := r }) pc.symm hcur']
    exact .next rfl ⟨⟨rfl, rfl, buf, x9⟩, trivial⟩

theorem exec_tsCalc_follows (op : operationState s.cfg s.seq) (hpc : s.seq.pc = .tsCalc) (live : Sequencer.sameLive s.seq r)
    (hcur : s.seq.cur = some i) : Follows (exec i s) (exec i { s with seq := r }) := by
  simp only [operationState, Sequencer.sameLive, hpc] at op live
  obtain ⟨⟨pc, cur, buf, x9⟩, -⟩ := live
  have hcur' : r.cur = some i := cur.symm.trans hcur
  obtain ⟨khz, h, -, hperiod⟩ := op
  obtain rfl := Option.some.inj (h.symm.trans hcur)
  rw [exec_setSpeed_tsCalc hpc hcur, exec_setSpeed_tsCalc (s := { s with seq := r }) pc.symm hcur']
  cases hfits : clampOverflows (rawCounts s.cfg (busMode khz))
  · rw [calculateTiming_of_fits hperiod hfits, calculateTiming_of_fits (s := { s with seq := r }) hperiod hfits]
    exact .next rfl ⟨⟨rfl, cur, buf, x9⟩, rfl⟩
  · rw [calculateTiming_of_overflow hperiod hfits, calculateTiming_of_overflow (s := { s with seq := r }) hperiod hfits]
    exact .next rfl ⟨⟨rfl, rfl, buf, x9⟩, trivial⟩

theorem exec_tsWr_follows {j : Fin 5} (op : operationState s.cfg s.seq) (hpc : s.seq.pc = .tsWr j)
    (live : Sequencer.sameLive s.seq r) (hcur : s.seq.cur = some i) : Follows (exec i s) (exec i { s with seq := r }) := by
  simp only [operationState, Sequencer.sameLive, hpc] at op live
  obtain ⟨⟨pc, cur, buf, x9⟩, tp⟩ := live
  have hcur' : r.cur = some i := cur.symm.trans hcur
  obtain ⟨khz, h, -⟩ := op
  obtain rfl := Option.some.inj (h.symm.trans hcur)
  by_cases hmore : j.val + 1 < 5
  · rw [exec_setSpeed_tsWr_succ hmore hcur hpc, exec_setSpeed_tsWr_succ (s := { s with seq := r }) hmore hcur' pc.symm, tp]
    exact .next rfl ⟨⟨rfl, cur, buf, x9⟩, tp⟩
  · have last : j = 4 := by omega
    subst last
    rw [exec_setSpeed_tsWr_last hcur hpc, exec_setSpeed_tsWr_last (s := { s with seq := r }) hcur' pc.symm, tp]
    exact .next rfl ⟨⟨rfl, rfl, buf, x9⟩, trivial⟩

/-- The operation in progress. -/
theorem exec_follows (op : operationState s.cfg s.seq) (hacc : s.seq.pc.accepting = false)
    (hfault : ∀ f, s.seq.pc ≠ .faulted f) (live : Sequencer.sameLive s.seq r) (hcur : s.seq.cur = some i) :
    Follows (exec i s) (exec i { s with seq := r }) := by
  obtain ⟨pc, cur, -⟩ := live.1
  have hcur' : r.cur = some i := cur.symm.trans hcur
  have hacc' : r.pc.accepting = false := by rw [← pc, hacc]
  obtain ⟨-, state⟩ | ⟨-, state⟩ | hpc | hpc | hpc | hpc | ⟨j, hpc⟩ := operationState_cases op hacc hfault
  · obtain rfl := Option.some.inj (state.operands.symm.trans hcur)
    rw [exec_write_micro hcur hacc, exec_write_micro (s := { s with seq := r }) hcur' hacc']
    exact microWrite_follows live
  · obtain rfl := Option.some.inj (state.operands.symm.trans hcur)
    rw [exec_read_micro hcur hacc, exec_read_micro (s := { s with seq := r }) hcur' hacc']
    exact microRead_follows live
  · exact exec_accRd_follows op hpc live hcur
  · exact exec_accWr_follows op hpc live hcur
  · exact exec_cfWr_follows op hpc live hcur
  · exact exec_tsCalc_follows op hpc live hcur
  · exact exec_tsWr_follows op hpc live hcur

/-! ### Requests -/

/-- An acceptance writes what its operation reads, but for the buffer handle and the result of the last request. -/
theorem acceptance_follows (i : Instr) (s : State) (buf : s.seq.buf = r.buf) (x9 : s.seq.x9 = r.x9) :
    Follows (acceptance i s) (acceptance i { s with seq := r }) := by
  have access (j : Instr) (valid : Bool) :
      Follows (acceptAccess j valid s) (acceptAccess j valid { s with seq := r }) := by
    cases valid
    · exact .of_refused rfl
    · exact .next rfl ⟨⟨rfl, rfl, buf, x9⟩, trivial⟩
  cases i
  case resetFifos | setHostMode | setHostThresholds => exact .next rfl ⟨⟨rfl, rfl, buf, x9⟩, trivial⟩
  case setSpeed khz =>
    by_cases hkhz : khz = 0#32
    · subst hkhz
      exact .of_refused acceptSetSpeed_zero
    cases hperiod : noPeriod s.cfg
    · rw [acceptance, acceptance, acceptSetSpeed_of_period hkhz hperiod,
        acceptSetSpeed_of_period (s := { s with seq := r }) hkhz hperiod]
      exact .next rfl ⟨⟨rfl, rfl, buf, x9⟩, trivial⟩
    · rw [acceptance, acceptance, acceptSetSpeed_of_noPeriod hkhz hperiod,
        acceptSetSpeed_of_noPeriod (s := { s with seq := r }) hkhz hperiod]
      exact .next rfl ⟨⟨rfl, rfl, buf, x9⟩, trivial⟩
  case write a skip len =>
    by_cases hlen : len = 0#32
    · rw [acceptance, acceptance, acceptWrite, acceptWrite, if_pos hlen, if_pos hlen]
      exact .next rfl ⟨⟨rfl, rfl, buf, x9⟩, trivial⟩
    · rw [acceptance, acceptance, acceptWrite_nonzero hlen, acceptWrite_nonzero hlen]
      exact .next rfl ⟨⟨rfl, rfl, buf, x9⟩, rfl, rfl, rfl⟩
  case read a len =>
    by_cases hlen : len = 0#32
    · rw [acceptance, acceptance, acceptRead, acceptRead, if_pos hlen, if_pos hlen]
      exact .next rfl ⟨⟨rfl, rfl, buf, rfl⟩, trivial⟩
    · rw [acceptance, acceptance, acceptRead_nonzero hlen, acceptRead_nonzero hlen]
      exact .next rfl ⟨⟨rfl, rfl, buf, x9⟩, rfl, rfl, rfl, rfl⟩
  case interruptAsserted | clearInterrupt | enableInterrupt | disableInterrupt | statusTest => exact access _ _
  all_goals exact .of_refused rfl

/-- What an acceptance refuses depends on the operands alone. -/
theorem acceptance_refused {x : Refusal} (r : Sequencer) (h : acceptance i s = .refused x) :
    acceptance i { s with seq := r } = .refused x := by
  have access (j : Instr) (valid : Bool) (h : acceptAccess j valid s = .refused x) :
      acceptAccess j valid { s with seq := r } = .refused x := by
    cases valid
    · rw [← h]
      rfl
    · cases h
  cases i
  case setSpeed khz =>
    by_cases hkhz : khz = 0#32
    · subst hkhz
      rw [acceptance, acceptSetSpeed_zero] at h ⊢
      exact h
    cases hperiod : noPeriod s.cfg
    · rw [acceptance, acceptSetSpeed_of_period hkhz hperiod] at h
      cases h
    · rw [acceptance, acceptSetSpeed_of_noPeriod hkhz hperiod] at h
      cases h
  case write a skip len =>
    rw [acceptance, acceptWrite] at h
    split at h
    · cases h
    · cases h
  case read a len =>
    rw [acceptance, acceptRead] at h
    split at h
    · cases h
    · cases h
  case resetFifos | setHostMode | setHostThresholds => cases h
  case interruptAsserted | clearInterrupt | enableInterrupt | disableInterrupt | statusTest => exact access _ _ h
  all_goals exact h

theorem presentStep_follows (live : Sequencer.sameLive s.seq r) :
    Follows (presentStep s) (presentStep { s with seq := r }) := by
  obtain ⟨pc, cur, buf, x9⟩ := live.1
  rcases hport : s.port with _ | ⟨q, rest⟩
  · rw [presentStep_nothing hport, ← hport, presentStep_nothing (s := { s with seq := r }) hport]
    exact .next rfl live
  rw [← hport]
  cases hacc : s.seq.pc.accepting
  · have hacc' : r.pc.accepting = false := by rw [← pc, hacc]
    rw [presentStep_busy hport hacc, presentStep_busy (s := { s with seq := r }) hport hacc']
    exact .next rfl live
  have hacc' : r.pc.accepting = true := by rw [← pc, hacc]
  have follows := acceptance_follows (r := { r with buf := q.buf }) (decodeRequest q.record)
    { s with port := rest, seq.buf := q.buf } rfl x9
  obtain ⟨t, ht, -⟩ | ⟨x, hx⟩ := acceptance_kept (decodeRequest q.record) { s with port := rest, seq.buf := q.buf }
  · obtain ⟨r', hr', live'⟩ := follows t ht
    rw [presentStep_acceptance hport hacc ht, presentStep_acceptance (s := { s with seq := r }) hport hacc' hr']
    exact .next rfl live'
  · rw [presentStep_refusal hport hacc hx,
      presentStep_refusal (s := { s with seq := r }) hport hacc' (acceptance_refused { r with buf := q.buf } hx)]
    exact .next rfl live

/-! ### Every agent -/

theorem sequencerStep_follows (h : State.Inv s) (hfault : ∀ f, s.seq.pc ≠ .faulted f) (live : Sequencer.sameLive s.seq r) :
    Follows (sequencerStep s) (sequencerStep { s with seq := r }) := by
  obtain ⟨pc, cur, -⟩ := live.1
  cases hacc : s.seq.pc.accepting
  · have hacc' : r.pc.accepting = false := by rw [← pc, hacc]
    obtain ⟨i, -, hcur, -⟩ := exec_kept h.operation hacc hfault
    rw [sequencerStep_micro hacc hcur, sequencerStep_micro (s := { s with seq := r }) hacc' (cur.symm.trans hcur)]
    exact exec_follows h.operation hacc hfault live hcur
  · have hacc' : r.pc.accepting = true := by rw [← pc, hacc]
    rw [sequencerStep_accepting hacc, sequencerStep_accepting (s := { s with seq := r }) hacc']
    exact presentStep_follows live

theorem agentStep_follows {v : Turn} (h : State.Inv s) (hv : v ≠ .reset)
    (hfault : v = .present ∨ ∀ f, s.seq.pc ≠ .faulted f) (live : Sequencer.sameLive s.seq r) :
    Follows (agentStep v s) (agentStep v { s with seq := r }) := by
  cases v with
  | seq => exact sequencerStep_follows h (hfault.resolve_left nofun) live
  | present => exact presentStep_follows live
  | devExec =>
    intro t hstep
    refine ⟨r, deviceExecStep_overlay r s unnoticed_id hstep, ?_⟩
    rw [(deviceExecStep_sparesSequencer hstep).seq]
    exact live
  | devFlag x => exact .next rfl live
  | devWord q x =>
    refine .next ?_ ?_
    · simp only [deviceWordStep]
      split <;> rfl
    · simp only [deviceWordStep]
      split <;> exact live
  | reset => exact absurd rfl hv

theorem sameLive_refl (q : Sequencer) : Sequencer.sameLive q q := by
  refine ⟨⟨rfl, rfl, rfl, rfl⟩, ?_⟩
  cases q.pc <;> simp

theorem turnStep_follows {v : Turn} (h : State.Inv s) (live : Sequencer.sameLive s.seq r) :
    Follows (turnStep v s) (turnStep v { s with seq := r }) := by
  by_cases hv : v = .reset
  · subst hv
    rw [turnStep_reset, turnStep_reset]
    exact .next rfl (sameLive_refl _)
  intro t hstep
  obtain ⟨hpc, u, hagent, rfl⟩ := (turnStep_agent_iff hv).mp hstep
  obtain ⟨r', hagent', live'⟩ := agentStep_follows h hv hpc live u hagent
  have recorded := remember_overlay r s unnoticed_id (q' := r') (h' := id) u
  refine ⟨r', (turnStep_agent_iff hv).mpr ⟨?_, _, hagent', recorded.symm⟩, ?_⟩
  · rw [← live.1.1]
    exact hpc
  · rw [remember_seq]
    exact live'

end

/-- Settles O60: taking the turn does not look at the working registers, and each turn's step follows. -/
theorem workingRegistersAreWrittenFirst : Obligations.WorkingRegistersAreWrittenFirst := by
  intro s t r h live hstep
  obtain ⟨e, taken⟩ := nextTurn_state s
  have overlaid := nextTurn_overlay r id s
  rw [taken] at overlaid
  rw [step, taken] at hstep
  obtain ⟨r', hstep', live'⟩ := turnStep_follows (s := { s with env := e }) (h.withEnv e) live t hstep
  refine ⟨r', ?_, live'⟩
  rw [step]
  change turnStep (nextTurn (overlay r id s)).1 (nextTurn (overlay r id s)).2 = _
  rw [overlaid]
  exact hstep'

end Sys2Proof.Machine
end
